-- ==== Sys2Proof/Word.lean ====
section
/-! DEFINITION. The bit-vector types of the block: what the spec gives a width and software can see. -/

namespace Sys2Proof

/-- A command word, or the data half of a response, or a status register (30_encoding.md R90, R97; 10_state.md R36). -/
abbrev Word := BitVec 32

/-- One byte of a stream or a bit buffer (20_memory.md R62, R63). -/
abbrev Byte := BitVec 8

/-- One entry of the frequency table: FW = 14 bits (00_scope.md R8). -/
abbrev Weight := BitVec 14

/-- A P = 16 bit register of a coder: an interval bound or the decoder's value register (00_scope.md R5). -/
abbrev Bound := BitVec 16

/-- A response code, or the cause register: 4 bits (30_encoding.md R97; 10_state.md R31). -/
abbrev Code := BitVec 4

end Sys2Proof
end

