-- ==== Sys2Proof/Syntax.lean ====
section
/-! DEFINITION. The eighteen commands (30_encoding.md R95), one constructor per row of the opcode table. -/

namespace Sys2Proof

/-- A decoded command.  An operand of format S or an index of format T is the natural its 14-bit field holds
(R92, R94, R96); `Instr.wellFormed` says that it fits the field.  `w` is the 14-bit weight of format T and
`b` the bit of format B (R93). -/
inductive Instr where
  | nop
  | srst
  | csrRd (addr : Nat)
  | tblWr (idx : Nat) (w : Weight)
  | flFreq (sym : Nat)
  | flCumlo (sym : Nat)
  | flCumhi (sym : Nat)
  | flTotal
  | flFind (x : Nat)
  | txPut (b : Bool)
  | txClose
  | rxGet
  | encInit
  | encSym (sym : Nat)
  | encFin
  | decInit
  | decSym
  | decEnd
deriving DecidableEq, Repr

end Sys2Proof
end

