-- ==== Sys2Proof/WellFormed.lean ====
section
/-! DEFINITION. Which commands have an encoding: every operand fits its field (30_encoding.md R92, R94). -/

namespace Sys2Proof

/-- A natural that a 14-bit operand field can hold: 0..16383 (R92). -/
def fitsOperand (a : Nat) : Bool := a < 2 ^ 14

/-- The operand check of each command (R91 to R94). -/
def Instr.wellFormed : Instr → Bool
  | .nop | .srst | .flTotal | .txClose | .rxGet | .encInit | .encFin | .decInit | .decSym | .decEnd => true
  | .txPut _ => true
  | .csrRd addr => fitsOperand addr
  | .tblWr idx _ => fitsOperand idx
  | .flFreq sym => fitsOperand sym
  | .flCumlo sym => fitsOperand sym
  | .flCumhi sym => fitsOperand sym
  | .flFind x => fitsOperand x
  | .encSym sym => fitsOperand sym

end Sys2Proof
end

