-- ==== Sys2Proof/Decode.lean ====
section
/-! DEFINITION. The decoder and the encoder, written from 30_encoding.md R90 to R99. -/

namespace Sys2Proof

/-- Why a word is no command (R99): its opcode is not in the map, or the opcode is listed and a must-be-zero
bit is set. -/
inductive Illegal where
  | reservedOpcode
  | nonzeroReservedBits
deriving DecidableEq, Repr

/-- `cmd[13:0]` as a natural: `arg` of format S, `idx` of format T (R96). -/
def fieldArg (cmd : Word) : Nat := (cmd.extractLsb' 0 14).toNat

/-- `cmd[27:14]`: `w` of format T (R94). -/
def fieldWeight (cmd : Word) : Weight := cmd.extractLsb' 14 14

/-- `cmd[0]`: `b` of format B (R93). -/
def fieldBit (cmd : Word) : Bool := cmd.getLsbD 0

/-- One row of the opcode map (R95): the command of the row is `build cmd` when `cmd AND mask = pat`. -/
structure Row where
  pat   : Word
  mask  : Word
  build : Word → Instr

/-- The row applies to the word. -/
def Row.hits (r : Row) (cmd : Word) : Bool := (cmd &&& r.mask) == r.pat

/-- A row of format Z: all 32 bits are fixed (R91). -/
def rowZ (pat : Word) (i : Instr) : Row := ⟨pat, 0xFFFFFFFF#32, fun _ => i⟩

/-- A row of format S: the operand is `cmd[13:0]` (R92). -/
def rowS (pat : Word) (f : Nat → Instr) : Row := ⟨pat, 0xFFFFC000#32, fun cmd => f (fieldArg cmd)⟩

/-- The complete map of R95, in its order. -/
def rows : List Row :=
  [ rowZ 0x00000000#32 .nop,
    rowZ 0x01000000#32 .srst,
    rowS 0x02000000#32 .csrRd,
    ⟨0x10000000#32, 0xF0000000#32, fun cmd => .tblWr (fieldArg cmd) (fieldWeight cmd)⟩,
    rowS 0x20000000#32 .flFreq,
    rowS 0x21000000#32 .flCumlo,
    rowS 0x22000000#32 .flCumhi,
    rowZ 0x23000000#32 .flTotal,
    rowS 0x24000000#32 .flFind ] ++
  [ ⟨0x30000000#32, 0xFFFFFFFE#32, fun cmd => .txPut (fieldBit cmd)⟩,
    rowZ 0x31000000#32 .txClose,
    rowZ 0x38000000#32 .rxGet,
    rowZ 0x40000000#32 .encInit,
    rowS 0x41000000#32 .encSym,
    rowZ 0x42000000#32 .encFin,
    rowZ 0x50000000#32 .decInit,
    rowZ 0x51000000#32 .decSym,
    rowZ 0x52000000#32 .decEnd ]

/-- The opcode byte `cmd[31:24]` of a row of the map (R95). -/
def Row.opcode (r : Row) : BitVec 8 := r.pat.extractLsb' 24 8

/-- The opcode byte of the word is listed in the map (R99). -/
def opcodeListed (cmd : Word) : Bool := rows.any fun r => r.opcode == cmd.extractLsb' 24 8

/-- The command a word is, or the reason it is none (R95, R99).  It reads the word alone (R100). -/
def decode (cmd : Word) : Except Illegal Instr :=
  match rows.find? fun r => r.hits cmd with
  | some r => .ok (r.build cmd)
  | none => if opcodeListed cmd then .error .nonzeroReservedBits else .error .reservedOpcode

/-- Format Z: the opcode byte, then 24 zero bits (R91). -/
def encodeZ (op : BitVec 8) : Word := op ++ 0#24

/-- Format S: the opcode byte, ten zero bits, the operand (R92). -/
def encodeS (op : BitVec 8) (arg : Nat) : Word := op ++ 0#10 ++ BitVec.ofNat 14 arg

/-- Format B: the opcode byte, 23 zero bits, the bit (R93). -/
def encodeB (op : BitVec 8) (b : Bool) : Word := op ++ 0#23 ++ BitVec.ofBool b

/-- Format T: the nibble 1, the weight, the index (R94). -/
def encodeT (idx : Nat) (w : Weight) : Word := 0x1#4 ++ w ++ BitVec.ofNat 14 idx

/-- The word of a command (R91 to R95). -/
def encode : Instr → Word
  | .nop => encodeZ 0x00#8
  | .srst => encodeZ 0x01#8
  | .csrRd addr => encodeS 0x02#8 addr
  | .tblWr idx w => encodeT idx w
  | .flFreq sym => encodeS 0x20#8 sym
  | .flCumlo sym => encodeS 0x21#8 sym
  | .flCumhi sym => encodeS 0x22#8 sym
  | .flTotal => encodeZ 0x23#8
  | .flFind x => encodeS 0x24#8 x
  | .txPut b => encodeB 0x30#8 b
  | .txClose => encodeZ 0x31#8
  | .rxGet => encodeZ 0x38#8
  | .encInit => encodeZ 0x40#8
  | .encSym sym => encodeS 0x41#8 sym
  | .encFin => encodeZ 0x42#8
  | .decInit => encodeZ 0x50#8
  | .decSym => encodeZ 0x51#8
  | .decEnd => encodeZ 0x52#8

/-- The command word whose `nbits` low bits are those of `w` and whose other bits are 0.  A command is one
32-bit word on a parallel port (R90, 20_memory.md R65), so laying it out changes nothing. -/
def wordOfTable (nbits w : Nat) : Word := BitVec.ofNat 32 (w % 2 ^ nbits)

/-- What the decoder reads from an opcode-table word. -/
def decodeTableWord (nbits w : Nat) : Option Instr :=
  match decode (wordOfTable nbits w) with
  | .ok i => some i
  | .error _ => none

end Sys2Proof
end

