-- ==== Sys2Proof/Config.lean ====
section
/-! DEFINITION. What is fixed for the machine: the parameters of 00_scope.md R5 to R8 and their derived constants. -/

namespace Sys2Proof.Config

/-- Width of the working interval and of the value register (R5). -/
def P : Nat := 16

/-- Width of the pending-bit counter (R8). -/
def PENDW : Nat := 32

/-- `2^P` (R6). -/
def RANGE : Nat := 2 ^ P

/-- The initial `high` (R6). -/
def TOP : Nat := RANGE - 1

/-- `2^(P-1)` (R6). -/
def HALF : Nat := 2 ^ (P - 1)

/-- `2^(P-2)` (R6). -/
def QUARTER : Nat := 2 ^ (P - 2)

/-- `3 * QUARTER` (R6). -/
def THREEQ : Nat := 3 * QUARTER

/-- The largest value of the pending-bit counter (R8). -/
def PEND_MAX : Nat := 2 ^ PENDW - 1

/-- The hardwired value of the `ID` register (10_state.md R37). -/
def idValue : Word := 0x41430001#32

/-- The parameter a builder of the block chooses (92_eei_decisions.md D2, OPEN): `n` is `N`, the number of
ordinary symbols and the index of the end-of-stream symbol.  Fourteen bits hold every legal value; R7 also
excludes 0 (`Params.legal`). -/
structure Params where
  n : BitVec 14
deriving DecidableEq, Repr

/-- `1 <= N <= 16383` (R7); the upper bound is the width of the field. -/
def Params.legal (p : Params) : Bool := p.n != 0#14

/-- This hardware: `N = 256` (R7). -/
def Params.default : Params := { n := 256#14 }

@[simp] theorem P_eq : P = 16 := rfl
@[simp] theorem PENDW_eq : PENDW = 32 := rfl
@[simp] theorem RANGE_eq : RANGE = 65536 := rfl
@[simp] theorem TOP_eq : TOP = 65535 := rfl
@[simp] theorem HALF_eq : HALF = 32768 := rfl
@[simp] theorem QUARTER_eq : QUARTER = 16384 := rfl
@[simp] theorem THREEQ_eq : THREEQ = 49152 := rfl
@[simp] theorem PEND_MAX_eq : PEND_MAX = 4294967295 := rfl

end Sys2Proof.Config
end

