-- ==== Sys2Proof/Machine/State.lean ====
section
/-! DEFINITION. The state of the block and of its environment, the ways a step can stop, and the state after reset. -/

namespace Sys2Proof.Machine

/-- The frequency table (the space TBL, 20_memory.md R60, R61): the pairs (index, weight) of its nonzero
entries, indices strictly rising.  An index that is not listed holds 0, what hardware reset leaves there
(10_state.md R55).  The unit of access is a whole 14-bit entry: no byte of it is addressable. -/
abbrev Memory := List (Nat × Weight)

/-- One response of the block: a 4-bit code and 32 bits of data (30_encoding.md R97). -/
structure Response where
  code : Code
  data : Word
deriving DecidableEq, Repr

/-- The seven causes of 60_exceptions.md R221. -/
inductive Cause where
  | precisionOverflow
  | emptyModel
  | unknownSymbol
  | pendingOverflow
  | illegalCmd
  | badState
  | badIndex
deriving DecidableEq, Repr

/-- What the world outside does to the block next (10_state.md R33, 70_reset_and_hazards.md R250). -/
inductive HostEvent where
  /-- The host presents a command word. -/
  | cmd (w : Word)
  /-- `rst` is asserted between two commands. -/
  | rst
  /-- `rst` is asserted while the block executes `w`, after `transfers` of the command's byte transfers. -/
  | rstDuring (w : Word) (transfers : Nat)
  /-- The host presents `w`, and after `transfers` of the command's transfers with the byte streams no collaborator
  answers any more; if the command makes no more than these, its response is never taken (20_memory.md R78,
  70_reset_and_hazards.md R273). -/
  | stall (w : Word) (transfers : Nat)
deriving DecidableEq, Repr

/-- Everything the spec gives the machine, and the environment it says a model must hold. -/
structure State where
  /-- MODEL'S OWN: the parameter `N` (00_scope.md R7, 92 D2), constant under every step. -/
  params : Config.Params
  /-- `freq[0..N]` (10_state.md R21). -/
  freq : Memory
  /-- `enc_low` (R23). -/
  encLow : Bound
  /-- `enc_high` (R23). -/
  encHigh : Bound
  /-- `enc_pend` (R24). -/
  encPend : BitVec 32
  /-- `enc_active` (R25). -/
  encActive : Bool
  /-- `tx_buf` (R26). -/
  txBuf : Byte
  /-- `tx_fill` (R26). -/
  txFill : BitVec 3
  /-- `dec_low` (R27). -/
  decLow : Bound
  /-- `dec_high` (R27). -/
  decHigh : Bound
  /-- `dec_value` (R28). -/
  decValue : Bound
  /-- `dec_active` (R29). -/
  decActive : Bool
  /-- `dec_eos` (R29). -/
  decEos : Bool
  /-- `rx_buf` (R30). -/
  rxBuf : Byte
  /-- `rx_cnt` (R30). -/
  rxCnt : BitVec 4
  /-- `rx_end` (R30). -/
  rxEnd : Bool
  /-- `fault_cause` (R31). -/
  faultCause : Code
  /-- `fault_cmd` (R31). -/
  faultCmd : Word
  /-- Environment: the output stream `out` (R32). -/
  out : List Byte
  /-- Environment: the input stream `in` (R32). -/
  inp : List Byte
  /-- Environment: `in_pos` (R32). -/
  inPos : Nat
  /-- Environment: the responses given so far, in command order (30_encoding.md R97). -/
  rsps : List Response
  /-- The command in progress, which waits for a transfer that never happens; none while the block is idle (R78,
  70_reset_and_hazards.md R272, R273). -/
  inProgress : Option Word
  /-- MODEL'S OWN: what the host and the `rst` input will do, the next event first (10_state.md R33). -/
  host : List HostEvent
deriving DecidableEq, Repr

/-- The ways a step stops.  The spec's faults are NOT among them: taking one is a next state
(60_exceptions.md R231). -/
inductive Fault where
  /-- Raised by ENC_SYM where `Narrow` is not defined (42_encoder.md R160: `low <= high`, `Total() >= 1`, and
  `range >= Total()`, which makes its subtraction safe).  SAFE: no run reaches such a state (10_state.md R57),
  and the machine stops where the spec says nothing. -/
  | narrowUndefined
  /-- Raised by DEC_SYM where `Scaled` is not defined (43_decoder.md R190: `low <= value <= high`) or `Narrow`
  is not.  SAFE: no run reaches such a state (R57), and the machine stops where the spec says nothing. -/
  | scaledUndefined
deriving DecidableEq, Repr

/-- The ways a step is refused. -/
inductive Refusal where
  /-- Raised by `exec` for a command that has no meaning yet (none is left).  SAFE: the machine stops. -/
  | notModelled (mnemonic : String)
deriving DecidableEq, Repr

/-- The machine right after hardware reset (10_state.md R55), with `N = 256` (R7) and a fresh environment
(R32): nothing sent, nothing consumed, nothing answered, no input and no command waiting. -/
def State.reset : State where
  params := Config.Params.default
  freq := []
  encLow := 0#16
  encHigh := BitVec.ofNat 16 Config.TOP
  encPend := 0#32
  encActive := false
  txBuf := 0#8
  txFill := 0#3
  decLow := 0#16
  decHigh := BitVec.ofNat 16 Config.TOP
  decValue := 0#16
  decActive := false
  decEos := false
  rxBuf := 0#8
  rxCnt := 0#4
  rxEnd := false
  faultCause := 0#4
  faultCmd := 0#32
  out := []
  inp := []
  inPos := 0
  rsps := []
  inProgress := none
  host := []

end Sys2Proof.Machine
end

