-- ==== Sys2Proof/Machine/Ops.lean ====
section
/-! DEFINITION. The named operations every meaning is built from: the frequency table and its sums, the two
streams, the two bit buffers, the response, taking a fault and the two ways out of one. -/

namespace Sys2Proof.Machine

/-- The outcome of one step of this machine. -/
abbrev Result := Host.Outcome State Fault Refusal

/-- A bit as a natural. -/
def bitNat (b : Bool) : Nat := if b then 1 else 0

/-! ## The frequency table (20_memory.md R61, 40_frequency_lookup.md R120 to R124) -/

/-- The canonical form: indices strictly rising, no entry that holds 0. -/
def Memory.wf : Memory → Bool
  | [] => true
  | [(_, w)] => w != 0#14
  | (i, w) :: (j, v) :: m => w != 0#14 && decide (i < j) && Memory.wf ((j, v) :: m)

/-- `freq[i]`: an index that is not listed holds 0 (10_state.md R55). -/
def Memory.read : Memory → Nat → Weight
  | [], _ => 0#14
  | (k, w) :: m, i => if k = i then w else Memory.read m i

/-- `freq[i] <- w`, keeping the canonical form. -/
def Memory.write : Memory → Nat → Weight → Memory
  | [], i, w => if w = 0#14 then [] else [(i, w)]
  | (k, v) :: m, i, w =>
    if i < k then (if w = 0#14 then (k, v) :: m else (i, w) :: (k, v) :: m)
    else if i = k then (if w = 0#14 then m else (i, w) :: m)
    else (k, v) :: Memory.write m i w

/-- `Cum(i)`: the sum of `freq[0]`, ..., `freq[i-1]` over the naturals (R120, 10_state.md R22). -/
def Memory.cum : Memory → Nat → Nat
  | [], _ => 0
  | (k, w) :: m, i => (if k < i then w.toNat else 0) + Memory.cum m i

/-- The walk of the table that `Find` makes: the first index whose weight is not used up by `x` (R124; the
method is not observable, R53). -/
def Memory.find : Memory → Nat → Option Nat
  | [], _ => none
  | (k, w) :: m, x => if x < w.toNat then some k else Memory.find m (x - w.toNat)

/-- `N`: the index of the end-of-stream symbol (00_scope.md R7). -/
def State.eosSym (s : State) : Nat := s.params.n.toNat

/-- `frequencyOf(i)` (R121). -/
def State.weight (s : State) (i : Nat) : Weight := Memory.read s.freq i

/-- `Cum(i)` (R120). -/
def State.cum (s : State) (i : Nat) : Nat := Memory.cum s.freq i

/-- `Total()`, that is `Cum(N + 1)` (R120). -/
def State.total (s : State) : Nat := s.cum (s.eosSym + 1)

/-- `Find(x)`: defined exactly for `x < Total()` (R124). -/
def State.findSymbol (s : State) (x : Nat) : Option Nat :=
  if x < s.total then Memory.find s.freq x else none

/-- `freq[idx] <- w` on the state (R127). -/
def State.setWeight (s : State) (idx : Nat) (w : Weight) : State :=
  { s with freq := Memory.write s.freq idx w }

/-! ## Codes, the response, faults (30_encoding.md R97, 60_exceptions.md R221, R231) -/

/-- The cause codes of R221. -/
def Cause.code : Cause → Code
  | .precisionOverflow => 1#4
  | .emptyModel => 2#4
  | .unknownSymbol => 3#4
  | .pendingOverflow => 4#4
  | .illegalCmd => 5#4
  | .badState => 6#4
  | .badIndex => 7#4

/-- Response code `OK` (R97). -/
def codeOk : Code := 0#4

/-- Response code `FAULTED` (R97, R229). -/
def codeFaulted : Code := 0xF#4

/-- The command's response, appended to the response channel (R97). -/
def State.respond (s : State) (code : Code) (data : Word) : State :=
  { s with rsps := s.rsps ++ [⟨code, data⟩] }

/-- `return (OK, data)`. -/
def answer (data : Word) (s : State) : Result := .next (s.respond codeOk data)

/-- TAKING A FAULT, `raise c(cmd)` (60_exceptions.md R231): the latch records the cause and the whole command
word, the command ends, the response is the cause code with data 0; nothing else is written. -/
def raise (c : Cause) (cmd : Word) (s : State) : Result :=
  .next ({ s with faultCause := c.code, faultCmd := cmd }.respond c.code 0#32)

/-- The answer of a command that arrives while a fault is recorded: nothing is executed (R229). -/
def refuseFaulted (s : State) : Result := .next (s.respond codeFaulted 0#32)

/-- THE RETURN FROM A FAULT (60_exceptions.md R233): the writes of `SRST` (44_system_ops.md R211), the "after
SRST" column of 10_state.md R55. -/
def softReset (s : State) : State :=
  { s with
    encLow := 0#16, encHigh := BitVec.ofNat 16 Config.TOP, encPend := 0#32, encActive := false
    txBuf := 0#8, txFill := 0#3
    decLow := 0#16, decHigh := BitVec.ofNat 16 Config.TOP, decValue := 0#16
    decActive := false, decEos := false
    rxBuf := 0#8, rxCnt := 0#4, rxEnd := false
    faultCause := 0#4, faultCmd := 0#32 }

/-- Hardware reset: zero the table, then what `SRST` writes, with no response; a command in progress is abandoned
(70_reset_and_hazards.md R250, R251). -/
def hardReset (s : State) : State := softReset { s with freq := [], inProgress := none }

/-! ## Streams (20_memory.md R62, R63) -/

/-- `OutByte(v)` (R62). -/
def State.outByte (s : State) (v : Byte) : State := { s with out := s.out ++ [v] }

/-- `out_pos`: the length of `out` (10_state.md R32). -/
def State.outPos (s : State) : Nat := s.out.length

/-- `InByte()`: the next unread byte, or `END` (none), and the state after it (R63). -/
def State.inByte (s : State) : Option Byte × State :=
  match s.inp[s.inPos]? with
  | some v => (some v, { s with inPos := s.inPos + 1 })
  | none => (none, s)

/-! ## Bit buffers (41_bit_buffers.md R140 to R142) -/

/-- The empty transmit buffer (R26). -/
def State.clearTx (s : State) : State := { s with txBuf := 0#8, txFill := 0#3 }

/-- The empty receive buffer, with `rx_end` cleared (R30). -/
def State.clearRx (s : State) : State := { s with rxBuf := 0#8, rxCnt := 0#4, rxEnd := false }

/-- `tx_buf OR (b << (7 - tx_fill))` (R140). -/
def placeBit (buf : Byte) (fill : BitVec 3) (b : Bool) : Byte :=
  buf ||| (BitVec.ofNat 8 (bitNat b) <<< (7 - fill.toNat))

/-- `PutBit(b)` (R140). -/
def State.putBit (s : State) (b : Bool) : State :=
  let buf := placeBit s.txBuf s.txFill b
  if s.txFill = 7#3 then (s.outByte buf).clearTx
  else { s with txBuf := buf, txFill := s.txFill + 1#3 }

/-- `CloseTx()` (R141). -/
def State.closeTx (s : State) : State :=
  if s.txFill = 0#3 then s.clearTx else (s.outByte s.txBuf).clearTx

/-- The second half of `GetBit`: deliver bit 7 and shift left (R142). -/
def State.shiftRx (s : State) : Bool × State :=
  (s.rxBuf.getLsbD 7, { s with rxBuf := s.rxBuf <<< 1, rxCnt := s.rxCnt - 1#4 })

/-- `GetBit()`: the next input bit and the state after it; 0 past the end (R142). -/
def State.getBit (s : State) : Bool × State :=
  if s.rxCnt = 0#4 then
    if s.rxEnd then (false, s)
    else
      match s.inByte with
      | (none, t) => (false, { t with rxEnd := true })
      | (some v, t) => State.shiftRx { t with rxBuf := v, rxCnt := 8#4 }
  else s.shiftRx

end Sys2Proof.Machine
end

