-- ==== Sys2Proof/Machine/Operands.lean ====
section
/-! DEFINITION. What a command checks its operand against (30_encoding.md R96): table indices, symbols, and the
addresses of the status registers. -/

namespace Sys2Proof.Machine

/-- A table index is legal for `0 <= i <= N` (20_memory.md R61). -/
def State.indexLegal (s : State) (i : Nat) : Bool := i ≤ s.eosSym

/-- ENC_SYM can code the symbol: it is in the alphabet and its weight is not 0 (42_encoder.md R167). -/
def State.symbolCodable (s : State) (sym : Nat) : Bool := s.indexLegal sym && s.weight sym != 0#14

/-- The thirteen status registers of 10_state.md R36. -/
inductive Csr where
  | id | cfg | status | fault | faultCmd
  | encLow | encHigh | encPend | txState
  | decLow | decHigh | decValue | rxState
deriving DecidableEq, Repr

/-- The address of each register (R36). -/
def Csr.addr : Csr → Nat
  | .id => 0x0000
  | .cfg => 0x0001
  | .status => 0x0002
  | .fault => 0x0003
  | .faultCmd => 0x0004
  | .encLow => 0x0008
  | .encHigh => 0x0009
  | .encPend => 0x000A
  | .txState => 0x000B
  | .decLow => 0x0010
  | .decHigh => 0x0011
  | .decValue => 0x0012
  | .rxState => 0x0013

/-- The registers of the map, in the order of R36. -/
def csrList : List Csr :=
  [.id, .cfg, .status, .fault, .faultCmd, .encLow, .encHigh, .encPend, .txState,
   .decLow, .decHigh, .decValue, .rxState]

/-- The register at an address; every other address is undefined (R50). -/
def csrAt (addr : Nat) : Option Csr := csrList.find? fun c => c.addr == addr

end Sys2Proof.Machine
end

