-- ==== Sys2Proof/Machine/Flags.lean ====
section
/-! DEFINITION. The status flags and what is computed from them (10_state.md R35 to R49), the fault line, and
the session conditions (30_encoding.md R103). -/

namespace Sys2Proof.Machine

/-- `faulted`: a fault is recorded (10_state.md R35). -/
def State.faulted (s : State) : Bool := s.faultCause != 0#4

/-- The `fault` output (60_exceptions.md R235). -/
def State.faultLine (s : State) : Bool := s.faulted

/-- The five flags as the register `STATUS` shows them (10_state.md R39). -/
def State.statusWord (s : State) : Word :=
  0#27 ++ BitVec.ofBool s.faulted ++ BitVec.ofBool s.rxEnd ++ BitVec.ofBool s.decEos
    ++ BitVec.ofBool s.decActive ++ BitVec.ofBool s.encActive

/-- The value of a status register (10_state.md R37 to R49). -/
def State.csr (s : State) : Csr → Word
  | .id => Config.idValue
  | .cfg => BitVec.ofNat 8 Config.PENDW ++ BitVec.ofNat 8 Config.P ++ 0#2 ++ s.params.n
  | .status => s.statusWord
  | .fault => 0#28 ++ s.faultCause
  | .faultCmd => s.faultCmd
  | .encLow => 0#16 ++ s.encLow
  | .encHigh => 0#16 ++ s.encHigh
  | .encPend => s.encPend
  | .txState => 0#21 ++ s.txFill ++ s.txBuf
  | .decLow => 0#16 ++ s.decLow
  | .decHigh => 0#16 ++ s.decHigh
  | .decValue => 0#16 ++ s.decValue
  | .rxState => 0#20 ++ s.rxCnt ++ s.rxBuf

/-- The session-state condition of each command (30_encoding.md R103). -/
def sessionOk (i : Instr) (s : State) : Bool :=
  match i with
  | .nop | .srst | .csrRd _ => true
  | .flFreq _ | .flCumlo _ | .flCumhi _ | .flTotal | .flFind _ => true
  | .tblWr _ _ => !s.encActive && !s.decActive
  | .txPut _ | .txClose => !s.encActive
  | .rxGet => !s.decActive
  | .encInit => !s.encActive
  | .encSym _ | .encFin => s.encActive
  | .decInit => !s.decActive
  | .decSym | .decEnd => s.decActive

end Sys2Proof.Machine
end

