-- ==== Sys2Proof/Machine/Command.lean ====
section
/-! DEFINITION. What every command goes through before its own pseudocode (30_encoding.md R102 steps 1 and 3),
and the check both session openings share (40_frequency_lookup.md R126). -/

namespace Sys2Proof.Machine

/-- Steps 1 and 3 of `Step` (R102), then `body`: refused while a fault is recorded (60_exceptions.md R229),
`BAD_STATE` when the session condition fails (R103, R227).  The command word of a decoded command is its
encoding (R100). -/
def issue (i : Instr) (s : State) (body : State → Result) : Result :=
  if s.faulted then refuseFaulted s
  else if sessionOk i s then body s
  else raise .badState (encode i) s

/-- `ModelCheck(cmd)`, then `body` (40_frequency_lookup.md R126, 60_exceptions.md R222, R223). -/
def modelCheck (cmd : Word) (s : State) (body : State → Result) : Result :=
  if s.total = 0 then raise .emptyModel cmd s
  else if s.total ≥ Config.QUARTER then raise .precisionOverflow cmd s
  else body s

/-- Steps 1 and 2 of `Step` for a word that is no command (R102, 60_exceptions.md R226, R229). -/
def execIllegal (cmd : Word) (s : State) : Result :=
  if s.faulted then refuseFaulted s else raise .illegalCmd cmd s

end Sys2Proof.Machine
end

