-- ==== Sys2Proof/Machine/BitBuffers.lean ====
section
/-! DEFINITION. The commands of `bit_buffer_tx` and `bit_buffer_rx` (41_bit_buffers.md R143 to R145). -/

namespace Sys2Proof.Machine

/-- `TX_PUT b` (R143). -/
def execTxPut (b : Bool) (s : State) : Result :=
  issue (.txPut b) s fun s => answer 0#32 (s.putBit b)

/-- `TX_CLOSE` (R144). -/
def execTxClose (s : State) : Result :=
  issue .txClose s fun s => answer 0#32 s.closeTx

/-- `RX_GET`: the bit in data bit 0 (R145). -/
def execRxGet (s : State) : Result :=
  issue .rxGet s fun s => answer (BitVec.ofNat 32 (bitNat s.getBit.1)) s.getBit.2

end Sys2Proof.Machine
end

