-- ==== Sys2Proof/Machine/Interval.lean ====
section
/-! DEFINITION. The interval arithmetic the encoder and the decoder share: `Narrow`, `Class`, `Off`, `Rescale`
(42_encoder.md R160 to R162) and `Scaled` (43_decoder.md R190), over the naturals (00_scope.md R10, R13). -/

namespace Sys2Proof.Machine

/-- A working interval, both bounds inclusive (00_scope.md glossary). -/
structure Interval where
  low  : Nat
  high : Nat
deriving DecidableEq, Repr

/-- The initial interval `(0, TOP)` (42_encoder.md R166, 43_decoder.md R192). -/
def Interval.full : Interval := ⟨0, Config.TOP⟩

/-- `range = high - low + 1` (00_scope.md glossary). -/
def Interval.range (iv : Interval) : Nat := iv.high - iv.low + 1

/-- The three renormalization cases (42_encoder.md R161). -/
inductive Scaling where
  | e1 | e2 | e3
deriving DecidableEq, Repr

/-- `Class(low, high)`, `none` for `NONE`; the first test that holds decides (R161). -/
def Interval.scaling (iv : Interval) : Option Scaling :=
  if iv.high < Config.HALF then some .e1
  else if iv.low ≥ Config.HALF then some .e2
  else if iv.low ≥ Config.QUARTER ∧ iv.high < Config.THREEQ then some .e3
  else none

/-- `Off(k)` (R161). -/
def Scaling.off : Scaling → Nat
  | .e1 => 0
  | .e2 => Config.HALF
  | .e3 => Config.QUARTER

/-- `Rescale(low, high, k)` (R162). -/
def Interval.rescale (iv : Interval) (k : Scaling) : Interval :=
  ⟨2 * (iv.low - k.off), 2 * (iv.high - k.off) + 1⟩

/-- `Narrow` for the cumulative interval `[lo, hi)` out of `t` (R160); both bounds come from the old `low`, and
the product is formed before the division. -/
def Interval.narrow (iv : Interval) (lo hi t : Nat) : Interval :=
  ⟨iv.low + iv.range * lo / t, iv.low + iv.range * hi / t - 1⟩

/-- `Scaled(low, high, value)` with `Total() = t` (43_decoder.md R190). -/
def Interval.scaled (iv : Interval) (value t : Nat) : Nat :=
  ((value - iv.low + 1) * t - 1) / iv.range

/-- `Narrow(low, high, sym)` with the sums of the table (R160). -/
def State.narrowFor (s : State) (iv : Interval) (sym : Nat) : Interval :=
  iv.narrow (s.cum sym) (s.cum (sym + 1)) s.total

/-- Where `Narrow` is defined and its subtraction safe: `low <= high`, `1 <= Total() <= range` (R160). -/
def State.narrowDefined (s : State) (iv : Interval) : Bool :=
  decide (iv.low ≤ iv.high) && decide (1 ≤ s.total) && decide (s.total ≤ iv.range)

/-- Where `Scaled` is defined too: `low <= value <= high` (43_decoder.md R190). -/
def State.scaledDefined (s : State) (iv : Interval) (value : Nat) : Bool :=
  s.narrowDefined iv && decide (iv.low ≤ value) && decide (value ≤ iv.high)

/-- The encoder's interval (10_state.md R23). -/
def State.encInterval (s : State) : Interval := ⟨s.encLow.toNat, s.encHigh.toNat⟩

/-- `(enc_low, enc_high) <- iv`. -/
def State.setEncInterval (s : State) (iv : Interval) : State :=
  { s with encLow := BitVec.ofNat 16 iv.low, encHigh := BitVec.ofNat 16 iv.high }

/-- The decoder's interval (10_state.md R27). -/
def State.decInterval (s : State) : Interval := ⟨s.decLow.toNat, s.decHigh.toNat⟩

/-- `(dec_low, dec_high) <- iv`. -/
def State.setDecInterval (s : State) (iv : Interval) : State :=
  { s with decLow := BitVec.ofNat 16 iv.low, decHigh := BitVec.ofNat 16 iv.high }

end Sys2Proof.Machine
end

