-- ==== Sys2Proof/Machine/Decoder.lean ====
section
/-! DEFINITION. The decoder: the value register's fill, renormalization, and `DEC_INIT`, `DEC_SYM`, `DEC_END`
(43_decoder.md R191 to R194). -/

namespace Sys2Proof.Machine

/-- `repeat n times: v <- 2 * v + GetBit()` (R192): the value and the state after it. -/
def State.fillValue : Nat → Nat → State → Nat × State
  | 0, v, s => (v, s)
  | n + 1, v, s => State.fillValue n (2 * v + bitNat s.getBit.1) s.getBit.2

/-- One iteration of `DecRenorm` for the case `k` (R191): one bit is taken, the value register goes through the
same subtraction and doubling as the bounds. -/
def State.decShift (s : State) (k : Scaling) : State :=
  { s.getBit.2.setDecInterval (s.decInterval.rescale k) with
    decValue := BitVec.ofNat 16 (2 * (s.decValue.toNat - k.off) + bitNat s.getBit.1) }

/-- `DecRenorm` (R191) for at most `fuel` iterations; `P` iterations are always enough (42_encoder.md R165). -/
def decRenorm : Nat → State → State
  | 0, s => s
  | fuel + 1, s =>
    match s.decInterval.scaling with
    | none => s
    | some k => decRenorm fuel (s.decShift k)

/-- What `DEC_INIT` writes before it reads the first window (R192). -/
def State.clearDec (s : State) : State :=
  { (s.clearRx).setDecInterval Interval.full with decEos := false }

/-- The writes of a successful `DEC_INIT` (R192). -/
def State.openDec (s : State) : State :=
  { (State.fillValue Config.P 0 s.clearDec).2 with
    decValue := BitVec.ofNat 16 (State.fillValue Config.P 0 s.clearDec).1, decActive := true }

/-- `DEC_INIT` (R192). -/
def execDecInit (s : State) : Result :=
  issue .decInit s fun s => modelCheck (encode .decInit) s fun s => answer 0#32 s.openDec

/-- The symbol `DEC_SYM` decodes: `Find(Scaled(dec_low, dec_high, dec_value))` (R193). -/
def State.decodedSymbol (s : State) : Option Nat :=
  s.findSymbol (s.decInterval.scaled s.decValue.toNat s.total)

/-- The end of `DEC_SYM` once the symbol is found and the interval narrowed: the end-of-stream symbol closes
the session without renormalization (R193, 90_conflicts.md C2); data as in 30_encoding.md R98. -/
def State.deliver (s : State) (sym : Nat) : Result :=
  if sym = s.eosSym then
    answer (BitVec.ofNat 32 (sym + 2 ^ 16)) { s with decEos := true, decActive := false }
  else answer (BitVec.ofNat 32 sym) (decRenorm Config.P s)

/-- `DEC_SYM` (R193). -/
def execDecSym (s : State) : Result :=
  issue .decSym s fun s =>
    if !s.scaledDefined s.decInterval s.decValue.toNat then .fault .scaledUndefined
    else
      match s.decodedSymbol with
      | none => .fault .scaledUndefined
      | some sym => (s.setDecInterval (s.narrowFor s.decInterval sym)).deliver sym

/-- `DEC_END` (R194). -/
def execDecEnd (s : State) : Result :=
  issue .decEnd s fun s => answer 0#32 { s with decActive := false }

end Sys2Proof.Machine
end

