-- ==== Sys2Proof/Machine/Encoder.lean ====
section
/-! DEFINITION. The encoder: bit emission, renormalization, and `ENC_INIT`, `ENC_SYM`, `ENC_FIN` (42_encoder.md
R163 to R168). -/

namespace Sys2Proof.Machine

/-- `PutBit(b)` `n` times: the follow bits of R163. -/
def State.putBits (s : State) (b : Bool) : Nat → State
  | 0 => s
  | n + 1 => State.putBits (s.putBit b) b n

/-- `EmitWithFollow(b)`: the definite bit, then every pending bit as its complement; the counter ends at 0
(R163). -/
def State.emitWithFollow (s : State) (b : Bool) : State :=
  { (s.putBit b).putBits (!b) s.encPend.toNat with encPend := 0#32 }

/-- What the renormalization loop ended with (R164): no case applies any more, or an E3 step would have
overflowed the pending counter. -/
inductive Renormed where
  | settled (s : State)
  | overflowed (s : State)
deriving DecidableEq, Repr

/-- The loop body of R164 for the case `k`, without the rescaling; none when E3 meets `PEND_MAX`. -/
def State.settleBit (s : State) : Scaling → Option State
  | .e1 => some (s.emitWithFollow false)
  | .e2 => some (s.emitWithFollow true)
  | .e3 => if s.encPend.toNat = Config.PEND_MAX then none else some { s with encPend := s.encPend + 1#32 }

/-- `EncRenorm` (R164) for at most `fuel` iterations; `P` iterations are always enough (R165). -/
def encRenorm : Nat → State → Renormed
  | 0, s => .settled s
  | fuel + 1, s =>
    match s.encInterval.scaling with
    | none => .settled s
    | some k =>
      match s.settleBit k with
      | none => .overflowed s
      | some t => encRenorm fuel (t.setEncInterval (s.encInterval.rescale k))

/-- The writes of a successful `ENC_INIT` (R166). -/
def State.openEnc (s : State) : State :=
  { (s.clearTx).setEncInterval Interval.full with encPend := 0#32, encActive := true }

/-- `ENC_INIT` (R166). -/
def execEncInit (s : State) : Result :=
  issue .encInit s fun s => modelCheck (encode .encInit) s fun s => answer 0#32 s.openEnc

/-- `ENC_SYM s`: the symbol check, `Narrow`, `EncRenorm`; an overflow leaves the completed iterations in place
(R167, 60_exceptions.md R232). -/
def execEncSym (sym : Nat) (s : State) : Result :=
  issue (.encSym sym) s fun s =>
    if !s.symbolCodable sym then raise .unknownSymbol (encode (.encSym sym)) s
    else if !s.narrowDefined s.encInterval then .fault .narrowUndefined
    else
      match encRenorm Config.P (s.setEncInterval (s.narrowFor s.encInterval sym)) with
      | .settled t => answer 0#32 t
      | .overflowed t => raise .pendingOverflow (encode (.encSym sym)) t

/-- The final bit of R168: 0 when `enc_low < QUARTER`, else 1 (90_conflicts.md C1). -/
def State.finalBit (s : State) : Bool := !decide (s.encLow.toNat < Config.QUARTER)

/-- The writes of a successful `ENC_FIN` (R168). -/
def State.closeEnc (s : State) : State :=
  { (State.emitWithFollow { s with encPend := s.encPend + 1#32 } s.finalBit).closeTx with encActive := false }

/-- `ENC_FIN` (R168). -/
def execEncFin (s : State) : Result :=
  issue .encFin s fun s =>
    if s.encPend.toNat = Config.PEND_MAX then raise .pendingOverflow (encode .encFin) s
    else answer 0#32 s.closeEnc

end Sys2Proof.Machine
end

