-- ==== Sys2Proof/Machine/FrequencyLookup.lean ====
section
/-! DEFINITION. The commands of `frequency_lookup` (40_frequency_lookup.md R127 to R132). -/

namespace Sys2Proof.Machine

/-- The index check of a table command (R127 to R130), then `body`. -/
def checkIndex (cmd : Word) (i : Nat) (body : State → Result) (s : State) : Result :=
  if s.indexLegal i then body s else raise .badIndex cmd s

/-- `TBL_WR idx, w` (R127). -/
def execTblWr (idx : Nat) (w : Weight) (s : State) : Result :=
  issue (.tblWr idx w) s <| checkIndex (encode (.tblWr idx w)) idx fun s =>
    answer 0#32 (s.setWeight idx w)

/-- `FL_FREQ s` (R128). -/
def execFlFreq (sym : Nat) (s : State) : Result :=
  issue (.flFreq sym) s <| checkIndex (encode (.flFreq sym)) sym fun s =>
    answer (BitVec.ofNat 32 (s.weight sym).toNat) s

/-- `FL_CUMLO s` (R129). -/
def execFlCumlo (sym : Nat) (s : State) : Result :=
  issue (.flCumlo sym) s <| checkIndex (encode (.flCumlo sym)) sym fun s =>
    answer (BitVec.ofNat 32 (s.cum sym)) s

/-- `FL_CUMHI s` (R130). -/
def execFlCumhi (sym : Nat) (s : State) : Result :=
  issue (.flCumhi sym) s <| checkIndex (encode (.flCumhi sym)) sym fun s =>
    answer (BitVec.ofNat 32 (s.cum (sym + 1))) s

/-- `FL_TOTAL` (R131). -/
def execFlTotal (s : State) : Result :=
  issue .flTotal s fun s => answer (BitVec.ofNat 32 s.total) s

/-- `FL_FIND x`: `Find` is defined exactly for `x < Total()` (R132, R124). -/
def execFlFind (x : Nat) (s : State) : Result :=
  issue (.flFind x) s fun s =>
    match s.findSymbol x with
    | some sym => answer (BitVec.ofNat 32 sym) s
    | none => raise .badIndex (encode (.flFind x)) s

end Sys2Proof.Machine
end

