-- ==== Sys2Proof/Machine/System.lean ====
section
/-! DEFINITION. The system commands (44_system_ops.md). -/

namespace Sys2Proof.Machine

/-- `NOP` (R210). -/
def execNop (s : State) : Result := issue .nop s (answer 0#32)

/-- `SRST`: executes also while a fault is recorded (R211, 30_encoding.md R102 step 1). -/
def execSrst (s : State) : Result := answer 0#32 (softReset s)

/-- `CSR_RD addr`: a defined address is read also while a fault is recorded; an undefined one raises
`BAD_INDEX`, or is answered `FAULTED` (R212, 10_state.md R50). -/
def execCsrRd (addr : Nat) (s : State) : Result :=
  match csrAt addr with
  | some c => answer (s.csr c) s
  | none => issue (.csrRd addr) s (raise .badIndex (encode (.csrRd addr)))

end Sys2Proof.Machine
end

