-- ==== Sys2Proof/Machine/Dispatch.lean ====
section
/-! DEFINITION. One arm per command: the meaning each of the eighteen commands has. -/

namespace Sys2Proof.Machine

open Sys2Proof

def exec (i : Instr) (s : State) : Host.Outcome State Fault Refusal :=
  match i with
  -- 44_system_ops.md
  | .nop => Sys2Proof.Machine.execNop s
  | .srst => Sys2Proof.Machine.execSrst s
  | .csrRd addr => Sys2Proof.Machine.execCsrRd addr s
  -- 40_frequency_lookup.md
  | .tblWr idx w => Sys2Proof.Machine.execTblWr idx w s
  | .flFreq sym => Sys2Proof.Machine.execFlFreq sym s
  | .flCumlo sym => Sys2Proof.Machine.execFlCumlo sym s
  | .flCumhi sym => Sys2Proof.Machine.execFlCumhi sym s
  | .flTotal => Sys2Proof.Machine.execFlTotal s
  | .flFind x => Sys2Proof.Machine.execFlFind x s
  -- 41_bit_buffers.md
  | .txPut b => Sys2Proof.Machine.execTxPut b s
  | .txClose => Sys2Proof.Machine.execTxClose s
  | .rxGet => Sys2Proof.Machine.execRxGet s
  -- 42_encoder.md
  | .encInit => Sys2Proof.Machine.execEncInit s
  | .encSym sym => Sys2Proof.Machine.execEncSym sym s
  | .encFin => Sys2Proof.Machine.execEncFin s
  -- 43_decoder.md
  | .decInit => Sys2Proof.Machine.execDecInit s
  | .decSym => Sys2Proof.Machine.execDecSym s
  | .decEnd => Sys2Proof.Machine.execDecEnd s

end Sys2Proof.Machine
end

