-- ==== Sys2Proof/Machine/Execute.lean ====
section
/-! DEFINITION. Executing a command word, and being reset or left without an answer while executing one
(30_encoding.md R102, 20_memory.md R78, 70_reset_and_hazards.md R250, R273). -/

namespace Sys2Proof.Machine

/-- `Step(cmd)` (R102): the decoded command's meaning, or the fault of a word that is none. -/
def executeWord (cmd : Word) (s : State) : Result :=
  match decode cmd with
  | .ok i => exec i s
  | .error _ => execIllegal cmd s

/-- The environment after the first `k` byte transfers of a step from `s` to `t`: bytes already sent stay sent,
bytes already consumed stay consumed (R250, 93 V8).  A command transfers in one direction only (20_memory.md
R73). -/
def transferred (k : Nat) (s t : State) : State :=
  { s with out := t.out.take (s.out.length + k), inPos := min t.inPos (s.inPos + k) }

/-- The command was answered `END` on its way from `s` to `t`: it set `rx_end`, which `DEC_INIT` clears first
(20_memory.md R63, 43_decoder.md R192). -/
def tookEnd (cmd : Word) (s t : State) : Bool :=
  t.rxEnd && (!s.rxEnd || (cmd == encode .decInit && !t.faulted))

/-- How many transfers with the byte streams a command made on its way from `s` to `t`: bytes sent, bytes consumed,
and the answer `END` (70_reset_and_hazards.md R271). -/
def transferCount (cmd : Word) (s t : State) : Nat :=
  (t.out.length - s.out.length) + (t.inPos - s.inPos) + bitNat (tookEnd cmd s t)

/-- The command on its way from `s` to `t` waits for ever after `k` transfers: for the next one, or, when it needs no
more, for its response to be taken (20_memory.md R78, 70_reset_and_hazards.md R272, R273). -/
def waiting (cmd : Word) (k : Nat) (s t : State) : State :=
  if k < transferCount cmd s t then { transferred k s t with inProgress := some cmd }
  else { t with rsps := s.rsps, inProgress := some cmd }

/-- `cmd` is executed and after `k` of its transfers nothing outside answers any more: no response (R78, 93 V7). -/
def stallWord (cmd : Word) (k : Nat) (s : State) : Result :=
  match executeWord cmd s with
  | .next t => .next (waiting cmd k s t)
  | .fault f => .fault f
  | .refused r => .refused r

/-- `rst` asserted while `cmd` is executed, after `k` of its byte transfers: the command is abandoned without a
response and the block is at its reset state (R250, 93 V8). -/
def abandonWord (cmd : Word) (k : Nat) (s : State) : Result :=
  match stallWord cmd k s with
  | .next t => .next (hardReset t)
  | .fault f => .fault f
  | .refused r => .refused r

/-- What one event from outside does while the block is idle (R102, R250, R78). -/
def handleIdle (e : HostEvent) (s : State) : Result :=
  match e with
  | .cmd w => executeWord w s
  | .rst => .next (hardReset s)
  | .rstDuring w k => abandonWord w k s
  | .stall w k => stallWord w k s

/-- What one event from outside does while a command is in progress: the block accepts no further command, neither
times out nor faults, and only `rst` ends the wait (20_memory.md R78, 70_reset_and_hazards.md R250, R272, R273). -/
def handleBusy (e : HostEvent) (s : State) : Result :=
  match e with
  | .cmd _ | .stall _ _ => .next s
  | .rst | .rstDuring _ _ => .next (hardReset s)

/-- What one event from outside does. -/
def handleEvent (e : HostEvent) (s : State) : Result :=
  match s.inProgress with
  | none => handleIdle e s
  | some _ => handleBusy e s

/-- The event an opcode-table word stands for: the host presents that word. -/
def presentWord (nbits w : Nat) : HostEvent := .cmd (wordOfTable nbits w)

end Sys2Proof.Machine
end

