-- ==== Sys2Proof/Machine/Step.lean ====
section
/-! DEFINITION. One step of the machine: the next event from outside, or waiting. -/

namespace Sys2Proof.Machine

/-- One step.  The block fetches nothing and nothing runs by itself (10_state.md R33, 70_reset_and_hazards.md
R250): it executes what the host presents next, and with nothing presented it waits (60_exceptions.md R243). -/
def step (s : State) : Host.Outcome State Fault Refusal :=
  match s.host with
  | [] => .next s
  | e :: rest => handleEvent e { s with host := rest }

/-- The state in which the block is idle and the host presents the word next, before whatever else it was going to
do. -/
def State.withFetchWord (s : State) (nbits w : Nat) : State :=
  { s with inProgress := none, host := presentWord nbits w :: s.host }

end Sys2Proof.Machine
end

