-- ==== Sys2Proof/Safety.lean ====
section
/-! DEFINITION. The terms claims are made in: the invariant of 10_state.md R57, the bit sequences the two
streams stand for, and runs of a list of commands. -/

namespace Sys2Proof.Machine

/-! ## The invariant (10_state.md R57) -/

/-- Every index of the table is legal (20_memory.md R61). -/
def Memory.within (m : Memory) (n : Nat) : Bool := m.all fun e => decide (e.1 ≤ n)

/-- What R57 says of every reachable state, clause by clause, with the representation facts the model adds
(`tableCanonical`, `tableInRange`, `inputInRange`, `paramsLegal`). -/
structure Inv (s : State) : Prop where
  /-- R57 (a), encoder. -/
  encOrdered : s.encLow.toNat ≤ s.encHigh.toNat
  /-- R57 (a), decoder. -/
  decOrdered : s.decLow.toNat ≤ s.decHigh.toNat
  /-- R57 (b): between commands no renormalization case applies to an open encoding session. -/
  encSettled : s.encActive = true → s.faulted = false → s.encInterval.scaling = none
  /-- R57 (c): the same for an open decoding session. -/
  decSettled : s.decActive = true → s.faulted = false → s.decInterval.scaling = none
  /-- R57 (d). -/
  decWithin : s.decActive = true ∨ s.decEos = true →
    s.decLow.toNat ≤ s.decValue.toNat ∧ s.decValue.toNat ≤ s.decHigh.toNat
  /-- R57 (e): the unfilled low-order bits of `tx_buf` are 0. -/
  txClean : s.txBuf.toNat % 2 ^ (8 - s.txFill.toNat) = 0
  /-- R57 (f): at most eight bits are left. -/
  rxCount : s.rxCnt.toNat ≤ 8
  /-- R57 (f): the delivered positions of `rx_buf` are 0. -/
  rxClean : s.rxBuf.toNat % 2 ^ (8 - s.rxCnt.toNat) = 0
  /-- R57 (g). -/
  causeLegal : s.faultCause.toNat ≤ 7
  /-- R57 (g). -/
  cmdClear : s.faulted = false → s.faultCmd = 0#32
  /-- R57 (h): the total is in range while a session is open. -/
  totalLegal : s.encActive = true ∨ s.decActive = true → 1 ≤ s.total ∧ s.total < Config.QUARTER
  /-- 10_state.md R29: the end-of-stream flag is set only when the session is closed. -/
  eosClosed : s.decEos = true → s.decActive = false
  /-- The table is in its canonical form. -/
  tableCanonical : Memory.wf s.freq = true
  /-- The table lists no index above `N`. -/
  tableInRange : Memory.within s.freq s.eosSym = true
  /-- `0 <= in_pos <= in_len` (R32). -/
  inputInRange : s.inPos ≤ s.inp.length
  /-- `1 <= N` (00_scope.md R7). -/
  paramsLegal : s.params.legal = true

/-! ## Bit sequences (20_memory.md R64, R65) -/

/-- The eight bits of a byte, most significant first (R64). -/
def byteBits (b : Byte) : List Bool :=
  [b.getLsbD 7, b.getLsbD 6, b.getLsbD 5, b.getLsbD 4, b.getLsbD 3, b.getLsbD 2, b.getLsbD 1, b.getLsbD 0]

/-- The bits of a sequence of bytes, in stream order (R65). -/
def streamBits (l : List Byte) : List Bool := l.flatMap byteBits

/-- The bits given to `PutBit` so far: those in `out`, then those still in the transmit buffer (10_state.md
R26, R52 b). -/
def State.sentBits (s : State) : List Bool :=
  streamBits s.out ++ (byteBits s.txBuf).take s.txFill.toNat

/-- The bits `GetBit` is still to deliver before it delivers padding for ever: those in the receive buffer,
then those of the unread input, none of which is asked for once `rx_end` is set (10_state.md R30). -/
def State.waitingBits (s : State) : List Bool :=
  (byteBits s.rxBuf).take s.rxCnt.toNat ++ (if s.rxEnd then [] else streamBits (s.inp.drop s.inPos))

/-- The natural a list of bits is, first bit most significant (20_memory.md R66). -/
def bitsNat (l : List Bool) : Nat := l.foldl (fun v b => 2 * v + bitNat b) 0

/-- The first `n` bits of a list, with padding bits 0 past its end (20_memory.md R79). -/
def window (n : Nat) (l : List Bool) : List Bool := l.take n ++ List.replicate (n - l.length) false

/-! ## Renormalization, apart from the state (42_encoder.md R163 to R165, 43_decoder.md R191) -/

/-- The cases a renormalization loop of at most `fuel` iterations goes through from an interval, and the
interval it ends with: "loop until none apply" (R164, R191). -/
def Interval.settle : Nat → Interval → List Scaling × Interval
  | 0, iv => ([], iv)
  | fuel + 1, iv =>
    match iv.scaling with
    | none => ([], iv)
    | some k => (k :: (Interval.settle fuel (iv.rescale k)).1, (Interval.settle fuel (iv.rescale k)).2)

/-- The bits the encoder emits for these cases when `p` bits are pending, and how many are pending afterwards:
E1 gives 0 and its follow bits, E2 gives 1 and its follow bits, E3 leaves one more bit pending (R163, R164). -/
def emission : List Scaling → Nat → List Bool × Nat
  | [], p => ([], p)
  | .e1 :: ks, p => (false :: List.replicate p true ++ (emission ks 0).1, (emission ks 0).2)
  | .e2 :: ks, p => (true :: List.replicate p false ++ (emission ks 0).1, (emission ks 0).2)
  | .e3 :: ks, p => emission ks (p + 1)

/-- No E3 step of these cases meets the counter at `PEND_MAX` (R164). -/
def pendFits : List Scaling → Nat → Bool
  | [], _ => true
  | .e1 :: ks, _ => pendFits ks 0
  | .e2 :: ks, _ => pendFits ks 0
  | .e3 :: ks, p => decide (p < Config.PEND_MAX) && pendFits ks (p + 1)

/-- What the value register goes through for these cases, taking these bits (R191). -/
def shiftValue : List Scaling → List Bool → Nat → Nat
  | k :: ks, b :: bs, v => shiftValue ks bs (2 * (v - k.off) + bitNat b)
  | _, _, v => v

/-- The cases of a whole list of symbols coded from an interval, and the interval it ends with (R160, R164). -/
def State.codingTrace (s : State) : Interval → List Nat → List Scaling × Interval
  | iv, [] => ([], iv)
  | iv, sym :: syms =>
    (((s.narrowFor iv sym).settle Config.P).1 ++ (s.codingTrace ((s.narrowFor iv sym).settle Config.P).2 syms).1,
      (s.codingTrace ((s.narrowFor iv sym).settle Config.P).2 syms).2)

/-! ## Answers and runs -/

/-- The state with one more response and nothing else changed (30_encoding.md R97). -/
def State.answered (s : State) (code data : Nat) : State :=
  { s with rsps := s.rsps ++ [⟨BitVec.ofNat 4 code, BitVec.ofNat 32 data⟩] }

/-- The state after the fault with this cause code, raised by this word, and nothing else changed
(60_exceptions.md R231). -/
def State.latched (s : State) (cause : Nat) (cmd : Word) : State :=
  { s with
    faultCause := BitVec.ofNat 4 cause, faultCmd := cmd
    rsps := s.rsps ++ [⟨BitVec.ofNat 4 cause, 0#32⟩] }

/-- The host issues these commands and nothing more. -/
def State.issueAll (s : State) (is : List Instr) : State := { s with host := is.map fun i => .cmd (encode i) }

/-- `n` steps, ending at the first stop. -/
def steps : Nat → State → Result
  | 0, s => .next s
  | n + 1, s =>
    match step s with
    | .next t => steps n t
    | .fault f => .fault f
    | .refused r => .refused r

/-- The run of these commands from `s`, one step each. -/
def runCommands (is : List Instr) (s : State) : Result := steps is.length (s.issueAll is)

/-- The commands of an encoding session for these symbols (70_reset_and_hazards.md R252). -/
def encodeSession (syms : List Nat) : List Instr := .encInit :: syms.map .encSym ++ [.encFin]

/-- The responses of commands answered `OK` with these data (R97). -/
def okResponses (data : List Nat) : List Response := data.map fun d => ⟨codeOk, BitVec.ofNat 32 d⟩

end Sys2Proof.Machine
end

