-- ==== Sys2Proof/Certificates/Slice0/Obligations.lean ====
section
/-! DEFINITION. The statements for the provers, from the numbered rules of the spec.  An answer `t` of a command
is compared with the state `s` before it: `s.answered c d` is `s` with one response more, `s.latched c w` is `s`
with the fault latched and its response given, `{ s with ... }` names every field that may differ. -/

open Sys2Proof Sys2Proof.Machine

/-! ## Encoding (30_encoding.md) -/

/-- A few words of 95_test_vectors.md V-N1 to V-N3 decode to what the vectors say. -/
def Obligations.SpecWordsDecodeAsListed : Prop :=
  decode 0x00000000#32 = .ok .nop ∧
  decode 0x02000012#32 = .ok (.csrRd 0x12) ∧
  decode 0x1FBFC041#32 = .ok (.tblWr 65 16127#14) ∧
  decode 0x24000004#32 = .ok (.flFind 4) ∧
  decode 0x30000001#32 = .ok (.txPut true) ∧
  decode 0x4100012C#32 = .ok (.encSym 300) ∧
  decode 0x51000000#32 = .ok .decSym ∧
  decode 0x03000000#32 = .error .reservedOpcode ∧
  decode 0x41004000#32 = .error .nonzeroReservedBits

/-- R95 and R96: a word is the command of the row whose `(cmd AND mask) = match`, with the operands taken from the
word as they are: format Z, format S, format B, format T. -/
def Obligations.WordsFollowTheOpcodeMap : Prop :=
  ∀ cmd : Word,
    (∀ pat i,
      (pat, i) ∈
        [(0x00000000#32, Instr.nop), (0x01000000#32, .srst), (0x23000000#32, .flTotal), (0x31000000#32, .txClose),
         (0x38000000#32, .rxGet), (0x40000000#32, .encInit), (0x42000000#32, .encFin), (0x50000000#32, .decInit),
         (0x51000000#32, .decSym), (0x52000000#32, .decEnd)] →
      (decode cmd = .ok i ↔ cmd &&& 0xFFFFFFFF#32 = pat)) ∧
    (∀ pat (f : Nat → Instr),
      (pat, f) ∈
        [(0x02000000#32, Instr.csrRd), (0x20000000#32, .flFreq), (0x21000000#32, .flCumlo), (0x22000000#32, .flCumhi),
         (0x24000000#32, .flFind), (0x41000000#32, .encSym)] →
      ∀ arg, (decode cmd = .ok (f arg) ↔ cmd &&& 0xFFFFC000#32 = pat ∧ arg = cmd.toNat % 2 ^ 14)) ∧
    (∀ b, decode cmd = .ok (.txPut b) ↔ cmd &&& 0xFFFFFFFE#32 = 0x30000000#32 ∧ b = cmd.getLsbD 0) ∧
    (∀ idx w, decode cmd = .ok (.tblWr idx w) ↔
      cmd &&& 0xF0000000#32 = 0x10000000#32 ∧ idx = cmd.toNat % 2 ^ 14 ∧ w.toNat = cmd.toNat / 2 ^ 14 % 2 ^ 14)

/-- Decoding the encoding of a well-formed command gives it back: all eighteen commands, every operand value
(R90 to R96). -/
def Obligations.DecodeInvertsEncode : Prop :=
  ∀ i : Instr, i.wellFormed = true → decode (encode i) = .ok i

/-- A word that decodes is the encoding of what it decodes to, and that is well formed (R90 to R96, R100). -/
def Obligations.DecodedWordIsItsEncoding : Prop :=
  ∀ (w : Word) (i : Instr), decode w = .ok i → i.wellFormed = true ∧ encode i = w

/-- R99: the words with an opcode byte outside the map, or a nonzero must-be-zero bit, raise `ILLEGAL_CMD`; every
other word is a command. -/
def Obligations.IllegalWordsRaiseIllegalCmd : Prop :=
  ∀ w : Word,
    let op := w.toNat / 2 ^ 24
    let illegal :=
      (0x03 ≤ op ∧ op ≤ 0x0F) ∨ (0x25 ≤ op ∧ op ≤ 0x2F) ∨ (0x32 ≤ op ∧ op ≤ 0x37) ∨ (0x39 ≤ op ∧ op ≤ 0x3F) ∨
      (0x43 ≤ op ∧ op ≤ 0x4F) ∨ (0x53 ≤ op ∧ op ≤ 0xFF) ∨
      (op ∈ [0x00, 0x01, 0x23, 0x31, 0x38, 0x40, 0x42, 0x50, 0x51, 0x52] ∧ w.toNat % 2 ^ 24 ≠ 0) ∨
      (op ∈ [0x02, 0x20, 0x21, 0x22, 0x24, 0x41] ∧ w.toNat / 2 ^ 14 % 2 ^ 10 ≠ 0) ∨
      (op = 0x30 ∧ w.toNat / 2 % 2 ^ 23 ≠ 0)
    (illegal → ∀ (s : State) (rest : List HostEvent),
      s.inProgress = none → s.faulted = false → s.host = .cmd w :: rest →
      step s = .next (State.latched { s with host := rest } 5 w)) ∧
    (¬ illegal → ∃ i, decode w = .ok i)

/-! ## Steps and responses (30_encoding.md R97, R102; 10_state.md R33) -/

/-- A step of an idle block whose presented word decodes is the meaning of that command; the step itself only takes
the word off the host's queue (R102; the queue is the model's, log entry 3). -/
def Obligations.StepExecutesThePresentedCommand : Prop :=
  ∀ (s : State) (w : Word) (rest : List HostEvent) (i : Instr),
    s.inProgress = none → s.host = .cmd w :: rest → decode w = .ok i → step s = exec i { s with host := rest }

/-- The model's choice, log entry 3: with nothing presented the block waits (R243, R250). -/
def Obligations.IdleBlockWaits : Prop := ∀ s : State, s.host = [] → step s = .next s

/-- R229: while a fault is recorded every word but `SRST` and `CSR_RD` of a defined address is answered
`FAULTED` and changes nothing. -/
def Obligations.FaultedBlockRefuses : Prop :=
  ∀ (s : State) (w : Word) (rest : List HostEvent),
    s.inProgress = none → s.faulted = true → s.host = .cmd w :: rest →
    w ≠ 0x01000000#32 →
    (∀ a ∈ [0, 1, 2, 3, 4, 8, 9, 0xA, 0xB, 0x10, 0x11, 0x12, 0x13], w.toNat ≠ 0x02000000 + a) →
    step s = .next (State.answered { s with host := rest } 0xF 0)

/-- R97: every command word an idle block accepts is answered by exactly one response, after those of the earlier
commands; its code is 0, a cause code, or `FAULTED`; data is 0 unless the code is `OK`; a cause code is the fault now recorded, and
`FAULTED` means that nothing else changed. -/
def Obligations.OneResponsePerCommand : Prop :=
  ∀ (s t : State) (w : Word) (rest : List HostEvent), s.inProgress = none → s.host = .cmd w :: rest →
    step s = .next t →
    ∃ r : Response, t.rsps = s.rsps ++ [r] ∧ (r.code.toNat ≤ 7 ∨ r.code = 0xF#4) ∧
      (r.code ≠ 0#4 → r.data = 0#32) ∧
      (r.code ≠ 0#4 → r.code ≠ 0xF#4 → s.faulted = false ∧ t.faultCause = r.code ∧ t.faultCmd = w) ∧
      (r.code = 0xF#4 → s.faulted = true ∧ t = State.answered { s with host := rest } 0xF 0)

/-! ## Resets (10_state.md R55, 44_system_ops.md R211, 70_reset_and_hazards.md R250) -/

/-- R55 and R211: every element after hardware reset, which also abandons a command in progress, and after `SRST`;
neither changes a stream, and `SRST` keeps the table and answers `(OK, 0)`, also while a fault is recorded. -/
def Obligations.ResetsSetEveryElement : Prop :=
  (∀ (s : State) (rest : List HostEvent), s.host = .rst :: rest →
    step s = .next
      { params := s.params, freq := [], encLow := 0#16, encHigh := 0xFFFF#16, encPend := 0#32, encActive := false,
        txBuf := 0#8, txFill := 0#3, decLow := 0#16, decHigh := 0xFFFF#16, decValue := 0#16, decActive := false,
        decEos := false, rxBuf := 0#8, rxCnt := 0#4, rxEnd := false, faultCause := 0#4, faultCmd := 0#32,
        out := s.out, inp := s.inp, inPos := s.inPos, rsps := s.rsps, inProgress := none, host := rest }) ∧
  (∀ s : State,
    exec .srst s = .next
      { params := s.params, freq := s.freq, encLow := 0#16, encHigh := 0xFFFF#16, encPend := 0#32, encActive := false,
        txBuf := 0#8, txFill := 0#3, decLow := 0#16, decHigh := 0xFFFF#16, decValue := 0#16, decActive := false,
        decEos := false, rxBuf := 0#8, rxCnt := 0#4, rxEnd := false, faultCause := 0#4, faultCmd := 0#32,
        out := s.out, inp := s.inp, inPos := s.inPos, rsps := s.rsps ++ [⟨0#4, 0#32⟩], inProgress := s.inProgress,
        host := s.host }) ∧
  (∀ i, State.reset.weight i = 0#14)

/-- R250 and 93 V8, at the model's grain (log entry 4): `rst` inside a command leaves the block at its reset
state with no response; the first `k` of the bytes the whole command would send or take, all of them if it makes no
more, stay sent or taken, and no other byte is. -/
def Obligations.ResetInsideACommandKeepsTransferredBytes : Prop :=
  ∀ (s t : State) (w : Word) (k : Nat) (rest : List HostEvent),
    s.host = .rstDuring w k :: rest → step { s with host := .cmd w :: rest } = .next t →
    ∃ u, step s = .next u ∧
      u = { State.reset with
            params := s.params, out := u.out, inp := s.inp, inPos := u.inPos, rsps := s.rsps, host := rest } ∧
      s.out <+: u.out ∧ u.out <+: t.out ∧ u.out.length = min (s.out.length + k) t.out.length ∧
      u.inPos = min t.inPos (s.inPos + k)

/-! ## Commands that never complete (20_memory.md R78, 70_reset_and_hazards.md R273) -/

/-- R78 and 93 V7: a command whose collaborator stops answering after `k` transfers, when it needs more, gives no
response and waits with the first `k` transfers made; where it needs no more, all its effects are made and only its
response is never taken (R273).  The transfers are the bytes sent, the bytes taken, and the answer `END`, which a
command asks for when it sets `rx_end`.  While it waits for a transfer the block's own elements show what they held
before the command: the model's choice, log entry 6. -/
def Obligations.UnansweredTransferLeavesTheCommandWaiting : Prop :=
  ∀ (s t : State) (w : Word) (k : Nat) (rest : List HostEvent),
    s.inProgress = none → s.host = .stall w k :: rest → step { s with host := .cmd w :: rest } = .next t →
    let askedEnd := t.rxEnd = true ∧ (s.rxEnd = false ∨ (w = encode .decInit ∧ t.faulted = false))
    let bytes := (t.out.length - s.out.length) + (t.inPos - s.inPos)
    ∃ u, step s = .next u ∧ u.inProgress = some w ∧ u.rsps = s.rsps ∧
      s.out <+: u.out ∧ u.out <+: t.out ∧ u.out.length = min (s.out.length + k) t.out.length ∧
      u.inPos = min t.inPos (s.inPos + k) ∧
      (k < bytes ∨ (k = bytes ∧ askedEnd) →
        u = { s with out := u.out, inPos := u.inPos, inProgress := some w, host := rest }) ∧
      (bytes < k ∨ (k = bytes ∧ ¬ askedEnd) → u = { t with rsps := s.rsps, inProgress := some w })

/-- R78 and R273: a command in progress waits for ever.  As long as `rst` is not asserted the block accepts no further
command, gives no response, neither times out nor faults, and changes nothing; `rst` abandons the command.  That an
event presented meanwhile is taken off the host's queue is the model's choice, log entry 20. -/
def Obligations.OnlyResetEndsTheWait : Prop :=
  (∀ (s : State) (n : Nat), s.inProgress ≠ none → (∀ e ∈ s.host, (∃ w, e = .cmd w) ∨ ∃ w k, e = .stall w k) →
    steps n s = .next { s with host := s.host.drop n }) ∧
  (∀ (s : State) (e : HostEvent) (rest : List HostEvent), s.inProgress ≠ none → s.host = e :: rest →
    (e = .rst ∨ ∃ w k, e = .rstDuring w k) →
    step s = .next { State.reset with
      params := s.params, out := s.out, inp := s.inp, inPos := s.inPos, rsps := s.rsps, host := rest })

/-- R273: where every transfer is answered and the response is taken, every command completes: a step of an idle block
that meets the invariant, on any word, gives a next state with one response more and the block idle again. -/
def Obligations.AnsweredCommandsComplete : Prop :=
  ∀ (s : State) (w : Word) (rest : List HostEvent), Inv s → s.inProgress = none → s.host = .cmd w :: rest →
    ∃ t r, step s = .next t ∧ t.rsps = s.rsps ++ [r] ∧ t.inProgress = none ∧ t.host = rest

/-! ## System commands (44_system_ops.md) -/

/-- R210: `NOP` answers `(OK, 0)` and changes nothing; while a fault is recorded it answers `(FAULTED, 0)`. -/
def Obligations.NopChangesNothing : Prop :=
  ∀ s : State, (s.faulted = false → exec .nop s = .next (s.answered 0 0)) ∧
    (s.faulted = true → exec .nop s = .next (s.answered 0xF 0))

/-- R37 to R41: `CSR_RD` of the constant, status and fault registers, also while a fault is recorded. -/
def Obligations.CsrReadsIdStatusAndFault : Prop :=
  ∀ (s : State) (addr v : Nat),
    (addr, v) ∈
      [(0x0000, 0x41430001),
       (0x0001, s.params.n.toNat + 16 * 2 ^ 16 + 32 * 2 ^ 24),
       (0x0002, s.encActive.toNat + 2 * s.decActive.toNat + 4 * s.decEos.toNat + 8 * s.rxEnd.toNat
          + (if s.faultCause = 0#4 then 0 else 16)),
       (0x0003, s.faultCause.toNat),
       (0x0004, s.faultCmd.toNat)] →
    exec (.csrRd addr) s = .next (s.answered 0 v)

/-- R42 to R49: `CSR_RD` of the encoder, decoder and bit buffer registers, also while a fault is recorded. -/
def Obligations.CsrReadsCoderState : Prop :=
  ∀ (s : State) (addr v : Nat),
    (addr, v) ∈
      [(0x0008, s.encLow.toNat), (0x0009, s.encHigh.toNat), (0x000A, s.encPend.toNat),
       (0x000B, s.txBuf.toNat + s.txFill.toNat * 2 ^ 8),
       (0x0010, s.decLow.toNat), (0x0011, s.decHigh.toNat), (0x0012, s.decValue.toNat),
       (0x0013, s.rxBuf.toNat + s.rxCnt.toNat * 2 ^ 8)] →
    exec (.csrRd addr) s = .next (s.answered 0 v)

/-- R50: every other address raises `BAD_INDEX`, or is answered `FAULTED` while a fault is recorded. -/
def Obligations.CsrReadOfUndefinedAddress : Prop :=
  ∀ (s : State) (addr : Nat),
    (0x0005 ≤ addr ∧ addr ≤ 0x0007) ∨ (0x000C ≤ addr ∧ addr ≤ 0x000F) ∨ (0x0014 ≤ addr ∧ addr ≤ 0x3FFF) →
    (s.faulted = false → exec (.csrRd addr) s = .next (s.latched 7 (encode (.csrRd addr)))) ∧
    (s.faulted = true → exec (.csrRd addr) s = .next (s.answered 0xF 0))

/-! ## frequency_lookup (40_frequency_lookup.md) -/

/-- R120: `Cum(i)` is the sum of the weights below `i`; it is non-decreasing by exactly the weights; `Total()` is
`Cum(N + 1)` and below `2^28`. -/
def Obligations.CumulativeCountsArePrefixSums : Prop :=
  ∀ s : State, Memory.wf s.freq = true →
    (∀ i, s.cum i = ((List.range i).map fun j => (s.weight j).toNat).sum) ∧
    (∀ i, s.cum i ≤ s.cum (i + 1) ∧ s.cum (i + 1) - s.cum i = (s.weight i).toNat) ∧
    s.total = s.cum (s.params.n.toNat + 1) ∧ s.total < 2 ^ 28

/-- R124: below `Total()` there is exactly one symbol whose cumulative interval contains `x`; `Find` gives it,
its weight is positive, and it is the largest symbol with `Cum(s) <= x`.  From `Total()` on there is none and
`Find` is not defined. -/
def Obligations.FindIsTheUniqueSymbol : Prop :=
  ∀ s : State, Memory.wf s.freq = true → Memory.within s.freq s.eosSym = true →
    (∀ x, x < s.total →
      ∃ sym, s.findSymbol x = some sym ∧ sym ≤ s.eosSym ∧ s.cum sym ≤ x ∧ x < s.cum (sym + 1) ∧
        1 ≤ (s.weight sym).toNat ∧
        (∀ a, s.cum a ≤ x → x < s.cum (a + 1) → a = sym) ∧ (∀ a, a ≤ s.eosSym → s.cum a ≤ x → a ≤ sym)) ∧
    (∀ x, s.total ≤ x → s.findSymbol x = none ∧ ∀ a, a ≤ s.eosSym → s.cum (a + 1) ≤ x)

/-- R127: `TBL_WR idx, w` with no session open and `idx <= N` stores the weight, leaves every other weight and
every other element alone and answers `(OK, 0)`; an open session raises `BAD_STATE` first, an index above `N`
`BAD_INDEX`. -/
def Obligations.TableWriteStoresOneWeight : Prop :=
  ∀ (s : State) (idx : Nat) (w : Weight), s.faulted = false → Memory.wf s.freq = true →
    (s.encActive = false → s.decActive = false → idx ≤ s.eosSym →
      ∃ t, exec (.tblWr idx w) s = .next t ∧
        t = { s with freq := t.freq, rsps := s.rsps ++ [⟨0#4, 0#32⟩] } ∧
        t.weight idx = w ∧ (∀ j, j ≠ idx → t.weight j = s.weight j) ∧ Memory.wf t.freq = true ∧
        (w = s.weight idx → t.freq = s.freq)) ∧
    (s.encActive = true ∨ s.decActive = true →
      exec (.tblWr idx w) s = .next (s.latched 6 (encode (.tblWr idx w)))) ∧
    (s.encActive = false → s.decActive = false → s.eosSym < idx →
      exec (.tblWr idx w) s = .next (s.latched 7 (encode (.tblWr idx w))))

/-- R128 to R131: the table queries answer the weight, the sum of the weights below the symbol, that sum with the
symbol's own, and the sum of all `N + 1` weights, change nothing, and raise `BAD_INDEX` for a symbol above `N`. -/
def Obligations.TableQueriesAnswer : Prop :=
  ∀ s : State, s.faulted = false → Memory.wf s.freq = true →
    let sumBelow := fun i => ((List.range i).map fun j => (s.weight j).toNat).sum
    (∀ sym, sym ≤ s.eosSym →
      exec (.flFreq sym) s = .next (s.answered 0 (s.weight sym).toNat) ∧
      exec (.flCumlo sym) s = .next (s.answered 0 (sumBelow sym)) ∧
      exec (.flCumhi sym) s = .next (s.answered 0 (sumBelow (sym + 1))) ∧ sumBelow (sym + 1) < 2 ^ 28) ∧
    (∀ sym, s.eosSym < sym →
      exec (.flFreq sym) s = .next (s.latched 7 (encode (.flFreq sym))) ∧
      exec (.flCumlo sym) s = .next (s.latched 7 (encode (.flCumlo sym))) ∧
      exec (.flCumhi sym) s = .next (s.latched 7 (encode (.flCumhi sym)))) ∧
    exec .flTotal s = .next (s.answered 0 (sumBelow (s.eosSym + 1)))

/-- R132: `FL_FIND x` answers the symbol whose cumulative interval contains `x` and changes nothing; from
`Total()` on it raises `BAD_INDEX`. -/
def Obligations.FindCommandAnswers : Prop :=
  ∀ (s : State) (x : Nat), s.faulted = false → Memory.wf s.freq = true → Memory.within s.freq s.eosSym = true →
    (x < s.total → ∃ sym, exec (.flFind x) s = .next (s.answered 0 sym) ∧ sym ≤ s.eosSym ∧ s.cum sym ≤ x ∧
      x < s.cum (sym + 1) ∧ s.weight sym ≠ 0#14) ∧
    (s.total ≤ x → exec (.flFind x) s = .next (s.latched 7 (encode (.flFind x))))

/-! ## Bit buffers (41_bit_buffers.md) -/

/-- R140 and R143: `TX_PUT b` with no encoding session open appends `b` to the sent bits, in the next free
position; the eighth bit since a byte boundary sends the byte and empties the buffer.  With a session open it raises
`BAD_STATE`. -/
def Obligations.TxPutAppendsTheBit : Prop :=
  ∀ (s : State) (b : Bool), s.faulted = false →
    (s.encActive = false → s.txBuf.toNat % 2 ^ (8 - s.txFill.toNat) = 0 →
      ∃ t, exec (.txPut b) s = .next t ∧
        t = { s with txBuf := t.txBuf, txFill := t.txFill, out := t.out, rsps := s.rsps ++ [⟨0#4, 0#32⟩] } ∧
        t.sentBits = s.sentBits ++ [b] ∧ t.txBuf.toNat % 2 ^ (8 - t.txFill.toNat) = 0 ∧
        (s.txFill.toNat < 7 → t.txFill.toNat = s.txFill.toNat + 1 ∧ t.out = s.out) ∧
        (s.txFill.toNat = 7 → t.txFill = 0#3 ∧ t.txBuf = 0#8 ∧ ∃ v, t.out = s.out ++ [v])) ∧
    (s.encActive = true → exec (.txPut b) s = .next (s.latched 6 (encode (.txPut b))))

/-- R141 and R144: `TX_CLOSE` with no encoding session open pads the partial byte with zero bits and sends it; with
an empty buffer it sends nothing.  With a session open it raises `BAD_STATE`. -/
def Obligations.TxCloseAlignsTheStream : Prop :=
  ∀ s : State, s.faulted = false →
    (s.encActive = false → s.txBuf.toNat % 2 ^ (8 - s.txFill.toNat) = 0 →
      ∃ t, exec .txClose s = .next t ∧
        t = { s with txBuf := 0#8, txFill := 0#3, out := t.out, rsps := s.rsps ++ [⟨0#4, 0#32⟩] } ∧
        streamBits t.out = s.sentBits ++ List.replicate ((8 - s.txFill.toNat) % 8) false ∧
        (s.txFill = 0#3 → t.out = s.out)) ∧
    (s.encActive = true → exec .txClose s = .next (s.latched 6 (encode .txClose)))

/-- R142 and R145: `RX_GET` with no decoding session open answers the next waiting bit, 0 when none waits, and takes
it, leaving the other bits in place; a byte is fetched only when the buffer is empty, and `rx_end` is set exactly
when a bit is wanted and the input is at its end.  With a session open it raises `BAD_STATE`. -/
def Obligations.RxGetDeliversTheNextBit : Prop :=
  ∀ s : State, s.faulted = false →
    (s.decActive = false → s.rxCnt.toNat ≤ 8 → s.rxBuf.toNat % 2 ^ (8 - s.rxCnt.toNat) = 0 →
      ∃ t, exec .rxGet s = .next t ∧
        t = { s with rxBuf := t.rxBuf, rxCnt := t.rxCnt, rxEnd := t.rxEnd, inPos := t.inPos,
                     rsps := s.rsps ++ [⟨0#4, BitVec.ofNat 32 (s.waitingBits.headD false).toNat⟩] } ∧
        t.waitingBits = s.waitingBits.tail ∧ t.rxCnt.toNat ≤ 8 ∧ t.rxBuf.toNat % 2 ^ (8 - t.rxCnt.toNat) = 0 ∧
        t.inPos = (if s.rxCnt = 0#4 ∧ s.rxEnd = false ∧ s.inPos < s.inp.length then s.inPos + 1 else s.inPos) ∧
        (t.rxEnd = true ↔ s.rxEnd = true ∨ (s.rxCnt = 0#4 ∧ s.inp.length ≤ s.inPos))) ∧
    (s.decActive = true → exec .rxGet s = .next (s.latched 6 (encode .rxGet)))

/-! ## Interval arithmetic (42_encoder.md R160 to R165, 43_decoder.md R190) -/

/-- R160: `Narrow` and its facts (a) to (d).  The new bounds are the old `low` plus the two truncated proportions, the
upper less one; the upper offset is at most the range; a symbol of positive weight keeps a nonempty interval when the
range is at least the total; the sub-intervals of neighbours meet without gap or overlap, from the old `low` to the
old `high`; the new width is the floor or one more. -/
def Obligations.NarrowTilesTheInterval : Prop :=
  ∀ (s : State) (iv : Interval) (sym : Nat), Memory.wf s.freq = true → iv.low ≤ iv.high → sym ≤ s.eosSym →
    1 ≤ s.total →
    let r := iv.high - iv.low + 1
    let loOff := r * s.cum sym / s.total
    let hiOff := r * s.cum (sym + 1) / s.total
    (s.narrowFor iv sym).low = iv.low + loOff ∧ (s.narrowFor iv sym).high = iv.low + hiOff - 1 ∧
    hiOff ≤ r ∧ loOff ≤ hiOff ∧
    (s.weight sym ≠ 0#14 → s.total ≤ r →
      loOff + 1 ≤ hiOff ∧ (s.narrowFor iv sym).low ≤ (s.narrowFor iv sym).high ∧
        (s.narrowFor iv sym).high ≤ iv.high) ∧
    (s.narrowFor iv 0).low = iv.low ∧ (s.narrowFor iv s.eosSym).high = iv.high ∧
    (1 ≤ hiOff → (s.narrowFor iv sym).high + 1 = (s.narrowFor iv (sym + 1)).low) ∧
    (hiOff - loOff = r * (s.weight sym).toNat / s.total ∨ hiOff - loOff = r * (s.weight sym).toNat / s.total + 1)

/-- R161: E1 exactly for the lower half, E2 exactly for the upper half, E3 exactly for a straddling interval inside
the middle half, no case exactly when the interval straddles `HALF` and reaches out of the middle half; the offsets
of the three cases. -/
def Obligations.ScalingCasesAreExclusive : Prop :=
  (∀ iv : Interval, iv.low ≤ iv.high →
    (iv.scaling = some .e1 ↔ iv.high < 0x8000) ∧
    (iv.scaling = some .e2 ↔ 0x8000 ≤ iv.low) ∧
    (iv.scaling = some .e3 ↔ iv.low < 0x8000 ∧ 0x8000 ≤ iv.high ∧ 0x4000 ≤ iv.low ∧ iv.high < 0xC000) ∧
    (iv.scaling = none ↔ iv.low < 0x8000 ∧ 0x8000 ≤ iv.high ∧ (iv.low < 0x4000 ∨ 0xC000 ≤ iv.high))) ∧
  Scaling.off .e1 = 0 ∧ Scaling.off .e2 = 0x8000 ∧ Scaling.off .e3 = 0x4000

/-- R162: in each case the offset can be subtracted, no bit is lost, order is kept and the range is exactly
doubled. -/
def Obligations.RescaleDoublesTheRange : Prop :=
  ∀ (iv : Interval) (k : Scaling), iv.low ≤ iv.high → iv.high ≤ 0xFFFF → iv.scaling = some k →
    k.off ≤ iv.low ∧ iv.high - k.off < 0x8000 ∧
    (iv.rescale k).low = 2 * (iv.low - k.off) ∧ (iv.rescale k).high = 2 * (iv.high - k.off) + 1 ∧
    (iv.rescale k).high ≤ 0xFFFF ∧ (iv.rescale k).low ≤ (iv.rescale k).high ∧
    (iv.rescale k).high - (iv.rescale k).low + 1 = 2 * (iv.high - iv.low + 1)

/-- R163: the definite bit goes out first, then each pending bit as its complement; the counter ends at 0. -/
def Obligations.FollowBitsComplementTheDefiniteBit : Prop :=
  ∀ (s : State) (b : Bool), s.txBuf.toNat % 2 ^ (8 - s.txFill.toNat) = 0 →
    (s.emitWithFollow b).sentBits = s.sentBits ++ b :: List.replicate s.encPend.toNat (!b) ∧
    s.emitWithFollow b =
      { s with txBuf := (s.emitWithFollow b).txBuf, txFill := (s.emitWithFollow b).txFill,
               out := (s.emitWithFollow b).out, encPend := 0#32 }

/-- R165: sixteen iterations are always enough for both loops, no case applies after them, and sixteen are
needed from `(0x7FFE, 0x7FFE)`. -/
def Obligations.RenormalizationEndsWithinPIterations : Prop :=
  (∀ (s : State) (n : Nat), s.encLow.toNat ≤ s.encHigh.toNat → encRenorm (16 + n) s = encRenorm 16 s) ∧
  (∀ s t : State, s.encLow.toNat ≤ s.encHigh.toNat → encRenorm 16 s = .settled t → t.encInterval.scaling = none) ∧
  (∀ (s : State) (n : Nat), s.decLow.toNat ≤ s.decHigh.toNat → decRenorm (16 + n) s = decRenorm 16 s) ∧
  (∀ s : State, s.decLow.toNat ≤ s.decHigh.toNat → (decRenorm 16 s).decInterval.scaling = none) ∧
  (Interval.settle 16 ⟨0x7FFE, 0x7FFE⟩) = (.e1 :: List.replicate 14 .e2 ++ [.e1], ⟨0x0000, 0xFFFF⟩)

/-- R190: within the interval the scaled value is below the total. -/
def Obligations.ScaledValueIsBelowTheTotal : Prop :=
  ∀ (iv : Interval) (v t : Nat), iv.low ≤ v → v ≤ iv.high → 1 ≤ t →
    iv.scaled v t = ((v - iv.low + 1) * t - 1) / (iv.high - iv.low + 1) ∧ iv.scaled v t < t

/-! ## The encoder (42_encoder.md R166 to R168) -/

/-- R166 and the `ModelCheck` of R126: `ENC_INIT` opens a session on a legal total with the full interval, no pending
bit and an empty transmit buffer, sends nothing, and changes nothing else; with a session open it raises `BAD_STATE`,
else on an all-zero table `EMPTY_MODEL`, on a total of `QUARTER` or more `PRECISION_OVERFLOW`. -/
def Obligations.EncInitOpensASession : Prop :=
  ∀ s : State, s.faulted = false →
    (s.encActive = false → 1 ≤ s.total → s.total < 16384 →
      exec .encInit s = .next
        { s with encLow := 0#16, encHigh := 0xFFFF#16, encPend := 0#32, encActive := true, txBuf := 0#8, txFill := 0#3,
                 rsps := s.rsps ++ [⟨0#4, 0#32⟩] }) ∧
    (s.encActive = true → exec .encInit s = .next (s.latched 6 (encode .encInit))) ∧
    (s.encActive = false → s.total = 0 → exec .encInit s = .next (s.latched 2 (encode .encInit))) ∧
    (s.encActive = false → 16384 ≤ s.total → exec .encInit s = .next (s.latched 1 (encode .encInit)))

/-- R164 and R167: in an open session `ENC_SYM` of a symbol with positive weight, whose E3 steps do not meet the
full counter, narrows the interval to the symbol, goes through the renormalization cases in order, sends the bits
they emit, leaves an interval no case applies to, answers `(OK, 0)` and changes nothing else. -/
def Obligations.EncSymEncodesTheSymbol : Prop :=
  ∀ (s : State) (sym : Nat), Inv s → s.faulted = false → s.encActive = true → sym ≤ s.eosSym → s.weight sym ≠ 0#14 →
    let trace := (s.narrowFor s.encInterval sym).settle 16
    pendFits trace.1 s.encPend.toNat = true →
    ∃ t, exec (.encSym sym) s = .next t ∧
      t = { s with encLow := t.encLow, encHigh := t.encHigh, encPend := t.encPend, txBuf := t.txBuf,
                   txFill := t.txFill, out := t.out, rsps := s.rsps ++ [⟨0#4, 0#32⟩] } ∧
      t.encInterval = trace.2 ∧ trace.2.scaling = none ∧ trace.1.length ≤ 16 ∧
      t.sentBits = s.sentBits ++ (emission trace.1 s.encPend.toNat).1 ∧
      t.encPend.toNat = (emission trace.1 s.encPend.toNat).2 ∧ s.out <+: t.out

/-- R224 and R167: with a session open, a symbol above `N` or of weight 0 raises `UNKNOWN_SYMBOL` and nothing else
changes; with none open every `ENC_SYM` raises `BAD_STATE` (R230). -/
def Obligations.EncSymRefusesUnknownSymbols : Prop :=
  ∀ (s : State) (sym : Nat), s.faulted = false →
    (s.encActive = true → s.eosSym < sym ∨ s.weight sym = 0#14 →
      exec (.encSym sym) s = .next (s.latched 3 (encode (.encSym sym)))) ∧
    (s.encActive = false → exec (.encSym sym) s = .next (s.latched 6 (encode (.encSym sym))))

/-- R225 and R232: when an E3 step of `ENC_SYM` meets the full counter, `PENDING_OVERFLOW` is raised with the
narrowing and the iterations before that step in effect and nothing of that step.  That the interval is exactly so is
the model's choice, log entry 10, between the two post-states R232 allows a model. -/
def Obligations.PendingOverflowKeepsCompletedIterations : Prop :=
  ∀ (s : State) (sym : Nat) (before after : List Scaling),
    Inv s → s.faulted = false → s.encActive = true → sym ≤ s.eosSym → s.weight sym ≠ 0#14 →
    ((s.narrowFor s.encInterval sym).settle 16).1 = before ++ .e3 :: after →
    pendFits before s.encPend.toNat = true → (emission before s.encPend.toNat).2 = 0xFFFFFFFF →
    ∃ t, exec (.encSym sym) s = .next t ∧
      t = { s with encLow := t.encLow, encHigh := t.encHigh, encPend := 0xFFFFFFFF#32, txBuf := t.txBuf,
                   txFill := t.txFill, out := t.out, faultCause := 4#4, faultCmd := encode (.encSym sym),
                   rsps := s.rsps ++ [⟨4#4, 0#32⟩] } ∧
      t.encInterval = before.foldl Interval.rescale (s.narrowFor s.encInterval sym) ∧
      t.sentBits = s.sentBits ++ (emission before s.encPend.toNat).1 ∧ s.out <+: t.out

/-- R168: `ENC_FIN` sends the final bit, 0 exactly when `enc_low < QUARTER`, then the pending bits and one more as
its complement, pads with zero bits to a byte boundary, closes the session, keeps the interval and answers
`(OK, 0)`; with the counter full it raises `PENDING_OVERFLOW` and changes nothing, with no session `BAD_STATE`. -/
def Obligations.EncFinClosesTheSession : Prop :=
  ∀ s : State, s.faulted = false →
    (s.encActive = true → s.encPend ≠ 0xFFFFFFFF#32 → s.txBuf.toNat % 2 ^ (8 - s.txFill.toNat) = 0 →
      let b : Bool := if s.encLow.toNat < 0x4000 then false else true
      let bits := s.sentBits ++ b :: List.replicate (s.encPend.toNat + 1) (!b)
      ∃ t, exec .encFin s = .next t ∧
        t = { s with encPend := 0#32, encActive := false, txBuf := 0#8, txFill := 0#3, out := t.out,
                     rsps := s.rsps ++ [⟨0#4, 0#32⟩] } ∧
        streamBits t.out = bits ++ List.replicate ((8 - bits.length % 8) % 8) false ∧
        s.out <+: t.out ∧ s.out.length < t.out.length) ∧
    (s.encActive = true → s.encPend = 0xFFFFFFFF#32 → exec .encFin s = .next (s.latched 4 (encode .encFin))) ∧
    (s.encActive = false → exec .encFin s = .next (s.latched 6 (encode .encFin)))

/-! ## The decoder (43_decoder.md R192 to R194) -/

/-- R192 and the `ModelCheck` of R126: `DEC_INIT` on a legal total opens a session at the next unread byte of the
input: the value register holds the first sixteen bits, first bit most significant, padding bits 0; those bits are
taken, the receive buffer is empty; the flags and the interval are as the rule says, `rx_end` set exactly when fewer
than two bytes were left; nothing else changes.  With a session open it raises `BAD_STATE`, else on an all-zero table
`EMPTY_MODEL`, on a total of `QUARTER` or more `PRECISION_OVERFLOW`. -/
def Obligations.DecInitFillsTheValueRegister : Prop :=
  ∀ s : State, s.faulted = false →
    (s.decActive = false → 1 ≤ s.total → s.total < 16384 →
      ∃ t, exec .decInit s = .next t ∧
        t = { s with decLow := 0#16, decHigh := 0xFFFF#16, decValue := t.decValue, decActive := true, decEos := false,
                     rxBuf := 0#8, rxCnt := 0#4, rxEnd := t.rxEnd, inPos := t.inPos,
                     rsps := s.rsps ++ [⟨0#4, 0#32⟩] } ∧
        t.decValue.toNat = bitsNat (window 16 (streamBits (s.inp.drop s.inPos))) ∧
        t.waitingBits = (streamBits (s.inp.drop s.inPos)).drop 16 ∧
        t.inPos = s.inPos + min 2 (s.inp.length - s.inPos) ∧
        (t.rxEnd = true ↔ s.inp.length - s.inPos < 2)) ∧
    (s.decActive = true → exec .decInit s = .next (s.latched 6 (encode .decInit))) ∧
    (s.decActive = false → s.total = 0 → exec .decInit s = .next (s.latched 2 (encode .decInit))) ∧
    (s.decActive = false → 16384 ≤ s.total → exec .decInit s = .next (s.latched 1 (encode .decInit)))

/-- R193 and R196: in an open session `DEC_SYM` always answers `OK`, whatever the input.  The symbol is the one whose
cumulative interval contains the scaled value.  The end-of-stream symbol narrows the interval, takes no bit and
closes the session; any other narrows and renormalizes through the encoder's cases, one bit for each, and the value
register goes through the same map.  A byte is taken only when a bit is wanted and the buffer is empty (R142), so the
number of bytes taken is that of the bits not yet in the buffer, in whole bytes, as far as the input goes; `rx_end` is
set exactly when a bit was wanted past the end. -/
def Obligations.DecSymDecodesTheSymbol : Prop :=
  ∀ s : State, Inv s → s.faulted = false → s.decActive = true →
    ∃ sym t, exec .decSym s = .next t ∧ sym ≤ s.eosSym ∧ s.weight sym ≠ 0#14 ∧
      s.cum sym ≤ s.decInterval.scaled s.decValue.toNat s.total ∧
      s.decInterval.scaled s.decValue.toNat s.total < s.cum (sym + 1) ∧
      (sym = s.eosSym →
        t = { s with decLow := t.decLow, decHigh := t.decHigh, decActive := false, decEos := true,
                     rsps := s.rsps ++ [⟨0#4, BitVec.ofNat 32 (s.eosSym + 2 ^ 16)⟩] } ∧
        t.decInterval = s.narrowFor s.decInterval sym) ∧
      (sym ≠ s.eosSym →
        let trace := (s.narrowFor s.decInterval sym).settle 16
        t = { s with decLow := t.decLow, decHigh := t.decHigh, decValue := t.decValue, rxBuf := t.rxBuf,
                     rxCnt := t.rxCnt, rxEnd := t.rxEnd, inPos := t.inPos,
                     rsps := s.rsps ++ [⟨0#4, BitVec.ofNat 32 sym⟩] } ∧
        t.decInterval = trace.2 ∧ trace.2.scaling = none ∧
        t.decValue.toNat = shiftValue trace.1 (window trace.1.length s.waitingBits) s.decValue.toNat ∧
        t.waitingBits = s.waitingBits.drop trace.1.length ∧
        t.rxCnt.toNat ≤ 8 ∧ t.rxBuf.toNat % 2 ^ (8 - t.rxCnt.toNat) = 0 ∧
        t.inPos = s.inPos +
          (if s.rxEnd then 0 else min ((trace.1.length - s.rxCnt.toNat + 7) / 8) (s.inp.length - s.inPos)) ∧
        (t.rxEnd = true ↔ s.rxEnd = true ∨ s.waitingBits.length < trace.1.length))

/-- R194: `DEC_END` closes the session, writes nothing else and answers `(OK, 0)`; with no session open it, and
`DEC_SYM`, raise `BAD_STATE`. -/
def Obligations.DecEndClosesTheSession : Prop :=
  ∀ s : State, s.faulted = false →
    (s.decActive = true →
      exec .decEnd s = .next { s with decActive := false, rsps := s.rsps ++ [⟨0#4, 0#32⟩] }) ∧
    (s.decActive = false → exec .decEnd s = .next (s.latched 6 (encode .decEnd)) ∧
      exec .decSym s = .next (s.latched 6 (encode .decSym)))

/-! ## Faults (60_exceptions.md) -/

/-- R227 (the table of 30_encoding.md R103): a command whose session condition fails raises `BAD_STATE` and changes
nothing else. -/
def Obligations.WrongSessionStateRaisesBadState : Prop :=
  ∀ (s : State) (i : Instr), s.faulted = false →
    (s.encActive = false ∧ (i = .encFin ∨ ∃ sym, i = .encSym sym)) ∨
    (s.encActive = true ∧ (i = .encInit ∨ i = .txClose ∨ (∃ b, i = .txPut b) ∨ ∃ idx w, i = .tblWr idx w)) ∨
    (s.decActive = false ∧ (i = .decSym ∨ i = .decEnd)) ∨
    (s.decActive = true ∧ (i = .decInit ∨ i = .rxGet ∨ ∃ idx w, i = .tblWr idx w)) →
    exec i s = .next (s.latched 6 (encode i))

/-- R231, R232 and R235: when a command raises a fault, the latch holds its cause code and its word, the `fault` output
is high, the response is the code with data 0, and nothing else has changed; only `PENDING_OVERFLOW` of `ENC_SYM` may
leave the encoder's interval, counter, buffer and `out` changed too. -/
def Obligations.FaultEntryWritesOnlyTheLatch : Prop :=
  ∀ (s t : State) (w : Word) (rest : List HostEvent), s.host = .cmd w :: rest → s.faulted = false →
    step s = .next t → t.faulted = true →
    1 ≤ t.faultCause.toNat ∧ t.faultCause.toNat ≤ 7 ∧ t.faultLine = true ∧
    (t = State.latched { s with host := rest } t.faultCause.toNat w ∨
      (t.faultCause = 4#4 ∧ (∃ sym, decode w = .ok (.encSym sym)) ∧
        t = State.latched { s with host := rest, encLow := t.encLow, encHigh := t.encHigh, encPend := t.encPend,
                                   txBuf := t.txBuf, txFill := t.txFill, out := t.out } 4 w))

/-- R234, R233 and R235: a recorded fault is never overwritten and the `fault` output stays high; of all words an idle
block accepts only `SRST` clears it. -/
def Obligations.OnlySrstClearsTheLatch : Prop :=
  ∀ (s t : State) (w : Word) (rest : List HostEvent), s.inProgress = none → s.host = .cmd w :: rest →
    s.faulted = true → step s = .next t →
    (w = 0x01000000#32 → t.faultCause = 0#4 ∧ t.faultCmd = 0#32 ∧ t.faultLine = false) ∧
    (w ≠ 0x01000000#32 → t.faultCause = s.faultCause ∧ t.faultCmd = s.faultCmd ∧ t.faultLine = true)

/-! ## Rules of the whole machine (10_state.md R32, R34, R57; 20_memory.md R73, R76) -/

/-- The invariant of R57 holds right after hardware reset. -/
def Obligations.InvariantHoldsAtReset : Prop := Inv State.reset

/-- R57: from every state that meets the invariant a step gives a state that meets it. -/
def Obligations.EveryStepKeepsTheInvariant : Prop := ∀ s t : State, Inv s → step s = .next t → Inv t

/-- R102: in every state that meets the invariant the step is defined: it gives a next state, never a stop.  (A command
that waits for ever is a next state too.) -/
def Obligations.StepNeverStops : Prop := ∀ s : State, Inv s → ∃ t, step s = .next t

/-- R76 and R57 (h): the table changes by an accepted `TBL_WR` with no session open and by hardware reset, and by
nothing else.  (A `TBL_WR` whose response is never taken has written too, R273.) -/
def Obligations.TableIsFixedDuringSessions : Prop :=
  ∀ s t : State, step s = .next t → t.freq ≠ s.freq →
    (s.inProgress = none ∧ s.encActive = false ∧ s.decActive = false ∧ s.faulted = false ∧
      ∃ idx w rest,
        (s.host = .cmd (encode (.tblWr idx w)) :: rest ∨ ∃ k, s.host = .stall (encode (.tblWr idx w)) k :: rest) ∧
        t.freq = Memory.write s.freq idx w) ∨
    (∃ rest, s.host = .rst :: rest) ∨ (∃ w k rest, s.host = .rstDuring w k :: rest)

/-- R32: the output is only extended at its end, the input does not change, its position moves only forward and not
past its end.  Two clauses are the model's: that responses are only added, log entry 5, and that `N`, which R53 calls
no state, does not change, log entry 1. -/
def Obligations.StreamsMoveOnlyForward : Prop :=
  ∀ s t : State, s.inPos ≤ s.inp.length → step s = .next t →
    s.out <+: t.out ∧ s.outPos ≤ t.outPos ∧ t.inp = s.inp ∧ s.inPos ≤ t.inPos ∧ t.inPos ≤ t.inp.length ∧
    s.rsps <+: t.rsps ∧ t.params = s.params

/-- R34: the two session flags and the end-of-stream flag move only as the state machines say; a command that ends
with a fault recorded leaves all three as they were. -/
def Obligations.SessionFlagsFollowTheStateMachines : Prop :=
  ∀ (s t : State) (i : Instr), Inv s → exec i s = .next t →
    (t.faulted = true → t.encActive = s.encActive ∧ t.decActive = s.decActive ∧ t.decEos = s.decEos) ∧
    (t.faulted = false →
      (t.encActive = (if i = .encInit then true else if i = .encFin ∨ i = .srst then false else s.encActive)) ∧
      (t.decActive =
        (if i = .decInit then true else if i = .decEnd ∨ i = .srst then false
         else if i = .decSym then !decide (s.decodedSymbol = some s.eosSym) else s.decActive)) ∧
      (t.decEos =
        (if i = .decInit ∨ i = .srst then false
         else if i = .decSym then decide (s.decodedSymbol = some s.eosSym) else s.decEos)))

/-- R73: encoder and bit-sink commands touch only the encoder, the transmit buffer and `out`; decoder and bit-source
commands only the decoder, the receive buffer and the input position; neither touches the table.  (The fault latch
and the response channel are shared.) -/
def Obligations.CodersTouchDisjointState : Prop :=
  ∀ (s t : State) (i : Instr), exec i s = .next t →
    (i = .encInit ∨ i = .encFin ∨ i = .txClose ∨ (∃ sym, i = .encSym sym) ∨ (∃ b, i = .txPut b) →
      t = { s with encLow := t.encLow, encHigh := t.encHigh, encPend := t.encPend, encActive := t.encActive,
                   txBuf := t.txBuf, txFill := t.txFill, out := t.out,
                   faultCause := t.faultCause, faultCmd := t.faultCmd, rsps := t.rsps }) ∧
    (i = .decInit ∨ i = .decSym ∨ i = .decEnd ∨ i = .rxGet →
      t = { s with decLow := t.decLow, decHigh := t.decHigh, decValue := t.decValue, decActive := t.decActive,
                   decEos := t.decEos, rxBuf := t.rxBuf, rxCnt := t.rxCnt, rxEnd := t.rxEnd, inPos := t.inPos,
                   faultCause := t.faultCause, faultCmd := t.faultCmd, rsps := t.rsps })

/-- R73: what an encoder or bit-sink command does on its side, and what it answers, does not depend on the decoder's
side: two states that agree but for the decoder, the receive buffer and the input give next states that agree but
for them. -/
def Obligations.EncoderIsIndependentOfTheDecoder : Prop :=
  ∀ (s s' t t' : State) (i : Instr),
    i = .encInit ∨ i = .encFin ∨ i = .txClose ∨ (∃ sym, i = .encSym sym) ∨ (∃ b, i = .txPut b) →
    s' = { s with decLow := s'.decLow, decHigh := s'.decHigh, decValue := s'.decValue, decActive := s'.decActive,
                  decEos := s'.decEos, rxBuf := s'.rxBuf, rxCnt := s'.rxCnt, rxEnd := s'.rxEnd, inp := s'.inp,
                  inPos := s'.inPos } →
    exec i s = .next t → exec i s' = .next t' →
    t' = { t with decLow := t'.decLow, decHigh := t'.decHigh, decValue := t'.decValue, decActive := t'.decActive,
                  decEos := t'.decEos, rxBuf := t'.rxBuf, rxCnt := t'.rxCnt, rxEnd := t'.rxEnd, inp := t'.inp,
                  inPos := t'.inPos }

/-- R73: what a decoder or bit-source command does on its side, and what it answers, does not depend on the encoder's
side: two states that agree but for the encoder, the transmit buffer and the output give next states that agree but
for them. -/
def Obligations.DecoderIsIndependentOfTheEncoder : Prop :=
  ∀ (s s' t t' : State) (i : Instr),
    i = .decInit ∨ i = .decSym ∨ i = .decEnd ∨ i = .rxGet →
    s' = { s with encLow := s'.encLow, encHigh := s'.encHigh, encPend := s'.encPend, encActive := s'.encActive,
                  txBuf := s'.txBuf, txFill := s'.txFill, out := s'.out } →
    exec i s = .next t → exec i s' = .next t' →
    t' = { t with encLow := t'.encLow, encHigh := t'.encHigh, encPend := t'.encPend, encActive := t'.encActive,
                  txBuf := t'.txBuf, txFill := t'.txFill, out := t'.out }

/-! ## What the block is for (42_encoder.md R170 to R172, 43_decoder.md R197) -/

/-- R171: an encoding session with `k` rescalings puts exactly `k + 2` bits before padding and appends
`ceil((k + 2) / 8)` bytes. -/
def Obligations.SessionBitAccounting : Prop :=
  ∀ (s t : State) (syms : List Nat), Inv s → s.inProgress = none → s.faulted = false → s.encActive = false →
    (∀ sym ∈ syms, sym ≤ s.eosSym) → runCommands (encodeSession syms) s = .next t → t.faulted = false →
    let k := (s.codingTrace Interval.full syms).1.length
    t.out.length = s.out.length + (k + 2 + 7) / 8 ∧
    ∃ bits : List Bool, bits.length = k + 2 ∧
      streamBits t.out = streamBits s.out ++ bits ++ List.replicate ((8 - (k + 2) % 8) % 8) false

/-- R172 and R253, count mode: a block that encodes symbols without a fault gives a stream from which a block with the
same table decodes them back, in as many `DEC_SYM` as there are symbols, whatever bytes follow the stream. -/
def Obligations.DecodingByCountGivesBackTheSymbols : Prop :=
  ∀ (s t u : State) (syms : List Nat) (more : List Byte),
    Inv s → s.inProgress = none → s.faulted = false → s.encActive = false →
    runCommands (encodeSession syms) s = .next t → t.faulted = false →
    (∀ sym ∈ syms, sym < s.eosSym) →
    Inv u → u.inProgress = none → u.faulted = false → u.decActive = false → u.params = s.params → u.freq = s.freq →
    u.inp.drop u.inPos = t.out.drop s.out.length ++ more →
    ∃ v, runCommands (.decInit :: List.replicate syms.length .decSym ++ [.decEnd]) u = .next v ∧
      v.rsps = u.rsps ++ okResponses (0 :: syms ++ [0]) ∧ v.faulted = false ∧ v.decActive = false ∧ v.decEos = false

/-- R170, R172 and R253, end-marker mode: with the end-of-stream symbol encoded last, the decoder gives back the
symbols before it, then reports the end of stream and closes its session by itself. -/
def Obligations.DecodingToTheEndMarkerGivesBackTheSymbols : Prop :=
  ∀ (s t u : State) (syms : List Nat) (more : List Byte),
    Inv s → s.inProgress = none → s.faulted = false → s.encActive = false →
    runCommands (encodeSession (syms ++ [s.eosSym])) s = .next t → t.faulted = false →
    (∀ sym ∈ syms, sym < s.eosSym) →
    Inv u → u.inProgress = none → u.faulted = false → u.decActive = false → u.params = s.params → u.freq = s.freq →
    u.inp.drop u.inPos = t.out.drop s.out.length ++ more →
    ∃ v, runCommands (.decInit :: List.replicate (syms.length + 1) .decSym) u = .next v ∧
      v.rsps = u.rsps ++ okResponses (0 :: syms ++ [s.eosSym + 2 ^ 16]) ∧ v.faulted = false ∧
      v.decActive = false ∧ v.decEos = true

/-- R197: after each symbol, as far as neither has coded the end of stream, the decoder's interval is the encoder's:
decoding the first `n` symbols of the stream ends in the interval that encoding the first `n` symbols ends in. -/
def Obligations.DecoderIntervalFollowsTheEncoder : Prop :=
  ∀ (s t p u : State) (syms rest : List Nat) (more : List Byte),
    Inv s → s.inProgress = none → s.faulted = false → s.encActive = false →
    runCommands (encodeSession (syms ++ rest)) s = .next t → t.faulted = false →
    runCommands (.encInit :: syms.map .encSym) s = .next p → p.faulted = false →
    (∀ sym ∈ syms, sym < s.eosSym) → (∀ sym ∈ rest, sym ≤ s.eosSym) →
    Inv u → u.inProgress = none → u.faulted = false → u.decActive = false → u.params = s.params → u.freq = s.freq →
    u.inp.drop u.inPos = t.out.drop s.out.length ++ more →
    ∃ v, runCommands (.decInit :: List.replicate syms.length .decSym) u = .next v ∧
      v.decLow = p.encLow ∧ v.decHigh = p.encHigh
end

