-- ==== Sys2Proof/Laws/State.lean ====
section
/-! SUPPORT. One lemma per field per update of State: what an update writes and what it leaves. -/

namespace Sys2Proof.Machine

variable (s : State)

/-! ## respond -/

@[simp] theorem respond_params (c : Code) (d : Word) : (s.respond c d).params = s.params := rfl
@[simp] theorem respond_freq (c : Code) (d : Word) : (s.respond c d).freq = s.freq := rfl
@[simp] theorem respond_encLow (c : Code) (d : Word) : (s.respond c d).encLow = s.encLow := rfl
@[simp] theorem respond_encHigh (c : Code) (d : Word) : (s.respond c d).encHigh = s.encHigh := rfl
@[simp] theorem respond_encPend (c : Code) (d : Word) : (s.respond c d).encPend = s.encPend := rfl
@[simp] theorem respond_encActive (c : Code) (d : Word) : (s.respond c d).encActive = s.encActive := rfl
@[simp] theorem respond_txBuf (c : Code) (d : Word) : (s.respond c d).txBuf = s.txBuf := rfl
@[simp] theorem respond_txFill (c : Code) (d : Word) : (s.respond c d).txFill = s.txFill := rfl
@[simp] theorem respond_decLow (c : Code) (d : Word) : (s.respond c d).decLow = s.decLow := rfl
@[simp] theorem respond_decHigh (c : Code) (d : Word) : (s.respond c d).decHigh = s.decHigh := rfl
@[simp] theorem respond_decValue (c : Code) (d : Word) : (s.respond c d).decValue = s.decValue := rfl
@[simp] theorem respond_decActive (c : Code) (d : Word) : (s.respond c d).decActive = s.decActive := rfl
@[simp] theorem respond_decEos (c : Code) (d : Word) : (s.respond c d).decEos = s.decEos := rfl
@[simp] theorem respond_rxBuf (c : Code) (d : Word) : (s.respond c d).rxBuf = s.rxBuf := rfl
@[simp] theorem respond_rxCnt (c : Code) (d : Word) : (s.respond c d).rxCnt = s.rxCnt := rfl
@[simp] theorem respond_rxEnd (c : Code) (d : Word) : (s.respond c d).rxEnd = s.rxEnd := rfl
@[simp] theorem respond_faultCause (c : Code) (d : Word) : (s.respond c d).faultCause = s.faultCause := rfl
@[simp] theorem respond_faultCmd (c : Code) (d : Word) : (s.respond c d).faultCmd = s.faultCmd := rfl
@[simp] theorem respond_out (c : Code) (d : Word) : (s.respond c d).out = s.out := rfl
@[simp] theorem respond_inp (c : Code) (d : Word) : (s.respond c d).inp = s.inp := rfl
@[simp] theorem respond_inPos (c : Code) (d : Word) : (s.respond c d).inPos = s.inPos := rfl
@[simp] theorem respond_rsps (c : Code) (d : Word) : (s.respond c d).rsps = s.rsps ++ [⟨c, d⟩] := rfl
@[simp] theorem respond_inProgress (c : Code) (d : Word) : (s.respond c d).inProgress = s.inProgress := rfl
@[simp] theorem respond_host (c : Code) (d : Word) : (s.respond c d).host = s.host := rfl

/-! ## outByte -/

@[simp] theorem outByte_params (v : Byte) : (s.outByte v).params = s.params := rfl
@[simp] theorem outByte_freq (v : Byte) : (s.outByte v).freq = s.freq := rfl
@[simp] theorem outByte_encLow (v : Byte) : (s.outByte v).encLow = s.encLow := rfl
@[simp] theorem outByte_encHigh (v : Byte) : (s.outByte v).encHigh = s.encHigh := rfl
@[simp] theorem outByte_encPend (v : Byte) : (s.outByte v).encPend = s.encPend := rfl
@[simp] theorem outByte_encActive (v : Byte) : (s.outByte v).encActive = s.encActive := rfl
@[simp] theorem outByte_txBuf (v : Byte) : (s.outByte v).txBuf = s.txBuf := rfl
@[simp] theorem outByte_txFill (v : Byte) : (s.outByte v).txFill = s.txFill := rfl
@[simp] theorem outByte_decLow (v : Byte) : (s.outByte v).decLow = s.decLow := rfl
@[simp] theorem outByte_decHigh (v : Byte) : (s.outByte v).decHigh = s.decHigh := rfl
@[simp] theorem outByte_decValue (v : Byte) : (s.outByte v).decValue = s.decValue := rfl
@[simp] theorem outByte_decActive (v : Byte) : (s.outByte v).decActive = s.decActive := rfl
@[simp] theorem outByte_decEos (v : Byte) : (s.outByte v).decEos = s.decEos := rfl
@[simp] theorem outByte_rxBuf (v : Byte) : (s.outByte v).rxBuf = s.rxBuf := rfl
@[simp] theorem outByte_rxCnt (v : Byte) : (s.outByte v).rxCnt = s.rxCnt := rfl
@[simp] theorem outByte_rxEnd (v : Byte) : (s.outByte v).rxEnd = s.rxEnd := rfl
@[simp] theorem outByte_faultCause (v : Byte) : (s.outByte v).faultCause = s.faultCause := rfl
@[simp] theorem outByte_faultCmd (v : Byte) : (s.outByte v).faultCmd = s.faultCmd := rfl
@[simp] theorem outByte_out (v : Byte) : (s.outByte v).out = s.out ++ [v] := rfl
@[simp] theorem outByte_inp (v : Byte) : (s.outByte v).inp = s.inp := rfl
@[simp] theorem outByte_inPos (v : Byte) : (s.outByte v).inPos = s.inPos := rfl
@[simp] theorem outByte_rsps (v : Byte) : (s.outByte v).rsps = s.rsps := rfl
@[simp] theorem outByte_inProgress (v : Byte) : (s.outByte v).inProgress = s.inProgress := rfl
@[simp] theorem outByte_host (v : Byte) : (s.outByte v).host = s.host := rfl

/-! ## clearTx -/

@[simp] theorem clearTx_params : (s.clearTx).params = s.params := rfl
@[simp] theorem clearTx_freq : (s.clearTx).freq = s.freq := rfl
@[simp] theorem clearTx_encLow : (s.clearTx).encLow = s.encLow := rfl
@[simp] theorem clearTx_encHigh : (s.clearTx).encHigh = s.encHigh := rfl
@[simp] theorem clearTx_encPend : (s.clearTx).encPend = s.encPend := rfl
@[simp] theorem clearTx_encActive : (s.clearTx).encActive = s.encActive := rfl
@[simp] theorem clearTx_txBuf : (s.clearTx).txBuf = 0#8 := rfl
@[simp] theorem clearTx_txFill : (s.clearTx).txFill = 0#3 := rfl
@[simp] theorem clearTx_decLow : (s.clearTx).decLow = s.decLow := rfl
@[simp] theorem clearTx_decHigh : (s.clearTx).decHigh = s.decHigh := rfl
@[simp] theorem clearTx_decValue : (s.clearTx).decValue = s.decValue := rfl
@[simp] theorem clearTx_decActive : (s.clearTx).decActive = s.decActive := rfl
@[simp] theorem clearTx_decEos : (s.clearTx).decEos = s.decEos := rfl
@[simp] theorem clearTx_rxBuf : (s.clearTx).rxBuf = s.rxBuf := rfl
@[simp] theorem clearTx_rxCnt : (s.clearTx).rxCnt = s.rxCnt := rfl
@[simp] theorem clearTx_rxEnd : (s.clearTx).rxEnd = s.rxEnd := rfl
@[simp] theorem clearTx_faultCause : (s.clearTx).faultCause = s.faultCause := rfl
@[simp] theorem clearTx_faultCmd : (s.clearTx).faultCmd = s.faultCmd := rfl
@[simp] theorem clearTx_out : (s.clearTx).out = s.out := rfl
@[simp] theorem clearTx_inp : (s.clearTx).inp = s.inp := rfl
@[simp] theorem clearTx_inPos : (s.clearTx).inPos = s.inPos := rfl
@[simp] theorem clearTx_rsps : (s.clearTx).rsps = s.rsps := rfl
@[simp] theorem clearTx_inProgress : (s.clearTx).inProgress = s.inProgress := rfl
@[simp] theorem clearTx_host : (s.clearTx).host = s.host := rfl

/-! ## clearRx -/

@[simp] theorem clearRx_params : (s.clearRx).params = s.params := rfl
@[simp] theorem clearRx_freq : (s.clearRx).freq = s.freq := rfl
@[simp] theorem clearRx_encLow : (s.clearRx).encLow = s.encLow := rfl
@[simp] theorem clearRx_encHigh : (s.clearRx).encHigh = s.encHigh := rfl
@[simp] theorem clearRx_encPend : (s.clearRx).encPend = s.encPend := rfl
@[simp] theorem clearRx_encActive : (s.clearRx).encActive = s.encActive := rfl
@[simp] theorem clearRx_txBuf : (s.clearRx).txBuf = s.txBuf := rfl
@[simp] theorem clearRx_txFill : (s.clearRx).txFill = s.txFill := rfl
@[simp] theorem clearRx_decLow : (s.clearRx).decLow = s.decLow := rfl
@[simp] theorem clearRx_decHigh : (s.clearRx).decHigh = s.decHigh := rfl
@[simp] theorem clearRx_decValue : (s.clearRx).decValue = s.decValue := rfl
@[simp] theorem clearRx_decActive : (s.clearRx).decActive = s.decActive := rfl
@[simp] theorem clearRx_decEos : (s.clearRx).decEos = s.decEos := rfl
@[simp] theorem clearRx_rxBuf : (s.clearRx).rxBuf = 0#8 := rfl
@[simp] theorem clearRx_rxCnt : (s.clearRx).rxCnt = 0#4 := rfl
@[simp] theorem clearRx_rxEnd : (s.clearRx).rxEnd = false := rfl
@[simp] theorem clearRx_faultCause : (s.clearRx).faultCause = s.faultCause := rfl
@[simp] theorem clearRx_faultCmd : (s.clearRx).faultCmd = s.faultCmd := rfl
@[simp] theorem clearRx_out : (s.clearRx).out = s.out := rfl
@[simp] theorem clearRx_inp : (s.clearRx).inp = s.inp := rfl
@[simp] theorem clearRx_inPos : (s.clearRx).inPos = s.inPos := rfl
@[simp] theorem clearRx_rsps : (s.clearRx).rsps = s.rsps := rfl
@[simp] theorem clearRx_inProgress : (s.clearRx).inProgress = s.inProgress := rfl
@[simp] theorem clearRx_host : (s.clearRx).host = s.host := rfl

/-! ## setEncInterval -/

@[simp] theorem setEncInterval_params (iv : Interval) : (s.setEncInterval iv).params = s.params := rfl
@[simp] theorem setEncInterval_freq (iv : Interval) : (s.setEncInterval iv).freq = s.freq := rfl
@[simp] theorem setEncInterval_encLow (iv : Interval) : (s.setEncInterval iv).encLow = BitVec.ofNat 16 iv.low := rfl
@[simp] theorem setEncInterval_encHigh (iv : Interval) : (s.setEncInterval iv).encHigh = BitVec.ofNat 16 iv.high := rfl
@[simp] theorem setEncInterval_encPend (iv : Interval) : (s.setEncInterval iv).encPend = s.encPend := rfl
@[simp] theorem setEncInterval_encActive (iv : Interval) : (s.setEncInterval iv).encActive = s.encActive := rfl
@[simp] theorem setEncInterval_txBuf (iv : Interval) : (s.setEncInterval iv).txBuf = s.txBuf := rfl
@[simp] theorem setEncInterval_txFill (iv : Interval) : (s.setEncInterval iv).txFill = s.txFill := rfl
@[simp] theorem setEncInterval_decLow (iv : Interval) : (s.setEncInterval iv).decLow = s.decLow := rfl
@[simp] theorem setEncInterval_decHigh (iv : Interval) : (s.setEncInterval iv).decHigh = s.decHigh := rfl
@[simp] theorem setEncInterval_decValue (iv : Interval) : (s.setEncInterval iv).decValue = s.decValue := rfl
@[simp] theorem setEncInterval_decActive (iv : Interval) : (s.setEncInterval iv).decActive = s.decActive := rfl
@[simp] theorem setEncInterval_decEos (iv : Interval) : (s.setEncInterval iv).decEos = s.decEos := rfl
@[simp] theorem setEncInterval_rxBuf (iv : Interval) : (s.setEncInterval iv).rxBuf = s.rxBuf := rfl
@[simp] theorem setEncInterval_rxCnt (iv : Interval) : (s.setEncInterval iv).rxCnt = s.rxCnt := rfl
@[simp] theorem setEncInterval_rxEnd (iv : Interval) : (s.setEncInterval iv).rxEnd = s.rxEnd := rfl
@[simp] theorem setEncInterval_faultCause (iv : Interval) : (s.setEncInterval iv).faultCause = s.faultCause := rfl
@[simp] theorem setEncInterval_faultCmd (iv : Interval) : (s.setEncInterval iv).faultCmd = s.faultCmd := rfl
@[simp] theorem setEncInterval_out (iv : Interval) : (s.setEncInterval iv).out = s.out := rfl
@[simp] theorem setEncInterval_inp (iv : Interval) : (s.setEncInterval iv).inp = s.inp := rfl
@[simp] theorem setEncInterval_inPos (iv : Interval) : (s.setEncInterval iv).inPos = s.inPos := rfl
@[simp] theorem setEncInterval_rsps (iv : Interval) : (s.setEncInterval iv).rsps = s.rsps := rfl
@[simp] theorem setEncInterval_inProgress (iv : Interval) : (s.setEncInterval iv).inProgress = s.inProgress := rfl
@[simp] theorem setEncInterval_host (iv : Interval) : (s.setEncInterval iv).host = s.host := rfl

/-! ## setDecInterval -/

@[simp] theorem setDecInterval_params (iv : Interval) : (s.setDecInterval iv).params = s.params := rfl
@[simp] theorem setDecInterval_freq (iv : Interval) : (s.setDecInterval iv).freq = s.freq := rfl
@[simp] theorem setDecInterval_encLow (iv : Interval) : (s.setDecInterval iv).encLow = s.encLow := rfl
@[simp] theorem setDecInterval_encHigh (iv : Interval) : (s.setDecInterval iv).encHigh = s.encHigh := rfl
@[simp] theorem setDecInterval_encPend (iv : Interval) : (s.setDecInterval iv).encPend = s.encPend := rfl
@[simp] theorem setDecInterval_encActive (iv : Interval) : (s.setDecInterval iv).encActive = s.encActive := rfl
@[simp] theorem setDecInterval_txBuf (iv : Interval) : (s.setDecInterval iv).txBuf = s.txBuf := rfl
@[simp] theorem setDecInterval_txFill (iv : Interval) : (s.setDecInterval iv).txFill = s.txFill := rfl
@[simp] theorem setDecInterval_decLow (iv : Interval) : (s.setDecInterval iv).decLow = BitVec.ofNat 16 iv.low := rfl
@[simp] theorem setDecInterval_decHigh (iv : Interval) : (s.setDecInterval iv).decHigh = BitVec.ofNat 16 iv.high := rfl
@[simp] theorem setDecInterval_decValue (iv : Interval) : (s.setDecInterval iv).decValue = s.decValue := rfl
@[simp] theorem setDecInterval_decActive (iv : Interval) : (s.setDecInterval iv).decActive = s.decActive := rfl
@[simp] theorem setDecInterval_decEos (iv : Interval) : (s.setDecInterval iv).decEos = s.decEos := rfl
@[simp] theorem setDecInterval_rxBuf (iv : Interval) : (s.setDecInterval iv).rxBuf = s.rxBuf := rfl
@[simp] theorem setDecInterval_rxCnt (iv : Interval) : (s.setDecInterval iv).rxCnt = s.rxCnt := rfl
@[simp] theorem setDecInterval_rxEnd (iv : Interval) : (s.setDecInterval iv).rxEnd = s.rxEnd := rfl
@[simp] theorem setDecInterval_faultCause (iv : Interval) : (s.setDecInterval iv).faultCause = s.faultCause := rfl
@[simp] theorem setDecInterval_faultCmd (iv : Interval) : (s.setDecInterval iv).faultCmd = s.faultCmd := rfl
@[simp] theorem setDecInterval_out (iv : Interval) : (s.setDecInterval iv).out = s.out := rfl
@[simp] theorem setDecInterval_inp (iv : Interval) : (s.setDecInterval iv).inp = s.inp := rfl
@[simp] theorem setDecInterval_inPos (iv : Interval) : (s.setDecInterval iv).inPos = s.inPos := rfl
@[simp] theorem setDecInterval_rsps (iv : Interval) : (s.setDecInterval iv).rsps = s.rsps := rfl
@[simp] theorem setDecInterval_inProgress (iv : Interval) : (s.setDecInterval iv).inProgress = s.inProgress := rfl
@[simp] theorem setDecInterval_host (iv : Interval) : (s.setDecInterval iv).host = s.host := rfl

/-! ## setWeight -/

@[simp] theorem setWeight_params (i : Nat) (w : Weight) : (s.setWeight i w).params = s.params := rfl
@[simp] theorem setWeight_freq (i : Nat) (w : Weight) : (s.setWeight i w).freq = Memory.write s.freq i w := rfl
@[simp] theorem setWeight_encLow (i : Nat) (w : Weight) : (s.setWeight i w).encLow = s.encLow := rfl
@[simp] theorem setWeight_encHigh (i : Nat) (w : Weight) : (s.setWeight i w).encHigh = s.encHigh := rfl
@[simp] theorem setWeight_encPend (i : Nat) (w : Weight) : (s.setWeight i w).encPend = s.encPend := rfl
@[simp] theorem setWeight_encActive (i : Nat) (w : Weight) : (s.setWeight i w).encActive = s.encActive := rfl
@[simp] theorem setWeight_txBuf (i : Nat) (w : Weight) : (s.setWeight i w).txBuf = s.txBuf := rfl
@[simp] theorem setWeight_txFill (i : Nat) (w : Weight) : (s.setWeight i w).txFill = s.txFill := rfl
@[simp] theorem setWeight_decLow (i : Nat) (w : Weight) : (s.setWeight i w).decLow = s.decLow := rfl
@[simp] theorem setWeight_decHigh (i : Nat) (w : Weight) : (s.setWeight i w).decHigh = s.decHigh := rfl
@[simp] theorem setWeight_decValue (i : Nat) (w : Weight) : (s.setWeight i w).decValue = s.decValue := rfl
@[simp] theorem setWeight_decActive (i : Nat) (w : Weight) : (s.setWeight i w).decActive = s.decActive := rfl
@[simp] theorem setWeight_decEos (i : Nat) (w : Weight) : (s.setWeight i w).decEos = s.decEos := rfl
@[simp] theorem setWeight_rxBuf (i : Nat) (w : Weight) : (s.setWeight i w).rxBuf = s.rxBuf := rfl
@[simp] theorem setWeight_rxCnt (i : Nat) (w : Weight) : (s.setWeight i w).rxCnt = s.rxCnt := rfl
@[simp] theorem setWeight_rxEnd (i : Nat) (w : Weight) : (s.setWeight i w).rxEnd = s.rxEnd := rfl
@[simp] theorem setWeight_faultCause (i : Nat) (w : Weight) : (s.setWeight i w).faultCause = s.faultCause := rfl
@[simp] theorem setWeight_faultCmd (i : Nat) (w : Weight) : (s.setWeight i w).faultCmd = s.faultCmd := rfl
@[simp] theorem setWeight_out (i : Nat) (w : Weight) : (s.setWeight i w).out = s.out := rfl
@[simp] theorem setWeight_inp (i : Nat) (w : Weight) : (s.setWeight i w).inp = s.inp := rfl
@[simp] theorem setWeight_inPos (i : Nat) (w : Weight) : (s.setWeight i w).inPos = s.inPos := rfl
@[simp] theorem setWeight_rsps (i : Nat) (w : Weight) : (s.setWeight i w).rsps = s.rsps := rfl
@[simp] theorem setWeight_inProgress (i : Nat) (w : Weight) : (s.setWeight i w).inProgress = s.inProgress := rfl
@[simp] theorem setWeight_host (i : Nat) (w : Weight) : (s.setWeight i w).host = s.host := rfl

end Sys2Proof.Machine
end

