-- ==== Sys2Proof/Laws/Table.lean ====
section
/-! SUPPORT. The laws of the frequency table: the canonical form, read after write, the prefix sums, `Find`. -/

namespace Sys2Proof.Machine

/-! ## The canonical form -/

@[simp] theorem Memory.wf_nil : Memory.wf [] = true := rfl

/-- The canonical form, said of a head and a tail. -/
theorem Memory.wf_cons {k : Nat} {w : Weight} {m : Memory} :
    Memory.wf ((k, w) :: m) = true ↔ w ≠ 0#14 ∧ (∀ e ∈ m, k < e.1) ∧ Memory.wf m = true := by
  induction m generalizing k w with
  | nil => simp [Memory.wf]
  | cons e m ih =>
    obtain ⟨j, v⟩ := e
    rw [Memory.wf]
    simp only [Bool.and_eq_true, bne_iff_ne, ne_eq, decide_eq_true_eq, List.mem_cons, forall_eq_or_imp]
    rw [ih]
    constructor
    · rintro ⟨⟨h1, h2⟩, h3, h4, h5⟩
      exact ⟨h1, ⟨h2, fun e he => h2.trans (h4 e he)⟩, h3, h4, h5⟩
    · rintro ⟨h1, ⟨h2, -⟩, h3, h4, h5⟩
      exact ⟨⟨h1, h2⟩, h3, h4, h5⟩

theorem Memory.read_of_not_listed {m : Memory} {i : Nat} (h : ∀ e ∈ m, e.1 ≠ i) : Memory.read m i = 0#14 := by
  induction m with
  | nil => rfl
  | cons e m ih =>
    obtain ⟨k, w⟩ := e
    have hk : k ≠ i := h (k, w) (by simp)
    rw [Memory.read, if_neg hk, ih fun e he => h e (by simp [he])]

/-- Every index a write lists is the written one or was listed before. -/
theorem Memory.mem_write {m : Memory} {i : Nat} {w : Weight} {e : Nat × Weight}
    (h : e ∈ Memory.write m i w) : e = (i, w) ∨ e ∈ m := by
  induction m with
  | nil =>
    rw [Memory.write] at h
    split at h
    · simp at h
    · exact Or.inl (by simpa using h)
  | cons f m ih =>
    obtain ⟨k, v⟩ := f
    rw [Memory.write] at h
    split_ifs at h
    · exact Or.inr h
    · rcases List.mem_cons.1 h with h | h
      · exact Or.inl h
      · exact Or.inr h
    · exact Or.inr (List.mem_cons_of_mem _ h)
    · rcases List.mem_cons.1 h with h | h
      · exact Or.inl h
      · exact Or.inr (List.mem_cons_of_mem _ h)
    · rcases List.mem_cons.1 h with h | h
      · exact Or.inr (by simp [h])
      · exact (ih h).imp id (List.mem_cons_of_mem _)

/-- A write keeps the canonical form. -/
theorem Memory.wf_write {m : Memory} (hm : Memory.wf m = true) (i : Nat) (w : Weight) :
    Memory.wf (Memory.write m i w) = true := by
  induction m with
  | nil =>
    rw [Memory.write]
    split
    · rfl
    · next h => exact Memory.wf_cons.2 ⟨h, by simp, rfl⟩
  | cons f m ih =>
    obtain ⟨k, v⟩ := f
    obtain ⟨hv, hk, hm'⟩ := Memory.wf_cons.1 hm
    rw [Memory.write]
    split_ifs with h1 h2 h3 h4
    · exact hm
    · refine Memory.wf_cons.2 ⟨h2, ?_, hm⟩
      simp only [List.mem_cons, forall_eq_or_imp]
      exact ⟨h1, fun e he => h1.trans (hk e he)⟩
    · exact hm'
    · exact Memory.wf_cons.2 ⟨h4, h3 ▸ hk, hm'⟩
    · refine Memory.wf_cons.2 ⟨hv, fun e he => ?_, ih hm'⟩
      rcases Memory.mem_write he with rfl | he
      · show k < i
        omega
      · exact hk e he

/-- A write at a legal index keeps every listed index legal. -/
theorem Memory.within_write {m : Memory} {n i : Nat} (hm : Memory.within m n = true) (hi : i ≤ n) (w : Weight) :
    Memory.within (Memory.write m i w) n = true := by
  simp only [Memory.within, List.all_eq_true, decide_eq_true_eq] at hm ⊢
  intro e he
  rcases Memory.mem_write he with rfl | he
  · exact hi
  · exact hm e he

/-! ## Read after write -/

theorem Memory.read_write_self {m : Memory} (hm : Memory.wf m = true) (i : Nat) (w : Weight) :
    Memory.read (Memory.write m i w) i = w := by
  induction m with
  | nil =>
    rw [Memory.write]
    split
    · next h => rw [h]; rfl
    · simp [Memory.read]
  | cons f m ih =>
    obtain ⟨k, v⟩ := f
    obtain ⟨-, hk, hm'⟩ := Memory.wf_cons.1 hm
    rw [Memory.write]
    split_ifs with h1 h2 h3 h4
    · rw [h2]
      refine Memory.read_of_not_listed fun e he => ?_
      rcases List.mem_cons.1 he with rfl | he
      · exact Nat.ne_of_gt h1
      · exact Nat.ne_of_gt (h1.trans (hk e he))
    · simp [Memory.read]
    · rw [h4]
      exact Memory.read_of_not_listed fun e he => Nat.ne_of_gt (h3 ▸ hk e he)
    · simp [Memory.read]
    · rw [Memory.read, if_neg (fun h => h3 h.symm), ih hm']

theorem Memory.read_write_other {m : Memory} {i j : Nat} (hij : j ≠ i) (w : Weight) :
    Memory.read (Memory.write m i w) j = Memory.read m j := by
  induction m with
  | nil =>
    rw [Memory.write]
    split
    · rfl
    · simp [Memory.read, Ne.symm hij]
  | cons f m ih =>
    obtain ⟨k, v⟩ := f
    rw [Memory.write]
    split_ifs with h1 h2 h3 h4
    · rfl
    · simp [Memory.read, Ne.symm hij]
    · subst h3; simp [Memory.read, Ne.symm hij]
    · subst h3; simp [Memory.read, Ne.symm hij]
    · simp only [Memory.read, ih]

/-- Two canonical tables that read the same are the same data. -/
theorem Memory.ext {m m' : Memory} (hm : Memory.wf m = true) (hm' : Memory.wf m' = true)
    (h : ∀ i, Memory.read m i = Memory.read m' i) : m = m' := by
  induction m generalizing m' with
  | nil =>
    cases m' with
    | nil => rfl
    | cons f m' =>
      obtain ⟨k, v⟩ := f
      have := h k
      simp [Memory.read] at this
      exact absurd this.symm (Memory.wf_cons.1 hm').1
  | cons f m ih =>
    obtain ⟨k, v⟩ := f
    obtain ⟨hv, hk, hm1⟩ := Memory.wf_cons.1 hm
    cases m' with
    | nil =>
      have := h k
      simp [Memory.read] at this
      exact absurd this hv
    | cons f' m' =>
      obtain ⟨k', v'⟩ := f'
      obtain ⟨hv', hk', hm1'⟩ := Memory.wf_cons.1 hm'
      have hkk : k = k' := by
        rcases Nat.lt_trichotomy k k' with hlt | heq | hgt
        · have h1 := h k
          rw [Memory.read, if_pos rfl, Memory.read_of_not_listed (m := (k', v') :: m')] at h1
          · exact absurd h1 hv
          · intro e he
            rcases List.mem_cons.1 he with rfl | he
            · exact Nat.ne_of_gt hlt
            · exact Nat.ne_of_gt (hlt.trans (hk' e he))
        · exact heq
        · have h1 := h k'
          rw [Memory.read_of_not_listed, Memory.read, if_pos rfl] at h1
          · exact absurd h1.symm hv'
          · intro e he
            rcases List.mem_cons.1 he with rfl | he
            · exact Nat.ne_of_gt hgt
            · exact Nat.ne_of_gt (hgt.trans (hk e he))
      subst hkk
      have hvv : v = v' := by
        have := h k
        simpa [Memory.read] using this
      subst hvv
      have : m = m' := ih hm1 hm1' fun i => by
        by_cases hi : k = i
        · subst hi
          rw [Memory.read_of_not_listed fun e he => Nat.ne_of_gt (hk e he),
            Memory.read_of_not_listed fun e he => Nat.ne_of_gt (hk' e he)]
        · have := h i
          simpa [Memory.read, hi] using this
      rw [this]

/-! ## The prefix sums (R120) -/

@[simp] theorem Memory.cum_zero (m : Memory) : Memory.cum m 0 = 0 := by
  induction m with
  | nil => rfl
  | cons f m ih => simp [Memory.cum, ih]

theorem Memory.cum_succ {m : Memory} (hm : Memory.wf m = true) (i : Nat) :
    Memory.cum m (i + 1) = Memory.cum m i + (Memory.read m i).toNat := by
  induction m with
  | nil => rfl
  | cons f m ih =>
    obtain ⟨k, v⟩ := f
    obtain ⟨-, hk, hm'⟩ := Memory.wf_cons.1 hm
    simp only [Memory.cum, Memory.read, ih hm']
    rcases Nat.lt_trichotomy k i with h | h | h
    · rw [if_pos (by omega), if_pos h, if_neg (by omega)]; omega
    · subst h
      rw [if_pos (by omega), if_neg (by omega), if_pos rfl,
        Memory.read_of_not_listed fun e he => Nat.ne_of_gt (hk e he)]
      simp
      omega
    · rw [if_neg (by omega), if_neg (by omega), if_neg (by omega)]; omega

theorem Memory.cum_mono (m : Memory) {i j : Nat} (h : i ≤ j) : Memory.cum m i ≤ Memory.cum m j := by
  induction m with
  | nil => exact Nat.le_refl _
  | cons f m ih =>
    simp only [Memory.cum]
    split_ifs <;> omega

theorem Memory.cum_le (m : Memory) (hm : Memory.wf m = true) (i : Nat) : Memory.cum m i ≤ i * 16383 := by
  induction i with
  | zero => simp
  | succ i ih =>
    have := (Memory.read m i).isLt
    rw [Memory.cum_succ hm]
    omega

/-- Below the first listed index every sum is 0. -/
theorem Memory.cum_of_le {m : Memory} {i : Nat} (h : ∀ e ∈ m, i ≤ e.1) : Memory.cum m i = 0 := by
  induction m with
  | nil => rfl
  | cons f m ih =>
    obtain ⟨k, v⟩ := f
    have hk : i ≤ k := h (k, v) (by simp)
    rw [Memory.cum, if_neg (by omega), ih fun e he => h e (by simp [he])]

/-! ## Find (R124) -/

/-- The symbol the walk finds contains `x` in its cumulative interval, and its weight is positive. -/
theorem Memory.find_spec {m : Memory} (hm : Memory.wf m = true) {x sym : Nat} (h : Memory.find m x = some sym) :
    Memory.cum m sym ≤ x ∧ x < Memory.cum m (sym + 1) ∧ Memory.read m sym ≠ 0#14 ∧ ∃ w, (sym, w) ∈ m := by
  induction m generalizing x with
  | nil => simp [Memory.find] at h
  | cons f m ih =>
    obtain ⟨k, v⟩ := f
    obtain ⟨hv, hk, hm'⟩ := Memory.wf_cons.1 hm
    rw [Memory.find] at h
    split at h
    · next hx =>
      obtain rfl : k = sym := by simpa using h
      refine ⟨?_, ?_, by simpa [Memory.read] using hv, v, by simp⟩
      · rw [Memory.cum, if_neg (by omega), Memory.cum_of_le fun e he => Nat.le_of_lt (hk e he)]
        omega
      · rw [Memory.cum, if_pos (by omega)]
        omega
    · next hx =>
      obtain ⟨h1, h2, h3, w, h4⟩ := ih hm' h
      have hlt := hk _ h4
      simp only at hlt
      refine ⟨?_, ?_, ?_, w, by simp [h4]⟩
      · rw [Memory.cum, if_pos hlt]; omega
      · rw [Memory.cum, if_pos (by omega)]; omega
      · rw [Memory.read, if_neg (by omega)]; exact h3

/-- The walk finds a symbol whenever `x` is below some prefix sum. -/
theorem Memory.find_of_lt {m : Memory} {x i : Nat} (h : x < Memory.cum m i) : ∃ sym, Memory.find m x = some sym := by
  induction m generalizing x with
  | nil => simp [Memory.cum] at h
  | cons f m ih =>
    obtain ⟨k, v⟩ := f
    rw [Memory.cum] at h
    rw [Memory.find]
    split
    · exact ⟨k, rfl⟩
    · exact ih (by split at h <;> omega)

/-- Cumulative intervals are disjoint: at most one symbol contains `x`. -/
theorem Memory.cum_interval_unique {m : Memory} {x a b : Nat} (ha : Memory.cum m a ≤ x) (ha' : x < Memory.cum m (a + 1))
    (hb : Memory.cum m b ≤ x) (hb' : x < Memory.cum m (b + 1)) : a = b := by
  rcases Nat.lt_trichotomy a b with h | h | h
  · have := Memory.cum_mono m (i := a + 1) (j := b) h
    omega
  · exact h
  · have := Memory.cum_mono m (i := b + 1) (j := a) h
    omega

/-- `Find` on the state: everything R124 says. -/
theorem State.findSymbol_spec {s : State} (hm : Memory.wf s.freq = true) (hw : Memory.within s.freq s.eosSym = true)
    {x sym : Nat} (h : s.findSymbol x = some sym) :
    sym ≤ s.eosSym ∧ s.cum sym ≤ x ∧ x < s.cum (sym + 1) ∧ s.weight sym ≠ 0#14 ∧ x < s.total := by
  rw [State.findSymbol] at h
  split at h
  · next hx =>
    obtain ⟨h1, h2, h3, w, h4⟩ := Memory.find_spec hm h
    simp only [Memory.within, List.all_eq_true, decide_eq_true_eq] at hw
    exact ⟨hw _ h4, h1, h2, h3, hx⟩
  · simp at h

theorem State.findSymbol_of_lt {s : State} {x : Nat} (h : x < s.total) : ∃ sym, s.findSymbol x = some sym := by
  rw [State.findSymbol, if_pos h]
  exact Memory.find_of_lt h

theorem State.findSymbol_eq_some {s : State} (hm : Memory.wf s.freq = true)
    {x sym : Nat} (h1 : s.cum sym ≤ x) (h2 : x < s.cum (sym + 1)) (hx : x < s.total) :
    s.findSymbol x = some sym := by
  obtain ⟨sym', h⟩ := State.findSymbol_of_lt hx
  have h' := h
  rw [State.findSymbol, if_pos hx] at h'
  obtain ⟨h3, h4, -⟩ := Memory.find_spec hm h'
  rw [h, Memory.cum_interval_unique h3 h4 h1 h2]

/-- `Total() < 2^28` (R120). -/
theorem State.cum_lt {s : State} (hm : Memory.wf s.freq = true) {i : Nat} (hi : i ≤ s.eosSym + 1) :
    s.cum i < 2 ^ 28 := by
  have h1 := Memory.cum_le s.freq hm i
  have h2 := s.params.n.isLt
  simp only [State.eosSym] at hi
  simp only [State.cum]
  omega

end Sys2Proof.Machine
end

