-- ==== Sys2Proof/Laws/Bits.lean ====
section
/-! SUPPORT. The laws of the two bit buffers: what `PutBit`, `CloseTx` and `GetBit` do to the bit sequences. -/

namespace Sys2Proof.Machine

/-! ## Bytes and bits -/

@[simp] theorem streamBits_nil : streamBits [] = [] := rfl

@[simp] theorem streamBits_cons (b : Byte) (l : List Byte) : streamBits (b :: l) = byteBits b ++ streamBits l := rfl

theorem streamBits_append (l l' : List Byte) : streamBits (l ++ l') = streamBits l ++ streamBits l' := by
  simp [streamBits]

@[simp] theorem byteBits_length (b : Byte) : (byteBits b).length = 8 := rfl

theorem streamBits_length (l : List Byte) : (streamBits l).length = 8 * l.length := by
  induction l with
  | nil => rfl
  | cons b l ih => simp [ih]; omega

/-- The low `n` bits of a value are 0 exactly when it is a multiple of `2^n`. -/
theorem low_bits_zero {n w : Nat} {x : BitVec w} : x.toNat % 2 ^ n = 0 ↔ ∀ i < n, x.getLsbD i = false := by
  constructor
  · intro h i hi
    have := congrArg (fun v => Nat.testBit v i) h
    simpa [Nat.testBit_mod_two_pow, hi, BitVec.getLsbD] using this
  · intro h
    refine Nat.eq_of_testBit_eq fun i => ?_
    rw [Nat.testBit_mod_two_pow, Nat.zero_testBit]
    by_cases hi : i < n
    · simpa [hi, BitVec.getLsbD] using h i hi
    · simp [hi]

theorem placeBit_getLsbD (buf : Byte) (fill : BitVec 3) (b : Bool) {i : Nat} (hi : i < 8) :
    (placeBit buf fill b).getLsbD i = (buf.getLsbD i || (b && decide (i = 7 - fill.toNat))) := by
  have hf := fill.isLt
  have h1 : ∀ k, (BitVec.ofNat 8 (bitNat b)).getLsbD k = (b && decide (k = 0)) := by
    intro k
    cases b <;> rcases k with _ | k <;> simp [bitNat]
  rw [placeBit, BitVec.getLsbD_or, BitVec.getLsbD_shiftLeft, h1]
  congr 1
  by_cases h : i < 7 - fill.toNat
  · simp [h, hi]; omega
  · simp only [h, hi, decide_true, decide_false, Bool.not_false, Bool.true_and]
    congr 1
    exact decide_eq_decide.2 (by omega)

/-- The accepted bits gain the new one, and the positions below it stay 0 (R140). -/
theorem placeBit_spec {buf : Byte} {fill : BitVec 3} (hclean : buf.toNat % 2 ^ (8 - fill.toNat) = 0) (b : Bool) :
    (byteBits (placeBit buf fill b)).take (fill.toNat + 1) = (byteBits buf).take fill.toNat ++ [b] ∧
    (placeBit buf fill b).toNat % 2 ^ (8 - (fill.toNat + 1)) = 0 := by
  have hf := fill.isLt
  rw [low_bits_zero] at hclean
  constructor
  · have hz : buf.getLsbD (7 - fill.toNat) = false := hclean _ (by omega)
    simp only [byteBits, placeBit_getLsbD _ _ _ (show 7 < 8 by omega), placeBit_getLsbD _ _ _ (show 6 < 8 by omega),
      placeBit_getLsbD _ _ _ (show 5 < 8 by omega), placeBit_getLsbD _ _ _ (show 4 < 8 by omega),
      placeBit_getLsbD _ _ _ (show 3 < 8 by omega), placeBit_getLsbD _ _ _ (show 2 < 8 by omega),
      placeBit_getLsbD _ _ _ (show 1 < 8 by omega), placeBit_getLsbD _ _ _ (show 0 < 8 by omega)]
    generalize fill.toNat = f at *
    interval_cases f <;> simp at hz <;> simp [hz]
  · rw [low_bits_zero]
    intro i hi
    rw [placeBit_getLsbD _ _ _ (by omega), hclean i (by omega)]
    have : i ≠ 7 - fill.toNat := by omega
    simp [this]

/-! ## PutBit -/

/-- `PutBit` writes the transmit buffer and `out`, nothing else (R140). -/
theorem putBit_frame (s : State) (b : Bool) :
    s.putBit b = { s with txBuf := (s.putBit b).txBuf, txFill := (s.putBit b).txFill, out := (s.putBit b).out } := by
  unfold State.putBit
  dsimp only
  split <;> rfl

/-- `PutBit` before the eighth bit (R140). -/
theorem putBit_lt {s : State} (h : s.txFill ≠ 7#3) (b : Bool) :
    s.putBit b = { s with txBuf := placeBit s.txBuf s.txFill b, txFill := s.txFill + 1#3 } := by
  simp [State.putBit, h]

/-- `PutBit` of the eighth bit (R140). -/
theorem putBit_last {s : State} (h : s.txFill = 7#3) (b : Bool) :
    s.putBit b = { s with txBuf := 0#8, txFill := 0#3, out := s.out ++ [placeBit s.txBuf s.txFill b] } := by
  simp [State.putBit, h, State.clearTx, State.outByte]

theorem fill_succ {f : BitVec 3} (h : f ≠ 7#3) : (f + 1#3).toNat = f.toNat + 1 := by
  have := f.isLt
  have : f.toNat ≠ 7 := fun h' => h (BitVec.eq_of_toNat_eq h')
  simp [BitVec.toNat_add]
  omega

/-- The unfilled positions of the transmit buffer are 0 (10_state.md R57 e). -/
abbrev State.TxClean (s : State) : Prop := s.txBuf.toNat % 2 ^ (8 - s.txFill.toNat) = 0

/-- `PutBit` appends the bit to the sent bits and keeps the buffer clean (R140). -/
theorem putBit_spec {s : State} (hclean : s.TxClean) (b : Bool) :
    (s.putBit b).sentBits = s.sentBits ++ [b] ∧ (s.putBit b).TxClean := by
  obtain ⟨h1, h2⟩ := placeBit_spec hclean b
  by_cases h : s.txFill = 7#3
  · rw [putBit_last h]
    refine ⟨?_, rfl⟩
    have h7 : s.txFill.toNat = 7 := by rw [h]; rfl
    rw [h7] at h1
    simp only [State.sentBits, streamBits_append, streamBits_cons, streamBits_nil, List.append_nil, h7, List.append_assoc]
    rw [List.take_of_length_le (Nat.le_of_eq (byteBits_length _))] at h1
    rw [← h1]
    simp
  · rw [putBit_lt h]
    refine ⟨?_, ?_⟩
    · simp only [State.sentBits, fill_succ h, h1, List.append_assoc]
    · simp only [State.TxClean, fill_succ h]
      exact h2

theorem putBits_frame (s : State) (b : Bool) (n : Nat) :
    s.putBits b n =
      { s with txBuf := (s.putBits b n).txBuf, txFill := (s.putBits b n).txFill, out := (s.putBits b n).out } := by
  induction n generalizing s with
  | zero => rfl
  | succ n ih =>
    rw [State.putBits, ih, putBit_frame]

theorem putBits_spec {s : State} (hclean : s.TxClean) (b : Bool) (n : Nat) :
    (s.putBits b n).sentBits = s.sentBits ++ List.replicate n b ∧ (s.putBits b n).TxClean := by
  induction n generalizing s with
  | zero => exact ⟨by simp [State.putBits], hclean⟩
  | succ n ih =>
    obtain ⟨h1, h2⟩ := putBit_spec hclean b
    obtain ⟨h3, h4⟩ := ih h2
    refine ⟨?_, h4⟩
    rw [State.putBits, h3, h1, List.replicate_succ, List.append_assoc]
    rfl

/-! ## CloseTx -/

theorem closeTx_frame (s : State) :
    s.closeTx = { s with txBuf := 0#8, txFill := 0#3, out := s.closeTx.out } := by
  unfold State.closeTx
  split <;> rfl

/-- `CloseTx` pads with zero bits to the byte boundary and leaves the buffer empty (R141). -/
theorem closeTx_spec {s : State} (hclean : s.TxClean) :
    streamBits s.closeTx.out = s.sentBits ++ List.replicate ((8 - s.txFill.toNat) % 8) false := by
  have hf := s.txFill.isLt
  rw [State.TxClean, low_bits_zero] at hclean
  unfold State.closeTx
  split
  · next h => simp [State.sentBits, h]
  · next h =>
    have h0 : s.txFill.toNat ≠ 0 := fun h' => h (BitVec.eq_of_toNat_eq h')
    simp only [clearTx_out, outByte_out, streamBits_append, streamBits_cons, streamBits_nil, List.append_nil,
      State.sentBits, List.append_assoc]
    congr 1
    have c0 := hclean 0
    have c1 := hclean 1
    have c2 := hclean 2
    have c3 := hclean 3
    have c4 := hclean 4
    have c5 := hclean 5
    have c6 := hclean 6
    clear hclean
    simp only [byteBits]
    generalize s.txFill.toNat = f at *
    interval_cases f <;> simp_all

/-! ## GetBit -/

/-- `GetBit` writes the receive buffer and `in_pos`, nothing else (R142). -/
theorem getBit_frame (s : State) :
    s.getBit.2 = { s with rxBuf := s.getBit.2.rxBuf, rxCnt := s.getBit.2.rxCnt, rxEnd := s.getBit.2.rxEnd,
                          inPos := s.getBit.2.inPos } := by
  unfold State.getBit State.inByte State.shiftRx
  split
  · split
    · rfl
    · cases s.inp[s.inPos]? <;> rfl
  · rfl

/-- The delivered positions of the receive buffer are 0 and at most eight bits are left (10_state.md R57 f). -/
abbrev State.RxClean (s : State) : Prop :=
  s.rxCnt.toNat ≤ 8 ∧ s.rxBuf.toNat % 2 ^ (8 - s.rxCnt.toNat) = 0

theorem getLsbD_shiftLeft_one (x : Byte) (i : Nat) (hi : i < 8) :
    (x <<< 1).getLsbD i = (decide (1 ≤ i) && x.getLsbD (i - 1)) := by
  rw [BitVec.getLsbD_shiftLeft]
  rcases i with _ | i
  · simp
  · simp [hi]

/-- Shifting delivers the first of the bits left in the buffer (R142). -/
theorem shiftRx_spec {s : State} (h0 : s.rxCnt ≠ 0#4) (hclean : s.RxClean) :
    (byteBits s.rxBuf).take s.rxCnt.toNat =
      s.shiftRx.1 :: (byteBits s.shiftRx.2.rxBuf).take s.shiftRx.2.rxCnt.toNat ∧ s.shiftRx.2.RxClean := by
  obtain ⟨h8, hc⟩ := hclean
  rw [low_bits_zero] at hc
  have hne : s.rxCnt.toNat ≠ 0 := fun h' => h0 (BitVec.eq_of_toNat_eq h')
  have hcnt : (s.rxCnt - 1#4).toNat = s.rxCnt.toNat - 1 := by
    simp [BitVec.toNat_sub]; omega
  simp only [State.shiftRx, State.RxClean, hcnt]
  refine ⟨?_, by omega, ?_⟩
  · simp only [byteBits]
    rw [getLsbD_shiftLeft_one _ 7 (by omega), getLsbD_shiftLeft_one _ 6 (by omega), getLsbD_shiftLeft_one _ 5 (by omega),
      getLsbD_shiftLeft_one _ 4 (by omega), getLsbD_shiftLeft_one _ 3 (by omega), getLsbD_shiftLeft_one _ 2 (by omega),
      getLsbD_shiftLeft_one _ 1 (by omega), getLsbD_shiftLeft_one _ 0 (by omega)]
    generalize s.rxCnt.toNat = c at *
    interval_cases c <;> simp_all
  · rw [low_bits_zero]
    intro i hi
    rw [getLsbD_shiftLeft_one _ _ (by omega)]
    by_cases h : 1 ≤ i
    · rw [hc (i - 1) (by omega)]; simp
    · simp [h]

/-- `GetBit` when it has to fetch a byte and there is one (R142). -/
theorem getBit_refill {s : State} (h0 : s.rxCnt = 0#4) (he : s.rxEnd = false) (hp : s.inPos < s.inp.length) :
    ∃ t : State, s.getBit = t.shiftRx ∧ t.rxBuf = s.inp[s.inPos] ∧ t.rxCnt = 8#4 ∧ t.inp = s.inp ∧
      t.inPos = s.inPos + 1 ∧ t.rxEnd = false := by
  refine ⟨{ s with inPos := s.inPos + 1, rxBuf := s.inp[s.inPos], rxCnt := 8#4 }, ?_, rfl, rfl, rfl, rfl, he⟩
  simp [State.getBit, h0, he, State.inByte, List.getElem?_eq_getElem hp]

/-- `GetBit` delivers the first waiting bit, 0 when none waits, and takes it away; the buffer stays clean
(R142). -/
theorem getBit_spec {s : State} (hclean : s.RxClean) :
    s.getBit.1 = s.waitingBits.headD false ∧ s.getBit.2.waitingBits = s.waitingBits.tail ∧ s.getBit.2.RxClean := by
  by_cases h0 : s.rxCnt = 0#4
  · by_cases he : s.rxEnd = true
    · simp [State.getBit, h0, he, State.waitingBits, State.RxClean]
      simpa [State.RxClean, h0] using hclean
    · by_cases hp : s.inPos < s.inp.length
      · obtain ⟨t, hg, ht1, ht2, ht3, ht4, ht5⟩ := getBit_refill h0 (by simpa using he) hp
        have htc : t.RxClean := by
          rw [State.RxClean, ht2]
          exact ⟨Nat.le_refl _, Nat.mod_one _⟩
        obtain ⟨h1, h2⟩ := shiftRx_spec (by rw [ht2]; decide) htc
        have hw : s.waitingBits = (byteBits t.rxBuf).take t.rxCnt.toNat ++ streamBits (t.inp.drop t.inPos) := by
          have hd : s.inp.drop s.inPos = s.inp[s.inPos] :: s.inp.drop (s.inPos + 1) := List.drop_eq_getElem_cons hp
          rw [ht2, List.take_of_length_le (by simp), State.waitingBits, h0, ht1, ht3, ht4, if_neg he, hd]
          rfl
        rw [hg, hw, h1]
        refine ⟨rfl, ?_, h2⟩
        have h3 : t.shiftRx.2.rxEnd = false := ht5
        simp only [State.waitingBits, h3]
        rfl
      · have hin : s.inByte = (none, s) := by
          simp [State.inByte, List.getElem?_eq_none (Nat.le_of_not_lt hp)]
        have hd : s.inp.drop s.inPos = [] := List.drop_eq_nil_of_le (Nat.le_of_not_lt hp)
        simp [State.getBit, h0, he, hin, State.waitingBits, hd, State.RxClean]
        simpa [State.RxClean, h0] using hclean
  · have hg : s.getBit = s.shiftRx := by simp [State.getBit, h0]
    obtain ⟨h1, h2⟩ := shiftRx_spec h0 hclean
    rw [hg]
    refine ⟨?_, ?_, h2⟩
    · simp [State.waitingBits, h1]
    · simp only [State.waitingBits, h1]
      simp [State.shiftRx]

end Sys2Proof.Machine
end

