-- ==== Sys2Proof/Laws/Interval.lean ====
section
/-! SUPPORT. The laws of the interval arithmetic: what narrowing, classifying and rescaling do, and that
renormalization ends (42_encoder.md R160 to R165, 43_decoder.md R190). -/

namespace Sys2Proof.Machine

/-- A proper interval: `low <= high <= TOP` (10_state.md R57 a). -/
structure Interval.Proper (iv : Interval) : Prop where
  ordered : iv.low ≤ iv.high
  bounded : iv.high ≤ Config.TOP

theorem State.encInterval_proper {s : State} (h : s.encLow.toNat ≤ s.encHigh.toNat) : s.encInterval.Proper :=
  ⟨h, Nat.le_of_lt_succ s.encHigh.isLt⟩

theorem State.decInterval_proper {s : State} (h : s.decLow.toNat ≤ s.decHigh.toNat) : s.decInterval.Proper :=
  ⟨h, Nat.le_of_lt_succ s.decHigh.isLt⟩

/-- Storing a proper interval loses nothing (00_scope.md R13). -/
theorem Interval.Proper.stored {iv : Interval} (h : iv.Proper) :
    (BitVec.ofNat 16 iv.low).toNat = iv.low ∧ (BitVec.ofNat 16 iv.high).toNat = iv.high := by
  obtain ⟨h1, h2⟩ := h
  rw [Config.TOP_eq] at h2
  rw [BitVec.toNat_ofNat, BitVec.toNat_ofNat, Nat.mod_eq_of_lt (by omega), Nat.mod_eq_of_lt (by omega)]
  exact ⟨rfl, rfl⟩

theorem setEncInterval_encInterval (s : State) {iv : Interval} (h : iv.Proper) :
    (s.setEncInterval iv).encInterval = iv := by
  obtain ⟨h1, h2⟩ := h.stored
  simp [State.encInterval, State.setEncInterval, h1, h2]

theorem setDecInterval_decInterval (s : State) {iv : Interval} (h : iv.Proper) :
    (s.setDecInterval iv).decInterval = iv := by
  obtain ⟨h1, h2⟩ := h.stored
  simp [State.decInterval, State.setDecInterval, h1, h2]

theorem Interval.full_proper : Interval.full.Proper := ⟨by decide, by decide⟩

/-! ## Class (R161) -/

/-- When no case applies (R161). -/
theorem Interval.scaling_none_iff {iv : Interval} :
    iv.scaling = none ↔ iv.low < Config.HALF ∧ Config.HALF ≤ iv.high ∧ (iv.low < Config.QUARTER ∨ Config.THREEQ ≤ iv.high) := by
  rw [Interval.scaling]
  split_ifs <;> simp [Config.HALF_eq, Config.QUARTER_eq, Config.THREEQ_eq] at * <;> omega

theorem Interval.scaling_e1 {iv : Interval} : iv.scaling = some .e1 ↔ iv.high < Config.HALF := by
  rw [Interval.scaling]
  split_ifs <;> simp_all

theorem Interval.scaling_e2 {iv : Interval} (h : iv.low ≤ iv.high) : iv.scaling = some .e2 ↔ Config.HALF ≤ iv.low := by
  rw [Interval.scaling]
  split_ifs <;> simp [Config.HALF_eq, Config.QUARTER_eq, Config.THREEQ_eq] at * <;> omega

theorem Interval.scaling_e3 {iv : Interval} :
    iv.scaling = some .e3 ↔
      iv.low < Config.HALF ∧ Config.HALF ≤ iv.high ∧ Config.QUARTER ≤ iv.low ∧ iv.high < Config.THREEQ := by
  rw [Interval.scaling]
  split_ifs <;> simp [Config.HALF_eq, Config.QUARTER_eq, Config.THREEQ_eq] at * <;> omega

/-- In each case the offset can be subtracted and no bit is lost by the doubling (R162). -/
theorem Interval.scaling_room {iv : Interval} (h : iv.Proper) {k : Scaling} (hk : iv.scaling = some k) :
    k.off ≤ iv.low ∧ iv.high - k.off < Config.HALF := by
  obtain ⟨h1, h2⟩ := h
  cases k with
  | e1 => rw [Interval.scaling_e1] at hk; simp [Scaling.off] at *; omega
  | e2 => rw [Interval.scaling_e2 h1] at hk; simp [Scaling.off] at *; omega
  | e3 => rw [Interval.scaling_e3] at hk; simp [Scaling.off] at *; omega

/-! ## Rescale (R162) -/

theorem Interval.rescale_proper {iv : Interval} (h : iv.Proper) {k : Scaling} (hk : iv.scaling = some k) :
    (iv.rescale k).Proper := by
  obtain ⟨h3, h4⟩ := Interval.scaling_room h hk
  obtain ⟨h1, h2⟩ := h
  simp at h4
  constructor <;> simp [Interval.rescale] <;> omega

/-- The new range is exactly twice the old (R162). -/
theorem Interval.rescale_range {iv : Interval} (h : iv.Proper) {k : Scaling} (hk : iv.scaling = some k) :
    (iv.rescale k).range = 2 * iv.range := by
  obtain ⟨h3, h4⟩ := Interval.scaling_room h hk
  obtain ⟨h1, h2⟩ := h
  simp only [Interval.rescale, Interval.range]
  omega

/-! ## The loop (R165) -/

theorem Interval.settle_proper (fuel : Nat) {iv : Interval} (h : iv.Proper) : (iv.settle fuel).2.Proper := by
  induction fuel generalizing iv with
  | zero => exact h
  | succ n ih =>
    rw [Interval.settle]
    split
    · exact h
    · next k hk => exact ih (Interval.rescale_proper h hk)

theorem Interval.settle_length (fuel : Nat) (iv : Interval) : (iv.settle fuel).1.length ≤ fuel := by
  induction fuel generalizing iv with
  | zero => exact Nat.le_refl _
  | succ n ih =>
    rw [Interval.settle]
    split
    · exact Nat.zero_le _
    · next k hk => exact Nat.succ_le_succ (ih _)

/-- With enough doublings to fill the whole range, the loop ends because no case applies. -/
theorem Interval.settle_none {fuel : Nat} {iv : Interval} (h : iv.Proper) (hf : Config.RANGE ≤ iv.range * 2 ^ fuel) :
    (iv.settle fuel).2.scaling = none := by
  induction fuel generalizing iv with
  | zero =>
    obtain ⟨h1, h2⟩ := h
    simp only [Interval.settle, Interval.scaling_none_iff]
    simp [Interval.range] at *
    omega
  | succ n ih =>
    rw [Interval.settle]
    split
    · assumption
    · next k hk =>
      refine ih (Interval.rescale_proper h hk) ?_
      rw [Interval.rescale_range h hk]
      rw [Nat.pow_succ] at hf
      nlinarith [hf]

/-- `P` iterations are always enough (R165). -/
theorem Interval.settle_P_none {iv : Interval} (h : iv.Proper) : (iv.settle Config.P).2.scaling = none :=
  Interval.settle_none h (by simp [Interval.range])

/-! ## Narrow (R160) -/

theorem Interval.range_pos (iv : Interval) : 1 ≤ iv.range := Nat.succ_le_succ (Nat.zero_le _)

/-- A weight of at least 1 keeps at least one value when the range is at least the total (R160 b). -/
theorem narrow_offsets_lt {r lo hi t : Nat} (ht : 1 ≤ t) (hr : t ≤ r) (hlo : lo < hi) :
    r * lo / t + 1 ≤ r * hi / t := by
  have h1 : r * lo + t ≤ r * hi := by nlinarith
  calc r * lo / t + 1 = (r * lo + t) / t := by rw [Nat.add_div_right _ (by omega)]
    _ ≤ r * hi / t := Nat.div_le_div_right h1

theorem narrow_offset_le {r c t : Nat} (hc : c ≤ t) : r * c / t ≤ r := by
  apply Nat.div_le_of_le_mul
  rw [Nat.mul_comm t r]
  exact Nat.mul_le_mul_left r hc

/-- The new interval is proper and inside the old (R160 a, b). -/
theorem Interval.narrow_proper {iv : Interval} (h : iv.Proper) {lo hi t : Nat} (ht : 1 ≤ t) (hr : t ≤ iv.range)
    (hlo : lo < hi) (hhi : hi ≤ t) :
    (iv.narrow lo hi t).Proper ∧ iv.low ≤ (iv.narrow lo hi t).low ∧ (iv.narrow lo hi t).high ≤ iv.high := by
  obtain ⟨h1, h2⟩ := h
  have h3 := narrow_offsets_lt ht hr hlo
  have h4 := narrow_offset_le (r := iv.range) hhi
  simp only [Interval.narrow]
  simp only [Interval.range] at *
  generalize (iv.high - iv.low + 1) * lo / t = a at *
  generalize (iv.high - iv.low + 1) * hi / t = b at *
  exact ⟨⟨by simp only; omega, by simp only; omega⟩, by omega, by omega⟩

/-- The state's sums are the bounds `Narrow` needs (R160). -/
theorem State.narrowFor_proper {s : State} (hm : Memory.wf s.freq = true) {iv : Interval} (h : iv.Proper)
    (ht : 1 ≤ s.total) (hr : s.total ≤ iv.range) {sym : Nat} (hs : sym ≤ s.eosSym) (hw : s.weight sym ≠ 0#14) :
    (s.narrowFor iv sym).Proper ∧ iv.low ≤ (s.narrowFor iv sym).low ∧ (s.narrowFor iv sym).high ≤ iv.high := by
  refine Interval.narrow_proper h ht hr ?_ ?_
  · have := Memory.cum_succ hm sym
    have : (Memory.read s.freq sym).toNat ≠ 0 := fun h0 => hw (BitVec.eq_of_toNat_eq h0)
    simp only [State.cum]
    omega
  · exact Memory.cum_mono _ (by omega)

/-- An interval to which no case applies is wide enough for every legal total (42_encoder.md R169). -/
theorem Interval.range_of_settled {iv : Interval} (hn : iv.scaling = none) :
    Config.QUARTER + 2 ≤ iv.range := by
  rw [Interval.scaling_none_iff] at hn
  simp [Interval.range] at *
  omega

/-! ## Scaled (43_decoder.md R190, R195) -/

/-- The scaled value is below the total (R190). -/
theorem Interval.scaled_lt {iv : Interval} {v t : Nat} (ht : 1 ≤ t) (h1 : iv.low ≤ v) (h2 : v ≤ iv.high) :
    iv.scaled v t < t := by
  have h3 : v - iv.low + 1 ≤ iv.range := by simp only [Interval.range]; omega
  have h4 : 1 ≤ (v - iv.low + 1) * t := Nat.mul_pos (by omega) ht
  rw [Interval.scaled, Nat.div_lt_iff_lt_mul (Interval.range_pos iv)]
  have h5 : (v - iv.low + 1) * t ≤ iv.range * t := Nat.mul_le_mul_right t h3
  rw [Nat.mul_comm t]
  omega

/-- A value lies in the sub-interval of `[lo, hi)` exactly when its scaled value lies in `[lo, hi)` (R195). -/
theorem Interval.scaled_mem_iff {iv : Interval} {v t lo hi : Nat} (ht : 1 ≤ t) (h1 : iv.low ≤ v) :
    (lo ≤ iv.scaled v t ∧ iv.scaled v t < hi) ↔
      ((iv.narrow lo hi t).low ≤ v ∧ v + 1 ≤ iv.low + iv.range * hi / t) := by
  have hr := Interval.range_pos iv
  obtain ⟨d, rfl⟩ : ∃ d, v = iv.low + d := ⟨v - iv.low, by omega⟩
  have hd : 1 ≤ (d + 1) * t := Nat.mul_pos (by omega) ht
  simp only [Interval.scaled, Interval.narrow, Nat.add_sub_cancel_left]
  rw [Nat.le_div_iff_mul_le hr, Nat.div_lt_iff_lt_mul hr]
  have e1 : iv.low + iv.range * lo / t ≤ iv.low + d ↔ iv.range * lo < (d + 1) * t := by
    rw [Nat.add_le_add_iff_left, ← Nat.lt_succ_iff, Nat.div_lt_iff_lt_mul ht]
  have e2 : iv.low + d + 1 ≤ iv.low + iv.range * hi / t ↔ (d + 1) * t ≤ iv.range * hi := by
    rw [Nat.add_assoc, Nat.add_le_add_iff_left, Nat.le_div_iff_mul_le ht]
  rw [e1, e2, Nat.mul_comm lo, Nat.mul_comm hi]
  omega

end Sys2Proof.Machine
end

