-- ==== Sys2Proof/Laws/Decoder.lean ====
section
/-! SUPPORT. The laws of the decoder's operations: the first window and the renormalization loop (43_decoder.md
R191, R192, R195). -/

namespace Sys2Proof.Machine

/-- `t` differs from `s` at most in what the decoder writes while it reads bits: its interval and value, the
receive buffer and `in_pos`, which only moves forward and not past the end (20_memory.md R73). -/
structure DecoderWrote (s t : State) : Prop where
  frame : t = { s with decLow := t.decLow, decHigh := t.decHigh, decValue := t.decValue, rxBuf := t.rxBuf,
                       rxCnt := t.rxCnt, rxEnd := t.rxEnd, inPos := t.inPos }
  forward : s.inPos ≤ t.inPos
  inRange : s.inPos ≤ s.inp.length → t.inPos ≤ s.inp.length

theorem DecoderWrote.refl (s : State) : DecoderWrote s s := ⟨rfl, Nat.le_refl _, id⟩

theorem DecoderWrote.inp {s t : State} (h : DecoderWrote s t) : t.inp = s.inp := by rw [h.frame]

theorem DecoderWrote.trans {s t u : State} (h1 : DecoderWrote s t) (h2 : DecoderWrote t u) : DecoderWrote s u :=
  ⟨by rw [h2.frame, h1.frame], h1.forward.trans h2.forward,
    fun h => h1.inp ▸ h2.inRange (h1.inp.symm ▸ h1.inRange h)⟩

theorem getBit_inPos (s : State) : s.inPos ≤ s.getBit.2.inPos ∧ (s.inPos ≤ s.inp.length → s.getBit.2.inPos ≤ s.inp.length) := by
  unfold State.getBit State.inByte State.shiftRx
  split
  · split
    · exact ⟨Nat.le_refl _, id⟩
    · rcases h : s.inp[s.inPos]? with _ | v
      · exact ⟨Nat.le_refl _, id⟩
      · have := (List.getElem?_eq_some_iff.1 h).1
        exact ⟨Nat.le_succ _, fun _ => this⟩
  · exact ⟨Nat.le_refl _, id⟩

theorem getBit_wrote (s : State) : DecoderWrote s s.getBit.2 :=
  ⟨by rw [getBit_frame], (getBit_inPos s).1, (getBit_inPos s).2⟩

theorem setDecInterval_wrote (s : State) (iv : Interval) : DecoderWrote s (s.setDecInterval iv) :=
  ⟨rfl, Nat.le_refl _, id⟩

theorem setValue_wrote (s : State) (v : Bound) : DecoderWrote s { s with decValue := v } :=
  ⟨rfl, Nat.le_refl _, id⟩

@[simp] theorem setDecInterval_waitingBits (s : State) (iv : Interval) :
    (s.setDecInterval iv).waitingBits = s.waitingBits := rfl

@[simp] theorem setValue_waitingBits (s : State) (v : Bound) :
    ({ s with decValue := v } : State).waitingBits = s.waitingBits := rfl

/-! ## How far reading moves (41_bit_buffers.md R142) -/

theorem waitingBits_length {s : State} (h : s.rxCnt.toNat ≤ 8) :
    s.waitingBits.length = s.rxCnt.toNat + (if s.rxEnd then 0 else 8 * (s.inp.length - s.inPos)) := by
  rw [State.waitingBits, List.length_append, List.length_take, byteBits_length]
  split
  · simp
    omega
  · rw [streamBits_length, List.length_drop]
    omega

/-- `t` is where reading `n` bits from `s` leads: bytes are taken only for bits not yet in the buffer, and `rx_end` is
set exactly when a bit was wanted past the end. -/
structure Took (n : Nat) (s t : State) : Prop where
  pos : t.inPos = s.inPos + (if s.rxEnd then 0 else min ((n - s.rxCnt.toNat + 7) / 8) (s.inp.length - s.inPos))
  atEnd : t.rxEnd = true ↔ s.rxEnd = true ∨ s.waitingBits.length < n

theorem Took.zero (s : State) : Took 0 s s := ⟨by split <;> simp, by simp⟩

/-- What one bit does to the counters: by the four cases of R142. -/
theorem getBit_cases {s : State} (hclean : s.RxClean) :
    (s.rxEnd = true ∧ s.getBit.2.rxEnd = true ∧ s.getBit.2.inPos = s.inPos) ∨
    (s.rxEnd = false ∧ s.rxCnt.toNat = 0 ∧ s.inp.length ≤ s.inPos ∧ s.getBit.2.rxEnd = true ∧
      s.getBit.2.inPos = s.inPos) ∨
    (s.rxEnd = false ∧ s.rxCnt.toNat = 0 ∧ s.inPos < s.inp.length ∧ s.getBit.2.rxEnd = false ∧
      s.getBit.2.inPos = s.inPos + 1 ∧ s.getBit.2.rxCnt.toNat = 7) ∨
    (s.rxEnd = false ∧ 1 ≤ s.rxCnt.toNat ∧ s.getBit.2.rxEnd = false ∧ s.getBit.2.inPos = s.inPos ∧
      s.getBit.2.rxCnt.toNat = s.rxCnt.toNat - 1) := by
  cases he : s.rxEnd with
  | true =>
    refine Or.inl ⟨rfl, ?_⟩
    by_cases h0 : s.rxCnt = 0#4 <;> simp [State.getBit, State.shiftRx, h0, he]
  | false =>
    refine Or.inr ?_
    by_cases h0 : s.rxCnt = 0#4
    · by_cases hp : s.inPos < s.inp.length
      · exact Or.inr (Or.inl ⟨rfl, by rw [h0]; rfl, hp, by simp [State.getBit, State.inByte, State.shiftRx, h0, he, hp]⟩)
      · exact Or.inl ⟨rfl, by rw [h0]; rfl, Nat.le_of_not_lt hp,
          by simp [State.getBit, State.inByte, h0, he, List.getElem?_eq_none (Nat.le_of_not_lt hp)]⟩
    · have h1 : s.rxCnt.toNat ≠ 0 := fun h => h0 (BitVec.eq_of_toNat_eq h)
      have h8 := hclean.1
      refine Or.inr (Or.inr ⟨rfl, by omega, ?_⟩)
      simp [State.getBit, State.shiftRx, h0, he, BitVec.toNat_sub]
      omega

/-- One bit, then `n`. -/
theorem Took.succ {n : Nat} {s t : State} (hclean : s.RxClean) (h : Took n s.getBit.2 t) : Took (n + 1) s t := by
  have hl := waitingBits_length hclean.1
  have hinp : s.getBit.2.inp = s.inp := by rw [getBit_frame]
  have hg : s.getBit.2.waitingBits.length = s.waitingBits.length - 1 := by
    rw [(getBit_spec hclean).2.1, List.length_tail]
  obtain ⟨h1, h2⟩ := h
  rw [hinp] at h1
  rw [hg] at h2
  rcases getBit_cases hclean with ⟨e1, e2, e3⟩ | ⟨e1, e2, e3, e4, e5⟩ | ⟨e1, e2, e3, e4, e5, e6⟩ | ⟨e1, e2, e3, e4, e5⟩
  · rw [e2, e3, if_pos rfl] at h1
    rw [e2] at h2
    exact ⟨by rw [e1, if_pos rfl, h1], by rw [h2, e1]; simp⟩
  · rw [e1, if_neg Bool.false_ne_true] at hl
    rw [e4, e5, if_pos rfl] at h1
    rw [e4] at h2
    refine ⟨?_, ?_⟩
    · rw [e1, if_neg Bool.false_ne_true, h1]
      omega
    · rw [h2]
      simp
      omega
  · rw [e1, if_neg Bool.false_ne_true] at hl
    rw [e4, e5, e6, if_neg Bool.false_ne_true] at h1
    rw [e4] at h2
    refine ⟨?_, ?_⟩
    · rw [e1, if_neg Bool.false_ne_true, h1]
      omega
    · rw [h2, e1]
      simp
      omega
  · rw [e1, if_neg Bool.false_ne_true] at hl
    rw [e3, e4, e5, if_neg Bool.false_ne_true] at h1
    rw [e3] at h2
    refine ⟨?_, ?_⟩
    · have e : n - (s.rxCnt.toNat - 1) + 7 = n + 1 - s.rxCnt.toNat + 7 := by omega
      rw [e1, if_neg Bool.false_ne_true, h1, e]
    · rw [h2, e1]
      simp
      omega

/-! ## Windows of bits -/

theorem window_zero (l : List Bool) : window 0 l = [] := by simp [window]

theorem window_succ (n : Nat) (l : List Bool) : window (n + 1) l = l.headD false :: window n l.tail := by
  cases l with
  | nil => simp [window, List.replicate_succ]
  | cons b l => simp [window]

theorem window_length (n : Nat) (l : List Bool) : (window n l).length = n := by
  simp [window]
  omega

theorem bitsNat_nil : bitsNat [] = 0 := rfl

theorem bitsNat_append_one (l : List Bool) (b : Bool) : bitsNat (l ++ [b]) = 2 * bitsNat l + bitNat b := by
  simp [bitsNat, List.foldl_append]

theorem bitNat_le (b : Bool) : bitNat b ≤ 1 := by cases b <;> decide

theorem foldl_bits (l : List Bool) (v : Nat) :
    l.foldl (fun v b => 2 * v + bitNat b) v = v * 2 ^ l.length + bitsNat l := by
  induction l generalizing v with
  | nil => simp [bitsNat]
  | cons b l ih =>
    simp only [List.foldl_cons, bitsNat, List.length_cons]
    rw [ih, ih (2 * 0 + bitNat b)]
    ring

theorem bitsNat_cons (b : Bool) (l : List Bool) : bitsNat (b :: l) = bitNat b * 2 ^ l.length + bitsNat l := by
  have := foldl_bits l (2 * 0 + bitNat b)
  simpa [bitsNat] using this

theorem bitsNat_append (l l' : List Bool) : bitsNat (l ++ l') = bitsNat l * 2 ^ l'.length + bitsNat l' := by
  rw [bitsNat, List.foldl_append, foldl_bits]
  rfl

theorem bitsNat_lt (l : List Bool) : bitsNat l < 2 ^ l.length := by
  induction l with
  | nil => decide
  | cons b l ih =>
    have := bitNat_le b
    rw [bitsNat_cons, List.length_cons, Nat.pow_succ]
    nlinarith

/-! ## The fill of DEC_INIT (R192) -/

/-- `n` repetitions of `v <- 2 * v + GetBit()` take the first `n` waiting bits, padding included. -/
theorem fillValue_spec (n v : Nat) {s : State} (hclean : s.RxClean) :
    (State.fillValue n v s).1 = v * 2 ^ n + bitsNat (window n s.waitingBits) ∧
    (State.fillValue n v s).2.waitingBits = s.waitingBits.drop n ∧ (State.fillValue n v s).2.RxClean ∧
    DecoderWrote s (State.fillValue n v s).2 := by
  induction n generalizing v s with
  | zero => exact ⟨by simp [State.fillValue, window_zero, bitsNat_nil], rfl, hclean, DecoderWrote.refl s⟩
  | succ n ih =>
    obtain ⟨h1, h2, h3⟩ := getBit_spec hclean
    obtain ⟨g1, g2, g3, g4⟩ := ih (2 * v + bitNat s.getBit.1) h3
    rw [State.fillValue]
    refine ⟨?_, ?_, g3, (getBit_wrote s).trans g4⟩
    · rw [g1, h2, window_succ, bitsNat_cons, window_length, h1]
      ring
    · rw [g2, h2, List.drop_tail]

/-- The fill takes `n` bits (R192). -/
theorem fillValue_took (n v : Nat) {s : State} (hclean : s.RxClean) : Took n s (State.fillValue n v s).2 := by
  induction n generalizing v s with
  | zero => exact Took.zero s
  | succ n ih => exact Took.succ hclean (ih _ (getBit_spec hclean).2.2)

/-- The fill writes the receive buffer and `in_pos`, nothing else (R192). -/
theorem fillValue_frame (n v : Nat) (s : State) :
    (State.fillValue n v s).2 =
      { s with rxBuf := (State.fillValue n v s).2.rxBuf, rxCnt := (State.fillValue n v s).2.rxCnt,
               rxEnd := (State.fillValue n v s).2.rxEnd, inPos := (State.fillValue n v s).2.inPos } := by
  induction n generalizing v s with
  | zero => rfl
  | succ n ih =>
    rw [State.fillValue, ih, getBit_frame]

/-! ## DecRenorm (R191) -/

/-- One iteration: the interval is rescaled, the value takes one bit through the same map and stays within. -/
theorem decShift_spec {s : State} (hclean : s.RxClean) (hp : s.decInterval.Proper) {k : Scaling}
    (hk : s.decInterval.scaling = some k)
    (hv : s.decInterval.low ≤ s.decValue.toNat ∧ s.decValue.toNat ≤ s.decInterval.high) :
    (s.decShift k).decInterval = s.decInterval.rescale k ∧
    (s.decShift k).decValue.toNat = 2 * (s.decValue.toNat - k.off) + bitNat (s.waitingBits.headD false) ∧
    (s.decInterval.rescale k).low ≤ (s.decShift k).decValue.toNat ∧
    (s.decShift k).decValue.toNat ≤ (s.decInterval.rescale k).high ∧
    (s.decShift k).waitingBits = s.waitingBits.tail ∧ (s.decShift k).RxClean ∧ DecoderWrote s (s.decShift k) := by
  obtain ⟨h1, h2, h3⟩ := getBit_spec hclean
  obtain ⟨r1, r2⟩ := Interval.scaling_room hp hk
  have hb := bitNat_le (s.waitingBits.headD false)
  have hiv := setDecInterval_decInterval s.getBit.2 (Interval.rescale_proper hp hk)
  have hval : (s.decShift k).decValue.toNat = 2 * (s.decValue.toNat - k.off) + bitNat (s.waitingBits.headD false) := by
    rw [State.decShift, h1, BitVec.toNat_ofNat]
    apply Nat.mod_eq_of_lt
    simp only [Config.HALF_eq] at r2
    omega
  refine ⟨hiv, hval, ?_, ?_, h2, h3, ?_⟩
  · rw [hval, Interval.rescale]
    simp only
    omega
  · rw [hval, Interval.rescale]
    simp only
    omega
  · exact ((getBit_wrote s).trans (setDecInterval_wrote _ _)).trans (setValue_wrote _ _)

/-- The whole loop: the trace is that of the bare interval, one bit is taken for each case, and the value stays
within the interval. -/
theorem decRenorm_spec (fuel : Nat) {s : State} (hclean : s.RxClean) (hp : s.decInterval.Proper)
    (hv : s.decInterval.low ≤ s.decValue.toNat ∧ s.decValue.toNat ≤ s.decInterval.high) :
    (decRenorm fuel s).decInterval = (s.decInterval.settle fuel).2 ∧
    (decRenorm fuel s).decValue.toNat = shiftValue (s.decInterval.settle fuel).1
      (window (s.decInterval.settle fuel).1.length s.waitingBits) s.decValue.toNat ∧
    (decRenorm fuel s).decInterval.low ≤ (decRenorm fuel s).decValue.toNat ∧
    (decRenorm fuel s).decValue.toNat ≤ (decRenorm fuel s).decInterval.high ∧
    (decRenorm fuel s).waitingBits = s.waitingBits.drop (s.decInterval.settle fuel).1.length ∧
    (decRenorm fuel s).RxClean ∧ DecoderWrote s (decRenorm fuel s) := by
  induction fuel generalizing s with
  | zero => exact ⟨rfl, by simp [Interval.settle, decRenorm, window_zero, shiftValue], hv.1, hv.2, rfl, hclean, DecoderWrote.refl s⟩
  | succ fuel ih =>
    rw [decRenorm, Interval.settle]
    cases hk : s.decInterval.scaling with
    | none => exact ⟨rfl, by simp [shiftValue], hv.1, hv.2, rfl, hclean, DecoderWrote.refl s⟩
    | some k =>
      obtain ⟨h1, h2, h3, h4, h5, h6, h7⟩ := decShift_spec hclean hp hk hv
      obtain ⟨g1, g2, g3, g4, g5, g6, g7⟩ := ih (s := s.decShift k) h6 (by rw [h1]; exact Interval.rescale_proper hp hk)
        (by rw [h1]; exact ⟨h3, h4⟩)
      simp only [h1, h2, h5] at g1 g2 g5
      refine ⟨g1, ?_, g3, g4, ?_, g6, h7.trans g7⟩
      · simp only [List.length_cons, window_succ, shiftValue]
        exact g2
      · simp only [List.length_cons]
        rw [g5, List.drop_tail]

/-- The loop takes one bit for each case it goes through (R191). -/
theorem decRenorm_took (fuel : Nat) {s : State} (hclean : s.RxClean) (hp : s.decInterval.Proper) :
    Took (s.decInterval.settle fuel).1.length s (decRenorm fuel s) := by
  induction fuel generalizing s with
  | zero => exact Took.zero s
  | succ fuel ih =>
    rw [decRenorm, Interval.settle]
    cases hk : s.decInterval.scaling with
    | none => exact Took.zero s
    | some k =>
      have hiv : (s.decShift k).decInterval = s.decInterval.rescale k :=
        setDecInterval_decInterval s.getBit.2 (Interval.rescale_proper hp hk)
      have h := ih (s := s.decShift k) (getBit_spec hclean).2.2 (by rw [hiv]; exact Interval.rescale_proper hp hk)
      rw [hiv] at h
      exact Took.succ hclean ⟨h.pos, h.atEnd⟩

/-! ## What the decoder writes, in every state (20_memory.md R73) -/

theorem fillValue_wrote (n v : Nat) (s : State) : DecoderWrote s (State.fillValue n v s).2 := by
  induction n generalizing v s with
  | zero => exact DecoderWrote.refl s
  | succ n ih => exact (getBit_wrote s).trans (ih _ _)

theorem decShift_wrote (s : State) (k : Scaling) : DecoderWrote s (s.decShift k) :=
  ((getBit_wrote s).trans (setDecInterval_wrote _ _)).trans (setValue_wrote _ _)

theorem decRenorm_wrote (fuel : Nat) (s : State) : DecoderWrote s (decRenorm fuel s) := by
  induction fuel generalizing s with
  | zero => exact DecoderWrote.refl s
  | succ fuel ih =>
    rw [decRenorm]
    split
    · exact DecoderWrote.refl s
    · exact (decShift_wrote s _).trans (ih _)

end Sys2Proof.Machine
end

