-- ==== Sys2Proof/Laws/Encoder.lean ====
section
/-! SUPPORT. The laws of the encoder's operations: bit emission and the renormalization loop (42_encoder.md R163 to
R165, 60_exceptions.md R232). -/

namespace Sys2Proof.Machine

/-- `t` differs from `s` at most in what the encoder writes: its interval, the pending counter, the transmit
buffer and `out`, which is only extended (20_memory.md R73). -/
structure EncoderWrote (s t : State) : Prop where
  frame : t = { s with encLow := t.encLow, encHigh := t.encHigh, encPend := t.encPend, txBuf := t.txBuf,
                       txFill := t.txFill, out := t.out }
  extends_out : s.out <+: t.out

theorem EncoderWrote.refl (s : State) : EncoderWrote s s := ⟨rfl, List.prefix_refl _⟩

theorem EncoderWrote.trans {s t u : State} (h1 : EncoderWrote s t) (h2 : EncoderWrote t u) : EncoderWrote s u :=
  ⟨by rw [h2.frame, h1.frame], h1.extends_out.trans h2.extends_out⟩

theorem putBit_wrote (s : State) (b : Bool) : EncoderWrote s (s.putBit b) := by
  refine ⟨by rw [putBit_frame], ?_⟩
  unfold State.putBit
  dsimp only
  split
  · simp
  · exact List.prefix_refl _

theorem putBits_wrote (s : State) (b : Bool) (n : Nat) : EncoderWrote s (s.putBits b n) := by
  induction n generalizing s with
  | zero => exact EncoderWrote.refl s
  | succ n ih => exact (putBit_wrote s b).trans (ih _)

theorem setEncInterval_wrote (s : State) (iv : Interval) : EncoderWrote s (s.setEncInterval iv) :=
  ⟨rfl, List.prefix_refl _⟩

theorem setPend_wrote (s : State) (p : BitVec 32) : EncoderWrote s { s with encPend := p } :=
  ⟨rfl, List.prefix_refl _⟩

/-- The writes of `CloseTx` are writes of the encoder's side (R141). -/
theorem closeTx_wrote (s : State) : EncoderWrote s s.closeTx := by
  refine ⟨by rw [closeTx_frame], ?_⟩
  unfold State.closeTx
  split <;> simp

@[simp] theorem setEncInterval_sentBits (s : State) (iv : Interval) : (s.setEncInterval iv).sentBits = s.sentBits := rfl

@[simp] theorem setPend_sentBits (s : State) (p : BitVec 32) : ({ s with encPend := p } : State).sentBits = s.sentBits := rfl

theorem txClean_congr {s t : State} (h : s.TxClean) (h2 : t.txBuf = s.txBuf) (h3 : t.txFill = s.txFill) :
    t.TxClean := by
  rw [State.TxClean, h2, h3]
  exact h

/-! ## EmitWithFollow (R163) -/

theorem emitWithFollow_spec {s : State} (hclean : s.TxClean) (b : Bool) :
    (s.emitWithFollow b).sentBits = s.sentBits ++ b :: List.replicate s.encPend.toNat (!b) ∧
    (s.emitWithFollow b).TxClean ∧ (s.emitWithFollow b).encPend = 0#32 ∧
    (s.emitWithFollow b).encInterval = s.encInterval ∧ EncoderWrote s (s.emitWithFollow b) := by
  obtain ⟨h1, h2⟩ := putBit_spec hclean b
  obtain ⟨h3, h4⟩ := putBits_spec h2 (!b) s.encPend.toNat
  refine ⟨?_, h4, rfl, ?_, ?_⟩
  · show ((s.putBit b).putBits (!b) s.encPend.toNat).sentBits = _
    rw [h3, h1, List.append_assoc]
    rfl
  · rw [State.emitWithFollow, putBits_frame, putBit_frame]
    rfl
  · exact ((putBit_wrote s b).trans (putBits_wrote _ _ _)).trans (setPend_wrote _ _)

/-- `EmitWithFollow` writes the transmit buffer, `out` and the pending counter, nothing else (R163). -/
theorem emitWithFollow_frame (s : State) (b : Bool) :
    s.emitWithFollow b = { s with txBuf := (s.emitWithFollow b).txBuf, txFill := (s.emitWithFollow b).txFill,
                                  out := (s.emitWithFollow b).out, encPend := 0#32 } := by
  rw [State.emitWithFollow, putBits_frame, putBit_frame]

/-! ## EncRenorm (R164) -/

/-- Below `PEND_MAX` the counter does not wrap (10_state.md R24). -/
theorem pend_succ {p : BitVec 32} (h : p.toNat < Config.PEND_MAX) : (p + 1#32).toNat = p.toNat + 1 := by
  have h' : p.toNat + 1 < 2 ^ 32 := Nat.add_lt_of_lt_sub h
  rw [BitVec.toNat_add, BitVec.toNat_ofNat]
  exact Nat.mod_eq_of_lt h'

/-- One iteration that does not overflow: what it emits, what stays pending, the interval it leaves. -/
theorem settleBit_spec {s : State} (hclean : s.TxClean) (hp : s.encInterval.Proper) {k : Scaling}
    (hk : s.encInterval.scaling = some k) (hfit : pendFits [k] s.encPend.toNat = true) :
    ∃ t, s.settleBit k = some t ∧ (t.setEncInterval (s.encInterval.rescale k)).TxClean ∧
      (t.setEncInterval (s.encInterval.rescale k)).encInterval = s.encInterval.rescale k ∧
      (t.setEncInterval (s.encInterval.rescale k)).sentBits = s.sentBits ++ (emission [k] s.encPend.toNat).1 ∧
      (t.setEncInterval (s.encInterval.rescale k)).encPend.toNat = (emission [k] s.encPend.toNat).2 ∧
      EncoderWrote s (t.setEncInterval (s.encInterval.rescale k)) := by
  have hiv := Interval.rescale_proper hp hk
  cases k with
  | e1 =>
    obtain ⟨h1, h2, h3, -, h5⟩ := emitWithFollow_spec hclean false
    refine ⟨_, rfl, txClean_congr h2 (setEncInterval_txBuf _ _) (setEncInterval_txFill _ _),
      setEncInterval_encInterval _ hiv, ?_, ?_, h5.trans (setEncInterval_wrote _ _)⟩
    · rw [setEncInterval_sentBits, h1]
      simp [emission]
    · rw [setEncInterval_encPend, h3]
      rfl
  | e2 =>
    obtain ⟨h1, h2, h3, -, h5⟩ := emitWithFollow_spec hclean true
    refine ⟨_, rfl, txClean_congr h2 (setEncInterval_txBuf _ _) (setEncInterval_txFill _ _),
      setEncInterval_encInterval _ hiv, ?_, ?_, h5.trans (setEncInterval_wrote _ _)⟩
    · rw [setEncInterval_sentBits, h1]
      simp [emission]
    · rw [setEncInterval_encPend, h3]
      rfl
  | e3 =>
    simp only [pendFits, Bool.and_true, decide_eq_true_eq] at hfit
    have key : s.settleBit .e3 = some { s with encPend := s.encPend + 1#32 } := by
      rw [State.settleBit, if_neg (Nat.ne_of_lt hfit)]
    have hpend := pend_succ hfit
    refine ⟨_, key, txClean_congr hclean (setEncInterval_txBuf _ _) (setEncInterval_txFill _ _),
      setEncInterval_encInterval _ hiv, ?_, ?_, ?_⟩
    · rw [setEncInterval_sentBits, setPend_sentBits, emission, emission, List.append_nil]
    · rw [setEncInterval_encPend, hpend, emission, emission]
    · exact (setPend_wrote s _).trans (setEncInterval_wrote _ _)

theorem emission_append (ks ks' : List Scaling) (p : Nat) :
    emission (ks ++ ks') p =
      ((emission ks p).1 ++ (emission ks' (emission ks p).2).1, (emission ks' (emission ks p).2).2) := by
  induction ks generalizing p with
  | nil => simp [emission]
  | cons k ks ih => cases k <;> simp [emission, ih]

theorem pendFits_append (ks ks' : List Scaling) (p : Nat) :
    pendFits (ks ++ ks') p = (pendFits ks p && pendFits ks' (emission ks p).2) := by
  induction ks generalizing p with
  | nil => simp [emission, pendFits]
  | cons k ks ih => cases k <;> simp [emission, pendFits, ih, Bool.and_assoc]

/-- Every case puts one bit out or leaves one more pending: one bit per rescaling (42_encoder.md R171). -/
theorem emission_count (ks : List Scaling) (p : Nat) :
    (emission ks p).1.length + (emission ks p).2 = ks.length + p := by
  induction ks generalizing p with
  | nil => simp [emission]
  | cons k ks ih =>
    cases k with
    | e1 => have := ih 0; simp [emission]; omega
    | e2 => have := ih 0; simp [emission]; omega
    | e3 => have := ih (p + 1); simp [emission]; omega

/-- A counter with room for one more than the number of iterations never overflows. -/
theorem pendFits_of_room {ks : List Scaling} {p : Nat} (h : p + ks.length ≤ Config.PEND_MAX) :
    pendFits ks p = true := by
  induction ks generalizing p with
  | nil => rfl
  | cons k ks ih =>
    simp only [List.length_cons] at h
    cases k with
    | e1 => exact ih (by omega)
    | e2 => exact ih (by omega)
    | e3 =>
      rw [pendFits, ih (by omega), Bool.and_true, decide_eq_true_eq]
      omega

/-- The whole loop when the counter has room: the trace is that of the bare interval, the bits are its
emission (R164). -/
theorem encRenorm_settled (fuel : Nat) {s : State} (hclean : s.TxClean) (hp : s.encInterval.Proper)
    (hfit : pendFits (s.encInterval.settle fuel).1 s.encPend.toNat = true) :
    ∃ t, encRenorm fuel s = .settled t ∧ EncoderWrote s t ∧ t.TxClean ∧
      t.encInterval = (s.encInterval.settle fuel).2 ∧
      t.sentBits = s.sentBits ++ (emission (s.encInterval.settle fuel).1 s.encPend.toNat).1 ∧
      t.encPend.toNat = (emission (s.encInterval.settle fuel).1 s.encPend.toNat).2 := by
  induction fuel generalizing s with
  | zero => exact ⟨s, rfl, EncoderWrote.refl s, hclean, rfl, by simp [Interval.settle, emission], rfl⟩
  | succ fuel ih =>
    rw [encRenorm]
    rw [Interval.settle] at hfit ⊢
    cases hk : s.encInterval.scaling with
    | none => exact ⟨s, rfl, EncoderWrote.refl s, hclean, rfl, by simp [emission], rfl⟩
    | some k =>
      rw [hk] at hfit
      have hfit' : pendFits ([k] ++ ((s.encInterval.rescale k).settle fuel).1) s.encPend.toNat = true := hfit
      rw [pendFits_append, Bool.and_eq_true] at hfit'
      obtain ⟨t, h1, h2, h3, h4, h5, h6⟩ := settleBit_spec hclean hp hk hfit'.1
      obtain ⟨u, g1, g2, g3, g4, g5, g6⟩ :=
        ih h2 (by rw [h3]; exact Interval.rescale_proper hp hk) (by rw [h3, h5]; exact hfit'.2)
      rw [h3, h5] at g5 g6
      rw [h3] at g4
      have he := emission_append [k] ((s.encInterval.rescale k).settle fuel).1 s.encPend.toNat
      rw [List.singleton_append] at he
      refine ⟨u, by simp only [h1]; exact g1, h6.trans g2, g3, g4, ?_, ?_⟩
      · simp only [he]
        rw [g5, h4, List.append_assoc]
      · simp only [he]
        exact g6

/-- The loop when an E3 step meets the full counter: it stops with the iterations before that step done and
nothing else (60_exceptions.md R232). -/
theorem encRenorm_overflowed (fuel : Nat) {s : State} (hclean : s.TxClean) (hp : s.encInterval.Proper)
    {before after : List Scaling} (hks : (s.encInterval.settle fuel).1 = before ++ .e3 :: after)
    (hfit : pendFits before s.encPend.toNat = true)
    (hfull : (emission before s.encPend.toNat).2 = Config.PEND_MAX) :
    ∃ t, encRenorm fuel s = .overflowed t ∧ EncoderWrote s t ∧ t.TxClean ∧
      t.encInterval = before.foldl Interval.rescale s.encInterval ∧ t.encInterval.scaling = some .e3 ∧
      t.sentBits = s.sentBits ++ (emission before s.encPend.toNat).1 ∧ t.encPend.toNat = Config.PEND_MAX := by
  induction fuel generalizing s before with
  | zero => simp [Interval.settle] at hks
  | succ fuel ih =>
    rw [encRenorm]
    rw [Interval.settle] at hks
    cases hk : s.encInterval.scaling with
    | none => simp [hk] at hks
    | some k =>
      rw [hk] at hks
      cases before with
      | nil =>
        simp only [List.nil_append, List.cons.injEq] at hks
        obtain ⟨rfl, -⟩ := hks
        simp only [emission] at hfull
        refine ⟨s, by simp [State.settleBit, hfull], EncoderWrote.refl s, hclean, rfl, hk, by simp [emission], hfull⟩
      | cons k' before =>
        simp only [List.cons_append, List.cons.injEq] at hks
        obtain ⟨rfl, hks⟩ := hks
        have hfit' : pendFits ([k] ++ before) s.encPend.toNat = true := hfit
        rw [pendFits_append, Bool.and_eq_true] at hfit'
        obtain ⟨t, h1, h2, h3, h4, h5, h6⟩ := settleBit_spec hclean hp hk hfit'.1
        have he := emission_append [k] before s.encPend.toNat
        rw [List.singleton_append] at he
        obtain ⟨u, g1, g2, g3, g4, g5, g6, g7⟩ :=
          ih h2 (by rw [h3]; exact Interval.rescale_proper hp hk) (by rw [h3]; exact hks) (by rw [h5]; exact hfit'.2)
            (by rw [h5]; simpa only [he] using hfull)
        rw [h5] at g6
        rw [h3] at g4
        refine ⟨u, by simp only [h1]; exact g1, h6.trans g2, g3, g4, g5, ?_, g7⟩
        simp only [he]
        rw [g6, h4, List.append_assoc]

/-- The two ways the loop can end are all there are. -/
theorem pendFits_or_full (ks : List Scaling) {p : Nat} (hp : p ≤ Config.PEND_MAX) :
    pendFits ks p = true ∨ ∃ before after, ks = before ++ .e3 :: after ∧ pendFits before p = true ∧
      (emission before p).2 = Config.PEND_MAX := by
  induction ks generalizing p with
  | nil => exact Or.inl rfl
  | cons k ks ih =>
    have step : ∀ q, q ≤ Config.PEND_MAX → pendFits [k] p = true → (emission [k] p).2 = q →
        pendFits (k :: ks) p = true ∨ ∃ before after, k :: ks = before ++ .e3 :: after ∧ pendFits before p = true ∧
          (emission before p).2 = Config.PEND_MAX := by
      intro q hq hfit he
      rcases ih hq with h | ⟨before, after, rfl, h2, h3⟩
      · left
        have := pendFits_append [k] ks p
        rw [List.singleton_append] at this
        rw [this, hfit, he, h]
        rfl
      · right
        refine ⟨k :: before, after, rfl, ?_, ?_⟩
        · have := pendFits_append [k] before p
          rw [List.singleton_append] at this
          rw [this, hfit, he, h2]
          rfl
        · have := emission_append [k] before p
          rw [List.singleton_append] at this
          rw [this, he]
          exact h3
    cases k with
    | e1 => exact step 0 (Nat.zero_le _) rfl rfl
    | e2 => exact step 0 (Nat.zero_le _) rfl rfl
    | e3 =>
      by_cases h : p < Config.PEND_MAX
      · exact step (p + 1) h (by rw [pendFits, decide_eq_true h]; rfl) rfl
      · exact Or.inr ⟨[], ks, rfl, rfl, by simp only [emission]; omega⟩

/-! ## What the encoder writes, in every state (20_memory.md R73) -/

theorem emitWithFollow_wrote (s : State) (b : Bool) : EncoderWrote s (s.emitWithFollow b) :=
  ((putBit_wrote s b).trans (putBits_wrote _ _ _)).trans (setPend_wrote _ _)

theorem settleBit_wrote {s t : State} {k : Scaling} (h : s.settleBit k = some t) : EncoderWrote s t := by
  cases k with
  | e1 => exact Option.some.inj h ▸ emitWithFollow_wrote s false
  | e2 => exact Option.some.inj h ▸ emitWithFollow_wrote s true
  | e3 =>
    rw [State.settleBit] at h
    split at h
    · exact absurd h (by simp)
    · exact Option.some.inj h ▸ setPend_wrote s _

/-- However the loop ends, it has written the encoder's side only. -/
theorem encRenorm_wrote (fuel : Nat) {s t : State} (h : encRenorm fuel s = .settled t ∨ encRenorm fuel s = .overflowed t) :
    EncoderWrote s t := by
  induction fuel generalizing s with
  | zero =>
    rcases h with h | h
    · exact Renormed.settled.inj h ▸ EncoderWrote.refl s
    · exact absurd h (by simp [encRenorm])
  | succ fuel ih =>
    rw [encRenorm] at h
    cases hk : s.encInterval.scaling with
    | none =>
      rw [hk] at h
      rcases h with h | h
      · exact Renormed.settled.inj h ▸ EncoderWrote.refl s
      · exact absurd h (by simp)
    | some k =>
      rw [hk] at h
      dsimp only at h
      cases hb : s.settleBit k with
      | none =>
        rw [hb] at h
        rcases h with h | h
        · exact absurd h (by simp)
        · exact Renormed.overflowed.inj h ▸ EncoderWrote.refl s
      | some u =>
        rw [hb] at h
        exact ((settleBit_wrote hb).trans (setEncInterval_wrote _ _)).trans (ih h)

end Sys2Proof.Machine
end

