-- ==== Sys2Proof/Laws/Command.lean ====
section
/-! SUPPORT. What a command can do, said once: how it is issued, how it answers, and every way `exec` can give a
next state (30_encoding.md R102, 60_exceptions.md R229, R231). -/

namespace Sys2Proof.Machine

/-! ## Answers -/

theorem answer_eq (d : Nat) (s : State) : answer (BitVec.ofNat 32 d) s = .next (s.answered 0 d) := rfl

theorem answer_word (d : Word) (s : State) : answer d s = .next (s.answered 0 d.toNat) := by
  rw [← answer_eq, BitVec.ofNat_toNat, BitVec.setWidth_eq]

theorem raise_eq (c : Cause) (cmd : Word) (s : State) : raise c cmd s = .next (s.latched c.code.toNat cmd) := by
  cases c <;> rfl

theorem refuseFaulted_eq (s : State) : refuseFaulted s = .next (s.answered 0xF 0) := rfl

theorem Cause.code_range (c : Cause) : 1 ≤ c.code.toNat ∧ c.code.toNat ≤ 7 := by cases c <;> decide

theorem Cause.code_ne (c : Cause) : c.code ≠ 0#4 := by cases c <;> decide

/-! ## Issuing a command (R102 steps 1 and 3) -/

theorem issue_faulted {i : Instr} {s : State} {body : State → Result} (h : s.faulted = true) :
    issue i s body = .next (s.answered 0xF 0) := by
  rw [issue, if_pos h, refuseFaulted_eq]

theorem issue_ok {i : Instr} {s : State} {body : State → Result} (h : s.faulted = false)
    (ho : sessionOk i s = true) : issue i s body = body s := by
  rw [issue, if_neg (by simp [h]), if_pos ho]

theorem issue_bad {i : Instr} {s : State} {body : State → Result} (h : s.faulted = false)
    (ho : sessionOk i s = false) : issue i s body = .next (s.latched 6 (encode i)) := by
  rw [issue, if_neg (by simp [h]), if_neg (by simp [ho]), raise_eq]
  rfl

/-- Everything `issue` can do. -/
theorem issue_cases {i : Instr} {s : State} {body : State → Result} {r : Result} (h : issue i s body = r) :
    (s.faulted = true ∧ r = .next (s.answered 0xF 0)) ∨
    (s.faulted = false ∧ sessionOk i s = false ∧ r = .next (s.latched 6 (encode i))) ∨
    (s.faulted = false ∧ sessionOk i s = true ∧ body s = r) := by
  cases hf : s.faulted with
  | true => exact Or.inl ⟨rfl, by rw [← h, issue_faulted hf]⟩
  | false =>
    cases ho : sessionOk i s with
    | false => exact Or.inr (Or.inl ⟨rfl, rfl, by rw [← h, issue_bad hf ho]⟩)
    | true => exact Or.inr (Or.inr ⟨rfl, rfl, by rw [← h, issue_ok hf ho]⟩)

/-! ## Every way a command can end in a next state -/

/-- The effect of a command that is answered `OK`: `u` is the state before the response is given. -/
def Done (i : Instr) (s u : State) : Prop :=
  match i with
  | .nop | .csrRd _ | .flFreq _ | .flCumlo _ | .flCumhi _ | .flTotal | .flFind _ => u = s
  | .srst => u = softReset s
  | .tblWr idx w => s.encActive = false ∧ s.decActive = false ∧ idx ≤ s.eosSym ∧ u = s.setWeight idx w
  | .txPut b => s.encActive = false ∧ u = s.putBit b
  | .txClose => s.encActive = false ∧ u = s.closeTx
  | .rxGet => s.decActive = false ∧ u = s.getBit.2
  | .encInit => s.encActive = false ∧ 1 ≤ s.total ∧ s.total < Config.QUARTER ∧ u = s.openEnc
  | .encSym sym => s.encActive = true ∧ sym ≤ s.eosSym ∧ s.weight sym ≠ 0#14 ∧ s.narrowDefined s.encInterval = true ∧
      encRenorm Config.P (s.setEncInterval (s.narrowFor s.encInterval sym)) = .settled u
  | .encFin => s.encActive = true ∧ s.encPend.toNat ≠ Config.PEND_MAX ∧ u = s.closeEnc
  | .decInit => s.decActive = false ∧ 1 ≤ s.total ∧ s.total < Config.QUARTER ∧ u = s.openDec
  | .decSym => s.decActive = true ∧ s.scaledDefined s.decInterval s.decValue.toNat = true ∧
      ∃ sym, s.decodedSymbol = some sym ∧
        ((sym = s.eosSym ∧ u = { s.setDecInterval (s.narrowFor s.decInterval sym) with decEos := true, decActive := false }) ∨
         (sym ≠ s.eosSym ∧ u = decRenorm Config.P (s.setDecInterval (s.narrowFor s.decInterval sym))))
  | .decEnd => s.decActive = true ∧ u = { s with decActive := false }

theorem symbolCodable_iff {s : State} {sym : Nat} :
    s.symbolCodable sym = true ↔ sym ≤ s.eosSym ∧ s.weight sym ≠ 0#14 := by
  simp [State.symbolCodable, State.indexLegal]

/-- Where a command is let through whatever the fault latch holds (R229). -/
def alwaysExecutes (i : Instr) : Prop := i = .srst ∨ ∃ a c, i = .csrRd a ∧ csrAt a = some c

/-- Everything a command can do when it gives a next state. -/
inductive Ended (i : Instr) (s t : State) : Prop where
  /-- A fault was recorded already (R229). -/
  | refused (hf : s.faulted = true) (hi : ¬ alwaysExecutes i) (ht : t = s.answered 0xF 0)
  /-- The command raised a fault and wrote nothing else (R231). -/
  | raised (c : Cause) (hf : s.faulted = false) (hi : ¬ alwaysExecutes i) (ht : t = s.latched c.code.toNat (encode i))
  /-- ENC_SYM met the full pending counter (R232). -/
  | overflowed (sym : Nat) (u : State) (hi : i = .encSym sym) (hf : s.faulted = false) (ha : s.encActive = true)
      (hs : sym ≤ s.eosSym) (hw : s.weight sym ≠ 0#14) (hd : s.narrowDefined s.encInterval = true)
      (hu : encRenorm Config.P (s.setEncInterval (s.narrowFor s.encInterval sym)) = .overflowed u)
      (ht : t = u.latched 4 (encode i))
  /-- The command was answered `OK`. -/
  | done (u : State) (d : Nat) (hf : alwaysExecutes i ∨ s.faulted = false) (hu : Done i s u) (ht : t = u.answered 0 d)

theorem next_inj {s t : State} (h : (Host.Outcome.next s : Result) = .next t) : s = t := by
  injection h

/-- The cases of a command that goes through `issue`: what is left is its own body. -/
theorem Ended.of_issue {i : Instr} {s t : State} {body : State → Result} (hi : ¬ alwaysExecutes i)
    (h : issue i s body = .next t)
    (hb : s.faulted = false → sessionOk i s = true → body s = .next t → Ended i s t) : Ended i s t := by
  rcases issue_cases h with ⟨hf, hr⟩ | ⟨hf, -, hr⟩ | ⟨hf, ho, hr⟩
  · exact .refused hf hi (next_inj hr)
  · exact .raised .badState hf hi (next_inj hr)
  · exact hb hf ho hr

theorem Ended.of_raise {i : Instr} {s t : State} {c : Cause} (hf : s.faulted = false) (hi : ¬ alwaysExecutes i)
    (h : raise c (encode i) s = .next t) : Ended i s t := by
  rw [raise_eq] at h
  exact .raised c hf hi (next_inj h).symm

theorem Ended.of_answer {i : Instr} {s t u : State} {d : Word} (hf : s.faulted = false) (hu : Done i s u)
    (h : answer d u = .next t) : Ended i s t := by
  rw [answer_word] at h
  exact .done u d.toNat (Or.inr hf) hu (next_inj h).symm

theorem Ended.of_checkIndex {i : Instr} {s t : State} {k : Nat} {body : State → Result} (hf : s.faulted = false)
    (hi : ¬ alwaysExecutes i) (h : checkIndex (encode i) k body s = .next t)
    (hb : k ≤ s.eosSym → body s = .next t → Ended i s t) : Ended i s t := by
  rw [checkIndex] at h
  split at h
  · next hk => exact hb (by simpa [State.indexLegal] using hk) h
  · exact .of_raise hf hi h

theorem Ended.of_modelCheck {i : Instr} {s t : State} {body : State → Result} (hf : s.faulted = false)
    (hi : ¬ alwaysExecutes i) (h : modelCheck (encode i) s body = .next t)
    (hb : 1 ≤ s.total → s.total < Config.QUARTER → body s = .next t → Ended i s t) : Ended i s t := by
  rw [modelCheck] at h
  split at h
  · exact .of_raise hf hi h
  · split at h
    · exact .of_raise hf hi h
    · exact hb (by omega) (by omega) h

/-- THE INVERSION LEMMA of `exec`: later proofs about every command start here. -/
theorem exec_ended {i : Instr} {s t : State} (h : exec i s = .next t) : Ended i s t := by
  cases i with
  | nop => exact .of_issue (by simp [alwaysExecutes]) h fun hf _ hr => .of_answer hf (show s = s from rfl) hr
  | srst =>
    refine .done (softReset s) 0 (Or.inl (Or.inl rfl)) rfl ?_
    exact (next_inj h).symm
  | csrRd addr =>
    rw [exec, execCsrRd] at h
    cases hc : csrAt addr with
    | some c =>
      rw [hc] at h
      dsimp only at h
      rw [answer_word] at h
      exact .done s _ (Or.inl (Or.inr ⟨addr, c, rfl, hc⟩)) rfl (next_inj h).symm
    | none =>
      rw [hc] at h
      have hn : ¬ alwaysExecutes (.csrRd addr) := by simp [alwaysExecutes, hc]
      exact .of_issue hn h fun hf _ hr => .of_raise hf hn hr
  | tblWr idx w =>
    have hn : ¬ alwaysExecutes (.tblWr idx w) := by simp [alwaysExecutes]
    refine .of_issue hn h fun hf ho hr => .of_checkIndex hf hn hr fun hk hr => .of_answer hf ?_ hr
    simp only [sessionOk, Bool.and_eq_true, Bool.not_eq_true'] at ho
    exact ⟨ho.1, ho.2, hk, rfl⟩
  | flFreq sym =>
    have hn : ¬ alwaysExecutes (.flFreq sym) := by simp [alwaysExecutes]
    exact .of_issue hn h fun hf _ hr => .of_checkIndex hf hn hr fun _ hr => .of_answer hf (show s = s from rfl) hr
  | flCumlo sym =>
    have hn : ¬ alwaysExecutes (.flCumlo sym) := by simp [alwaysExecutes]
    exact .of_issue hn h fun hf _ hr => .of_checkIndex hf hn hr fun _ hr => .of_answer hf (show s = s from rfl) hr
  | flCumhi sym =>
    have hn : ¬ alwaysExecutes (.flCumhi sym) := by simp [alwaysExecutes]
    exact .of_issue hn h fun hf _ hr => .of_checkIndex hf hn hr fun _ hr => .of_answer hf (show s = s from rfl) hr
  | flTotal => exact .of_issue (by simp [alwaysExecutes]) h fun hf _ hr => .of_answer hf (show s = s from rfl) hr
  | flFind x =>
    rw [exec, execFlFind] at h
    have hn : ¬ alwaysExecutes (.flFind x) := by simp [alwaysExecutes]
    refine .of_issue hn h fun hf _ hr => ?_
    cases hx : s.findSymbol x with
    | some sym => rw [hx] at hr; exact .of_answer hf (show s = s from rfl) hr
    | none => rw [hx] at hr; exact .of_raise hf hn hr
  | txPut b =>
    rw [exec, execTxPut] at h
    refine .of_issue (by simp [alwaysExecutes]) h fun hf ho hr => .of_answer hf ?_ hr
    exact ⟨by simpa [sessionOk] using ho, rfl⟩
  | txClose =>
    rw [exec, execTxClose] at h
    refine .of_issue (by simp [alwaysExecutes]) h fun hf ho hr => .of_answer hf ?_ hr
    exact ⟨by simpa [sessionOk] using ho, rfl⟩
  | rxGet =>
    rw [exec, execRxGet] at h
    refine .of_issue (by simp [alwaysExecutes]) h fun hf ho hr => .of_answer hf ?_ hr
    exact ⟨by simpa [sessionOk] using ho, rfl⟩
  | encInit =>
    rw [exec, execEncInit] at h
    have hn : ¬ alwaysExecutes .encInit := by simp [alwaysExecutes]
    refine .of_issue hn h fun hf ho hr => .of_modelCheck hf hn hr fun h1 h2 hr => .of_answer hf ?_ hr
    exact ⟨by simpa [sessionOk] using ho, h1, h2, rfl⟩
  | encSym sym =>
    rw [exec, execEncSym] at h
    have hn : ¬ alwaysExecutes (.encSym sym) := by simp [alwaysExecutes]
    refine .of_issue hn h fun hf ho hr => ?_
    split at hr
    · exact .of_raise hf hn hr
    · next hs =>
      split at hr
      · exact absurd hr (by simp)
      · next hd =>
        simp only [Bool.not_eq_true', Bool.not_eq_false] at hs hd
        rw [symbolCodable_iff] at hs
        cases hu : encRenorm Config.P (s.setEncInterval (s.narrowFor s.encInterval sym)) with
        | settled u => rw [hu] at hr; exact .of_answer hf ⟨ho, hs.1, hs.2, hd, hu⟩ hr
        | overflowed u =>
          rw [hu] at hr
          dsimp only at hr
          rw [raise_eq] at hr
          exact .overflowed sym u rfl hf ho hs.1 hs.2 hd hu (next_inj hr).symm
  | encFin =>
    rw [exec, execEncFin] at h
    have hn : ¬ alwaysExecutes .encFin := by simp [alwaysExecutes]
    refine .of_issue hn h fun hf ho hr => ?_
    split at hr
    · exact .of_raise hf hn hr
    · next hp => exact .of_answer hf ⟨ho, hp, rfl⟩ hr
  | decInit =>
    rw [exec, execDecInit] at h
    have hn : ¬ alwaysExecutes .decInit := by simp [alwaysExecutes]
    refine .of_issue hn h fun hf ho hr => .of_modelCheck hf hn hr fun h1 h2 hr => .of_answer hf ?_ hr
    exact ⟨by simpa [sessionOk] using ho, h1, h2, rfl⟩
  | decSym =>
    rw [exec, execDecSym] at h
    refine .of_issue (by simp [alwaysExecutes]) h fun hf ho hr => ?_
    split at hr
    · exact absurd hr (by simp)
    · next hd =>
      simp only [Bool.not_eq_true', Bool.not_eq_false] at hd
      cases hs : s.decodedSymbol with
      | none => rw [hs] at hr; exact absurd hr (by simp)
      | some sym =>
        rw [hs] at hr
        simp only [State.deliver] at hr
        split at hr
        · next he => exact .of_answer hf ⟨ho, hd, sym, hs, Or.inl ⟨he, rfl⟩⟩ hr
        · next he => exact .of_answer hf ⟨ho, hd, sym, hs, Or.inr ⟨he, rfl⟩⟩ hr
  | decEnd =>
    rw [exec, execDecEnd] at h
    refine .of_issue (by simp [alwaysExecutes]) h fun hf ho hr => .of_answer hf ?_ hr
    exact ⟨ho, rfl⟩

/-- While a fault is recorded every command but the two kinds that always execute is answered `FAULTED` (R229). -/
theorem exec_faulted {i : Instr} {s : State} (hf : s.faulted = true) (hi : ¬ alwaysExecutes i) :
    exec i s = .next (s.answered 0xF 0) := by
  cases i with
  | srst => exact absurd (Or.inl rfl) hi
  | csrRd a =>
    cases hc : csrAt a with
    | some c => exact absurd (Or.inr ⟨a, c, rfl, hc⟩) hi
    | none => rw [exec, execCsrRd, hc]; exact issue_faulted hf
  | nop => rw [exec, execNop]; exact issue_faulted hf
  | tblWr idx w => rw [exec, execTblWr]; exact issue_faulted hf
  | flFreq sym => rw [exec, execFlFreq]; exact issue_faulted hf
  | flCumlo sym => rw [exec, execFlCumlo]; exact issue_faulted hf
  | flCumhi sym => rw [exec, execFlCumhi]; exact issue_faulted hf
  | flTotal => rw [exec, execFlTotal]; exact issue_faulted hf
  | flFind x => rw [exec, execFlFind]; exact issue_faulted hf
  | txPut b => rw [exec, execTxPut]; exact issue_faulted hf
  | txClose => rw [exec, execTxClose]; exact issue_faulted hf
  | rxGet => rw [exec, execRxGet]; exact issue_faulted hf
  | encInit => rw [exec, execEncInit]; exact issue_faulted hf
  | encSym sym => rw [exec, execEncSym]; exact issue_faulted hf
  | encFin => rw [exec, execEncFin]; exact issue_faulted hf
  | decInit => rw [exec, execDecInit]; exact issue_faulted hf
  | decSym => rw [exec, execDecSym]; exact issue_faulted hf
  | decEnd => rw [exec, execDecEnd]; exact issue_faulted hf

/-- A command whose session condition fails raises `BAD_STATE` (R227). -/
theorem exec_badState {i : Instr} {s : State} (hf : s.faulted = false) (hi : sessionOk i s = false) :
    exec i s = .next (s.latched 6 (encode i)) := by
  cases i with
  | srst | csrRd => simp [sessionOk] at hi
  | nop => rw [exec, execNop]; exact issue_bad hf hi
  | tblWr idx w => rw [exec, execTblWr]; exact issue_bad hf hi
  | flFreq sym => rw [exec, execFlFreq]; exact issue_bad hf hi
  | flCumlo sym => rw [exec, execFlCumlo]; exact issue_bad hf hi
  | flCumhi sym => rw [exec, execFlCumhi]; exact issue_bad hf hi
  | flTotal => rw [exec, execFlTotal]; exact issue_bad hf hi
  | flFind x => rw [exec, execFlFind]; exact issue_bad hf hi
  | txPut b => rw [exec, execTxPut]; exact issue_bad hf hi
  | txClose => rw [exec, execTxClose]; exact issue_bad hf hi
  | rxGet => rw [exec, execRxGet]; exact issue_bad hf hi
  | encInit => rw [exec, execEncInit]; exact issue_bad hf hi
  | encSym sym => rw [exec, execEncSym]; exact issue_bad hf hi
  | encFin => rw [exec, execEncFin]; exact issue_bad hf hi
  | decInit => rw [exec, execDecInit]; exact issue_bad hf hi
  | decSym => rw [exec, execDecSym]; exact issue_bad hf hi
  | decEnd => rw [exec, execDecEnd]; exact issue_bad hf hi

/-! ## What an effect leaves alone (20_memory.md R73) -/

/-- `t` differs from `s` at most on the encoder's side: the encoder, the transmit buffer and `out`, which is only
extended. -/
structure EncoderSide (s t : State) : Prop where
  frame : t = { s with encLow := t.encLow, encHigh := t.encHigh, encPend := t.encPend, encActive := t.encActive,
                       txBuf := t.txBuf, txFill := t.txFill, out := t.out }
  extends_out : s.out <+: t.out

/-- `t` differs from `s` at most on the decoder's side: the decoder, the receive buffer and `in_pos`, which only
moves forward and not past the end. -/
structure DecoderSide (s t : State) : Prop where
  frame : t = { s with decLow := t.decLow, decHigh := t.decHigh, decValue := t.decValue, decActive := t.decActive,
                       decEos := t.decEos, rxBuf := t.rxBuf, rxCnt := t.rxCnt, rxEnd := t.rxEnd, inPos := t.inPos }
  forward : s.inPos ≤ t.inPos
  inRange : s.inPos ≤ s.inp.length → t.inPos ≤ s.inp.length

theorem EncoderWrote.side {s t : State} (h : EncoderWrote s t) : EncoderSide s t :=
  ⟨by rw [h.frame], h.extends_out⟩

theorem DecoderWrote.side {s t : State} (h : DecoderWrote s t) : DecoderSide s t :=
  ⟨by rw [h.frame], h.forward, h.inRange⟩

theorem EncoderSide.trans {s t u : State} (h1 : EncoderSide s t) (h2 : EncoderSide t u) : EncoderSide s u :=
  ⟨by rw [h2.frame, h1.frame], h1.extends_out.trans h2.extends_out⟩

theorem DecoderSide.trans {s t u : State} (h1 : DecoderSide s t) (h2 : DecoderSide t u) : DecoderSide s u :=
  ⟨by rw [h2.frame, h1.frame], h1.forward.trans h2.forward,
    fun h => by
      have hi : t.inp = s.inp := by rw [h1.frame]
      exact hi ▸ h2.inRange (hi.symm ▸ h1.inRange h)⟩

theorem openEnc_side (s : State) : EncoderSide s s.openEnc := ⟨rfl, List.prefix_refl _⟩

theorem closeEnc_side (s : State) : EncoderSide s s.closeEnc :=
  ((setPend_wrote s _).trans ((emitWithFollow_wrote _ _).trans (closeTx_wrote _))).side.trans ⟨rfl, List.prefix_refl _⟩

theorem clearDec_side (s : State) : DecoderSide s s.clearDec := ⟨rfl, Nat.le_refl _, id⟩

theorem openDec_side (s : State) : DecoderSide s s.openDec := by
  have h := (clearDec_side s).trans (fillValue_wrote Config.P 0 s.clearDec).side
  unfold State.openDec
  generalize State.fillValue Config.P 0 s.clearDec = r at *
  exact h.trans ⟨rfl, Nat.le_refl _, id⟩

/-- The commands of the encoder and of the bit sink (R73). -/
def isEncoderSide : Instr → Bool
  | .txPut _ | .txClose | .encInit | .encSym _ | .encFin => true
  | _ => false

/-- The commands of the decoder and of the bit source (R73). -/
def isDecoderSide : Instr → Bool
  | .rxGet | .decInit | .decSym | .decEnd => true
  | _ => false

theorem Done.encoderSide {i : Instr} {s u : State} (h : Done i s u) (hi : isEncoderSide i = true) : EncoderSide s u := by
  cases i with
  | txPut b => rw [h.2]; exact (putBit_wrote s b).side
  | txClose => rw [h.2]; exact (closeTx_wrote s).side
  | encInit => rw [h.2.2.2]; exact openEnc_side s
  | encSym sym => exact ((setEncInterval_wrote s _).trans (encRenorm_wrote _ (Or.inl h.2.2.2.2))).side
  | encFin => rw [h.2.2]; exact closeEnc_side s
  | _ => simp [isEncoderSide] at hi

theorem Done.decoderSide {i : Instr} {s u : State} (h : Done i s u) (hi : isDecoderSide i = true) : DecoderSide s u := by
  cases i with
  | rxGet => rw [h.2]; exact (getBit_wrote s).side
  | decInit => rw [h.2.2.2]; exact openDec_side s
  | decSym =>
    obtain ⟨-, -, sym, -, ⟨-, hu⟩ | ⟨-, hu⟩⟩ := h
    · rw [hu]; exact ⟨rfl, Nat.le_refl _, id⟩
    · rw [hu]; exact ((setDecInterval_wrote s _).trans (decRenorm_wrote _ _)).side
  | decEnd => rw [h.2]; exact ⟨rfl, Nat.le_refl _, id⟩
  | _ => simp [isDecoderSide] at hi

/-- What no effect writes: `N`, the input, the responses, the host's queue, the mark of a command in progress; and the
streams only move on. -/
structure Kept (s u : State) : Prop where
  params : u.params = s.params
  inp : u.inp = s.inp
  rsps : u.rsps = s.rsps
  host : u.host = s.host
  inProgress : u.inProgress = s.inProgress
  out : s.out <+: u.out
  forward : s.inPos ≤ u.inPos
  inRange : s.inPos ≤ s.inp.length → u.inPos ≤ s.inp.length

theorem EncoderSide.kept {s u : State} (h : EncoderSide s u) : Kept s u := by
  have hp : u.inPos = s.inPos := by rw [h.frame]
  exact ⟨by rw [h.frame], by rw [h.frame], by rw [h.frame], by rw [h.frame], by rw [h.frame], h.extends_out, Nat.le_of_eq hp.symm,
    fun hr => hp ▸ hr⟩

theorem DecoderSide.kept {s u : State} (h : DecoderSide s u) : Kept s u := by
  have ho : u.out = s.out := by rw [h.frame]
  exact ⟨by rw [h.frame], by rw [h.frame], by rw [h.frame], by rw [h.frame], by rw [h.frame], ho ▸ List.prefix_refl _, h.forward, h.inRange⟩

/-- The commands of neither side write the table, at most, or are `SRST` (R73). -/
theorem Done.neither {i : Instr} {s u : State} (h : Done i s u) (hE : isEncoderSide i = false)
    (hD : isDecoderSide i = false) : u = s ∨ (i = .srst ∧ u = softReset s) ∨
      ∃ idx w, i = .tblWr idx w ∧ s.encActive = false ∧ s.decActive = false ∧ idx ≤ s.eosSym ∧ u = s.setWeight idx w := by
  cases i with
  | nop | csrRd | flFreq | flCumlo | flCumhi | flTotal | flFind => exact Or.inl h
  | srst => exact Or.inr (Or.inl ⟨rfl, h⟩)
  | tblWr idx w => exact Or.inr (Or.inr ⟨idx, w, rfl, h⟩)
  | txPut | txClose | encInit | encSym | encFin => simp [isEncoderSide] at hE
  | rxGet | decInit | decSym | decEnd => simp [isDecoderSide] at hD

theorem Done.kept {i : Instr} {s u : State} (h : Done i s u) : Kept s u := by
  cases hE : isEncoderSide i with
  | true => exact (h.encoderSide hE).kept
  | false =>
    cases hD : isDecoderSide i with
    | true => exact (h.decoderSide hD).kept
    | false =>
      rcases h.neither hE hD with rfl | ⟨-, rfl⟩ | ⟨idx, w, -, -, -, -, rfl⟩ <;>
        exact ⟨rfl, rfl, rfl, rfl, rfl, List.prefix_refl _, Nat.le_refl _, id⟩

/-- The fault latch is written by `SRST` and by taking a fault, by no other effect (10_state.md R31). -/
theorem Done.latch {i : Instr} {s u : State} (h : Done i s u) (hi : i ≠ .srst) :
    u.faultCause = s.faultCause ∧ u.faultCmd = s.faultCmd := by
  cases hE : isEncoderSide i with
  | true => rw [(h.encoderSide hE).frame]; exact ⟨rfl, rfl⟩
  | false =>
    cases hD : isDecoderSide i with
    | true => rw [(h.decoderSide hD).frame]; exact ⟨rfl, rfl⟩
    | false =>
      rcases h.neither hE hD with rfl | ⟨h', -⟩ | ⟨idx, w, -, -, -, -, rfl⟩
      · exact ⟨rfl, rfl⟩
      · exact absurd h' hi
      · exact ⟨rfl, rfl⟩

/-- Whatever a command ends in, `N`, the input and the host's queue are as before, and the streams only move on. -/
theorem Ended.kept {i : Instr} {s t : State} (h : Ended i s t) :
    t.params = s.params ∧ t.inp = s.inp ∧ t.host = s.host ∧ s.out <+: t.out ∧ s.inPos ≤ t.inPos ∧
      (s.inPos ≤ s.inp.length → t.inPos ≤ s.inp.length) := by
  cases h with
  | refused _ _ ht | raised _ _ _ ht =>
    rw [ht]
    exact ⟨rfl, rfl, rfl, List.prefix_refl _, Nat.le_refl _, id⟩
  | overflowed sym u _ _ _ _ _ _ hu ht =>
    have k := ((setEncInterval_wrote _ _).trans (encRenorm_wrote _ (Or.inr hu))).side.kept
    rw [ht]
    exact ⟨k.params, k.inp, k.host, k.out, k.forward, k.inRange⟩
  | done u d _ hu ht =>
    have k := hu.kept
    rw [ht]
    exact ⟨k.params, k.inp, k.host, k.out, k.forward, k.inRange⟩

/-- Whatever a command ends in, no command is left in progress that was not. -/
theorem Ended.idle {i : Instr} {s t : State} (h : Ended i s t) : t.inProgress = s.inProgress := by
  cases h with
  | refused _ _ ht | raised _ _ _ ht => rw [ht]; rfl
  | overflowed sym u _ _ _ _ _ _ hu ht =>
    rw [ht]
    exact ((setEncInterval_wrote _ _).trans (encRenorm_wrote _ (Or.inr hu))).side.kept.inProgress
  | done u d _ hu ht => rw [ht]; exact hu.kept.inProgress

/-! ## Steps -/

theorem step_idle {s : State} (h : s.host = []) : step s = .next s := by
  rw [step, h]

theorem step_event {s : State} {e : HostEvent} {rest : List HostEvent} (h : s.host = e :: rest) :
    step s = handleEvent e { s with host := rest } := by
  rw [step, h]

/-- An event that finds the block idle. -/
theorem step_whenIdle {s : State} {e : HostEvent} {rest : List HostEvent} (hq : s.inProgress = none)
    (h : s.host = e :: rest) : step s = handleIdle e { s with host := rest } := by
  rw [step_event h, handleEvent, show ({ s with host := rest } : State).inProgress = none from hq]

/-- An event that finds a command in progress. -/
theorem step_whenBusy {s : State} {e : HostEvent} {rest : List HostEvent} {c : Word} (hq : s.inProgress = some c)
    (h : s.host = e :: rest) : step s = handleBusy e { s with host := rest } := by
  rw [step_event h, handleEvent, show ({ s with host := rest } : State).inProgress = some c from hq]

theorem step_cmd {s : State} {w : Word} {rest : List HostEvent} (hq : s.inProgress = none)
    (h : s.host = .cmd w :: rest) : step s = executeWord w { s with host := rest } :=
  step_whenIdle hq h

theorem executeWord_ok {w : Word} {i : Instr} (h : decode w = .ok i) (s : State) : executeWord w s = exec i s := by
  rw [executeWord, h]

theorem executeWord_error {w : Word} {e : Illegal} (h : decode w = .error e) (s : State) :
    executeWord w s = if s.faulted = true then .next (s.answered 0xF 0) else .next (s.latched 5 w) := by
  rw [executeWord, h]
  show execIllegal w s = _
  rw [execIllegal, refuseFaulted_eq, raise_eq]
  rfl

/-- Every way a word can end in a next state: a command's, or that of a word that is none (R102). -/
theorem executeWord_ended {w : Word} {s t : State} (h : executeWord w s = .next t) :
    (∃ i, decode w = .ok i ∧ Ended i s t) ∨
    (∃ e, decode w = .error e ∧
      ((s.faulted = true ∧ t = s.answered 0xF 0) ∨ (s.faulted = false ∧ t = s.latched 5 w))) := by
  cases hw : decode w with
  | ok i => exact Or.inl ⟨i, rfl, exec_ended (by rw [← executeWord_ok hw, h])⟩
  | error e =>
    rw [executeWord_error hw] at h
    refine Or.inr ⟨e, rfl, ?_⟩
    split at h
    · next hf => exact Or.inl ⟨hf, (next_inj h).symm⟩
    · next hf => exact Or.inr ⟨by simpa using hf, (next_inj h).symm⟩

/-- Whatever a word ends in, the streams only move on and nothing else of the environment but the responses changes. -/
theorem executeWord_kept {w : Word} {s t : State} (h : executeWord w s = .next t) :
    t.params = s.params ∧ t.inp = s.inp ∧ t.host = s.host ∧ s.out <+: t.out ∧ s.inPos ≤ t.inPos ∧
      (s.inPos ≤ s.inp.length → t.inPos ≤ s.inp.length) ∧ t.inProgress = s.inProgress := by
  rcases executeWord_ended h with ⟨i, -, hi⟩ | ⟨e, -, ⟨-, rfl⟩ | ⟨-, rfl⟩⟩
  · obtain ⟨h1, h2, h3, h4, h5, h6⟩ := hi.kept
    exact ⟨h1, h2, h3, h4, h5, h6, hi.idle⟩
  · exact ⟨rfl, rfl, rfl, List.prefix_refl _, Nat.le_refl _, id, rfl⟩
  · exact ⟨rfl, rfl, rfl, List.prefix_refl _, Nat.le_refl _, id, rfl⟩

/-- Everything a command left without an answer can end in: the transfers made so far or all of them but the
response. -/
theorem stallWord_cases {w : Word} {k : Nat} {s u : State} (h : stallWord w k s = .next u) :
    ∃ t, executeWord w s = .next t ∧
      ((k < transferCount w s t ∧ u = { transferred k s t with inProgress := some w }) ∨
        (transferCount w s t ≤ k ∧ u = { t with rsps := s.rsps, inProgress := some w })) := by
  rw [stallWord] at h
  split at h
  · next t ht =>
    refine ⟨t, ht, ?_⟩
    rw [waiting] at h
    split at h
    · next hk => exact Or.inl ⟨hk, (next_inj h).symm⟩
    · next hk => exact Or.inr ⟨Nat.le_of_not_lt hk, (next_inj h).symm⟩
  · exact absurd h (by simp)
  · exact absurd h (by simp)

/-- How far the streams have moved when a command is left without an answer (93 V8). -/
theorem stallWord_streams {w : Word} {k : Nat} {s t u : State} (ht : executeWord w s = .next t)
    (h : stallWord w k s = .next u) :
    u.params = s.params ∧ u.inp = s.inp ∧ u.host = s.host ∧ u.rsps = s.rsps ∧ u.inProgress = some w ∧
      s.out <+: u.out ∧ u.out <+: t.out ∧ u.out.length = min (s.out.length + k) t.out.length ∧
      u.inPos = min t.inPos (s.inPos + k) := by
  obtain ⟨t', ht', hu⟩ := stallWord_cases h
  obtain rfl : t' = t := next_inj (ht'.symm.trans ht)
  obtain ⟨hp, hi, hh, ho, hf, -, -⟩ := executeWord_kept ht
  have hl := ho.length_le
  rcases hu with ⟨-, rfl⟩ | ⟨hk, rfl⟩
  · refine ⟨rfl, rfl, rfl, rfl, rfl, ?_, List.take_prefix _ _, List.length_take, rfl⟩
    obtain ⟨l, hl⟩ := ho
    show s.out <+: t'.out.take (s.out.length + k)
    rw [← hl, List.take_length_add_append]
    exact List.prefix_append _ _
  · rw [transferCount] at hk
    refine ⟨hp, hi, hh, rfl, rfl, ho, List.prefix_refl _, ?_, ?_⟩
    · show t'.out.length = _
      omega
    · show t'.inPos = _
      omega

/-! ## Runs of commands -/

theorem runCommands_nil (s : State) : runCommands [] s = .next { s with host := [] } := rfl

/-- The first command of a run, then the rest. -/
theorem runCommands_cons {i : Instr} (hd : decode (encode i) = .ok i) (is : List Instr) {s t : State}
    (hq : s.inProgress = none) (h : exec i (s.issueAll is) = .next t) :
    runCommands (i :: is) s = runCommands is t := by
  have hh : t.host = (s.issueAll is).host := (exec_ended h).kept.2.2.1
  have ht : t.issueAll is = t := by
    rw [State.issueAll, show is.map (fun i => HostEvent.cmd (encode i)) = t.host from hh.symm]
  have hs : step (s.issueAll (i :: is)) = .next t := by
    rw [step_cmd (s := s.issueAll (i :: is)) hq rfl, executeWord_ok hd]
    exact h
  rw [runCommands, runCommands, ht, List.length_cons, steps, hs]

/-- A run that ends went through a next state of its first command, which leaves the block idle. -/
theorem runCommands_cons_next {i : Instr} (hd : decode (encode i) = .ok i) {is : List Instr} {s t : State}
    (hq : s.inProgress = none) (h : runCommands (i :: is) s = .next t) :
    ∃ u, exec i (s.issueAll is) = .next u ∧ u.inProgress = none ∧ runCommands is u = .next t := by
  cases he : exec i (s.issueAll is) with
  | next u => exact ⟨u, rfl, (exec_ended he).idle.trans hq, by rw [← runCommands_cons hd is hq he, h]⟩
  | fault r =>
    have hs : step (s.issueAll (i :: is)) = .fault r := by
      rw [step_cmd (s := s.issueAll (i :: is)) hq rfl, executeWord_ok hd]
      exact he
    rw [runCommands, List.length_cons, steps, hs] at h
    exact absurd h (by simp)
  | refused r =>
    have hs : step (s.issueAll (i :: is)) = .refused r := by
      rw [step_cmd (s := s.issueAll (i :: is)) hq rfl, executeWord_ok hd]
      exact he
    rw [runCommands, List.length_cons, steps, hs] at h
    exact absurd h (by simp)

end Sys2Proof.Machine
end

