-- ==== Sys2Proof/Laws/Coding.lean ====
section
/-! SUPPORT. Why a decoder follows its encoder (42_encoder.md R172, 43_decoder.md R195 to R197): the value register as
a function of the bits still to come, through every renormalization case, and where it lies. -/

namespace Sys2Proof.Machine

/-! ## Windows -/

theorem window_append (a l : List Bool) (n : Nat) : window (a.length + n) (a ++ l) = a ++ window n l := by
  induction a with
  | nil => simp
  | cons b a ih =>
    rw [List.length_cons, Nat.add_right_comm, window_succ]
    simp only [List.cons_append, List.headD_cons, List.tail_cons]
    rw [ih]

/-- One bit more in a window. -/
theorem bitsNat_window_succ (n : Nat) (l : List Bool) :
    bitsNat (window (n + 1) l) = 2 * bitsNat (window n l) + bitNat ((l.drop n).headD false) := by
  induction n generalizing l with
  | zero => cases l <;> simp [window, bitsNat]
  | succ n ih =>
    have hd : l.tail.drop n = l.drop (n + 1) := List.drop_tail
    rw [window_succ, bitsNat_cons, ih l.tail, window_length, window_succ n, bitsNat_cons, window_length, hd, Nat.pow_succ]
    ring

theorem bitsNat_replicate_false (n : Nat) : bitsNat (List.replicate n false) = 0 := by
  induction n with
  | zero => rfl
  | succ n ih => rw [List.replicate_succ, bitsNat_cons, ih]; simp [bitNat]

theorem bitsNat_replicate_true (n : Nat) : bitsNat (List.replicate n true) + 1 = 2 ^ n := by
  induction n with
  | zero => rfl
  | succ n ih =>
    rw [List.replicate_succ, bitsNat_cons, List.length_replicate, Nat.pow_succ]
    simp only [bitNat, if_true]
    omega

/-! ## The value the bits to come stand for -/

/-- What the value register holds when the encoder has `p` bits pending and emits the bits `l` from there on: the
first `16 + p` of them, less what the pending bits add (43_decoder.md R191). -/
def bitsValue (p : Nat) (l : List Bool) : Int :=
  (bitsNat (window (16 + p) l) : Int) - (2 ^ p - 1) * 32768

theorem bitsValue_zero (l : List Bool) : bitsValue 0 l = bitsNat (window 16 l) := by simp [bitsValue]

/-- E3 leaves one more bit pending and takes one bit into the register. -/
theorem bitsValue_e3 (p : Nat) (l : List Bool) :
    bitsValue (p + 1) l = 2 * (bitsValue p l - (Scaling.off .e3 : Nat)) + bitNat ((l.drop (16 + p)).headD false) := by
  rw [bitsValue, bitsValue, ← Nat.add_assoc, bitsNat_window_succ]
  simp only [Scaling.off, Config.QUARTER_eq]
  push_cast
  rw [pow_succ]
  ring

/-- The definite bit and its follow bits, then the rest: where the value lies. -/
theorem bitsValue_definite (p : Nat) (b : Bool) (l : List Bool) :
    bitsValue p (b :: List.replicate p (!b) ++ l) = (if b then 32768 else 0) + (bitsNat (window 15 l) : Int) := by
  have hlen : 16 + p = (b :: List.replicate p (!b)).length + 15 := by simp; omega
  rw [bitsValue, hlen, window_append, bitsNat_append, window_length, bitsNat_cons, List.length_replicate]
  cases b with
  | false =>
    have h := bitsNat_replicate_true p
    simp only [bitNat, Bool.not_false, Bool.false_eq_true, if_false]
    have h' : (bitsNat (List.replicate p true) : Int) = 2 ^ p - 1 := by
      have : ((bitsNat (List.replicate p true) + 1 : Nat) : Int) = ((2 ^ p : Nat) : Int) := by rw [h]
      push_cast at this
      linarith
    push_cast
    rw [h']
    ring
  | true =>
    simp only [bitNat, Bool.not_true, bitsNat_replicate_false, if_true]
    push_cast
    ring

/-- E1 and E2 take the definite bit and its follow bits out of the stream and one bit into the register. -/
theorem bitsValue_settled (p : Nat) (b : Bool) (l : List Bool) :
    bitsValue 0 l = 2 * (bitsValue p (b :: List.replicate p (!b) ++ l) - (if b then 32768 else 0)) +
      bitNat (((b :: List.replicate p (!b) ++ l).drop (16 + p)).headD false) := by
  have hlen : 16 + p = (b :: List.replicate p (!b)).length + 15 := by simp; omega
  rw [bitsValue_definite, bitsValue_zero, bitsNat_window_succ, hlen, List.drop_append]
  simp

/-- One case, whichever it is: the value goes through the map of R191. -/
theorem bitsValue_step (k : Scaling) (p : Nat) (l : List Bool) :
    bitsValue (emission [k] p).2 l =
      2 * (bitsValue p ((emission [k] p).1 ++ l) - (k.off : Nat)) +
        bitNat ((((emission [k] p).1 ++ l).drop (16 + p)).headD false) := by
  cases k with
  | e1 => simpa [emission, Scaling.off] using bitsValue_settled p false l
  | e2 => simpa [emission, Scaling.off] using bitsValue_settled p true l
  | e3 => simpa [emission] using bitsValue_e3 p l

/-! ## Where the value lies (R195, R196) -/

/-- The value lies in the interval. -/
def Interval.Holds (iv : Interval) (v : Int) : Prop := (iv.low : Int) ≤ v ∧ v ≤ iv.high

/-- Going back over one case: a value in the rescaled interval came from one in the interval. -/
theorem Interval.holds_of_rescale {iv : Interval} (h : iv.Proper) {k : Scaling} (hk : iv.scaling = some k) {v w : Int}
    {b : Bool} (hw : w = 2 * (v - (k.off : Nat)) + bitNat b) (hh : (iv.rescale k).Holds w) : iv.Holds v := by
  obtain ⟨h1, h2⟩ := Interval.scaling_room h hk
  obtain ⟨h3, h4⟩ := hh
  have hb := bitNat_le b
  have ho := h.ordered
  simp only [Interval.rescale] at h3 h4
  constructor <;> omega

theorem emission_cons (k : Scaling) (ks : List Scaling) (p : Nat) :
    emission (k :: ks) p =
      ((emission [k] p).1 ++ (emission ks (emission [k] p).2).1, (emission ks (emission [k] p).2).2) := by
  have := emission_append [k] ks p
  rwa [List.singleton_append] at this

/-- Going back over the whole loop. -/
theorem Interval.holds_of_settle (fuel : Nat) {iv : Interval} (h : iv.Proper) (p : Nat) (l : List Bool)
    (hh : (iv.settle fuel).2.Holds (bitsValue (emission (iv.settle fuel).1 p).2 l)) :
    iv.Holds (bitsValue p ((emission (iv.settle fuel).1 p).1 ++ l)) := by
  induction fuel generalizing iv p with
  | zero => simpa [Interval.settle, emission] using hh
  | succ fuel ih =>
    rw [Interval.settle] at hh ⊢
    cases hk : iv.scaling with
    | none => simpa [hk, emission] using hh
    | some k =>
      simp only [hk] at hh ⊢
      rw [emission_cons k] at hh ⊢
      have g := ih (Interval.rescale_proper h hk) _ hh
      rw [List.append_assoc]
      exact Interval.holds_of_rescale h hk (bitsValue_step k p _) g

/-- Going forward over the whole loop: the register, taking one bit for each case, ends at the value of the bits
that follow. -/
theorem shiftValue_settle (fuel : Nat) {iv : Interval} (h : iv.Proper) (p : Nat) (l w : List Bool) {v : Nat}
    (hv : iv.low ≤ v ∧ v ≤ iv.high) (he : (v : Int) = bitsValue p ((emission (iv.settle fuel).1 p).1 ++ l))
    (hw : w = ((emission (iv.settle fuel).1 p).1 ++ l).drop (16 + p)) :
    (shiftValue (iv.settle fuel).1 (window (iv.settle fuel).1.length w) v : Int) =
      bitsValue (emission (iv.settle fuel).1 p).2 l := by
  induction fuel generalizing iv p w v with
  | zero => simpa [Interval.settle, shiftValue, emission, window_zero] using he
  | succ fuel ih =>
    rw [Interval.settle] at he hw ⊢
    cases hk : iv.scaling with
    | none => simpa [hk, shiftValue, emission, window_zero] using he
    | some k =>
      simp only [hk] at he hw ⊢
      rw [emission_cons k] at he hw ⊢
      rw [List.append_assoc] at he hw
      obtain ⟨h1, h2⟩ := Interval.scaling_room h hk
      have hb := bitNat_le (w.headD false)
      have hs := bitsValue_step k p ((emission ((iv.rescale k).settle fuel).1 (emission [k] p).2).1 ++ l)
      rw [← he, ← hw] at hs
      simp only [List.length_cons, window_succ, shiftValue]
      refine ih (Interval.rescale_proper h hk) (emission [k] p).2 w.tail ?_ ?_ ?_
      · simp only [Interval.rescale]
        omega
      · rw [hs]
        push_cast [Nat.cast_sub (show k.off ≤ v by omega)]
        ring
      · rw [hw, ← List.drop_one, List.drop_drop]
        have hc := emission_count [k] p
        simp only [List.length_singleton] at hc
        have hd : 16 + p + 1 = (emission [k] p).1.length + (16 + (emission [k] p).2) := by omega
        rw [hd, List.drop_append]
        simp

/-! ## Whole sequences of symbols (R170, R172) -/

/-- What is needed of the table for symbols to be coded: a legal total, and every symbol in the alphabet with a
positive weight. -/
structure State.Codes (s : State) (syms : List Nat) : Prop where
  canonical : Memory.wf s.freq = true
  positive : 1 ≤ s.total
  small : s.total < Config.QUARTER
  inRange : ∀ sym ∈ syms, sym ≤ s.eosSym
  weighted : ∀ sym ∈ syms, s.weight sym ≠ 0#14

theorem State.Codes.head {s : State} {sym : Nat} {syms : List Nat} (h : s.Codes (sym :: syms)) {iv : Interval}
    (hp : iv.Proper) (hn : iv.scaling = none) :
    (s.narrowFor iv sym).Proper ∧ iv.low ≤ (s.narrowFor iv sym).low ∧ (s.narrowFor iv sym).high ≤ iv.high := by
  have hr := Interval.range_of_settled hn
  have hs := h.small
  exact State.narrowFor_proper h.canonical hp h.positive (by omega) (h.inRange sym (by simp)) (h.weighted sym (by simp))

theorem State.Codes.tail {s : State} {sym : Nat} {syms : List Nat} (h : s.Codes (sym :: syms)) : s.Codes syms :=
  ⟨h.canonical, h.positive, h.small, fun a ha => h.inRange a (by simp [ha]), fun a ha => h.weighted a (by simp [ha])⟩

theorem State.codingTrace_proper {s : State} {syms : List Nat} (h : s.Codes syms) {iv : Interval} (hp : iv.Proper)
    (hn : iv.scaling = none) : (s.codingTrace iv syms).2.Proper ∧ (s.codingTrace iv syms).2.scaling = none := by
  induction syms generalizing iv with
  | nil => exact ⟨hp, hn⟩
  | cons sym syms ih =>
    have hpr := (h.head hp hn).1
    exact ih h.tail (Interval.settle_proper _ hpr) (Interval.settle_P_none hpr)

/-- Going back over a whole sequence: if the value of the bits after it lies in the last interval, the value of all
the bits lies in the first. -/
theorem State.holds_of_coding {s : State} {syms : List Nat} (h : s.Codes syms) {iv : Interval} (hp : iv.Proper)
    (hn : iv.scaling = none) (p : Nat) (l : List Bool)
    (hh : (s.codingTrace iv syms).2.Holds (bitsValue (emission (s.codingTrace iv syms).1 p).2 l)) :
    iv.Holds (bitsValue p ((emission (s.codingTrace iv syms).1 p).1 ++ l)) := by
  induction syms generalizing iv p with
  | nil => simpa [State.codingTrace, emission] using hh
  | cons sym syms ih =>
    obtain ⟨hpr, hlo, hhi⟩ := h.head hp hn
    simp only [State.codingTrace, emission_append] at hh ⊢
    have g := ih h.tail (Interval.settle_proper _ hpr) (Interval.settle_P_none hpr) _ hh
    have g2 := Interval.holds_of_settle Config.P hpr p _ g
    rw [List.append_assoc]
    obtain ⟨g3, g4⟩ := g2
    constructor <;> omega

/-- The final bits of ENC_FIN lead into the interval, whatever follows them (R168, R170). -/
theorem holds_of_final {iv : Interval} (hn : iv.scaling = none) (p : Nat) (l : List Bool) {b : Bool}
    (hb : b = !decide (iv.low < Config.QUARTER)) : iv.Holds (bitsValue p (b :: List.replicate (p + 1) (!b) ++ l)) := by
  rw [Interval.scaling_none_iff] at hn
  have hsplit : b :: List.replicate (p + 1) (!b) ++ l = b :: List.replicate p (!b) ++ ((!b) :: l) := by
    rw [List.replicate_succ']
    simp
  have hlt := bitsNat_lt (window 14 l)
  rw [window_length] at hlt
  rw [hsplit, bitsValue_definite, window_succ, bitsNat_cons, window_length]
  simp only [Config.HALF_eq, Config.QUARTER_eq, Config.THREEQ_eq] at hn hb
  simp only [List.headD_cons, List.tail_cons]
  by_cases h : iv.low < 16384
  · simp only [h, decide_true, Bool.not_true] at hb
    subst hb
    simp only [bitNat, Bool.not_false, if_true, Bool.false_eq_true, if_false]
    constructor <;> push_cast <;> omega
  · simp only [h, decide_false, Bool.not_false] at hb
    subst hb
    simp only [bitNat, Bool.not_true, if_true, Bool.false_eq_true, if_false]
    constructor <;> push_cast <;> omega

/-- The symbol `Find` gives for a value in the narrowed interval is the one narrowed to (R195). -/
theorem decodes_of_holds {s : State} (hm : Memory.wf s.freq = true) {iv : Interval} {sym v : Nat} (ht : 1 ≤ s.total)
    (hs : sym ≤ s.eosSym) (hl : iv.low ≤ v) (h1 : (s.narrowFor iv sym).low ≤ v)
    (h2 : v + 1 ≤ iv.low + iv.range * s.cum (sym + 1) / s.total) :
    s.findSymbol (iv.scaled v s.total) = some sym := by
  obtain ⟨g1, g2⟩ := (Interval.scaled_mem_iff (lo := s.cum sym) (hi := s.cum (sym + 1)) ht hl).2 ⟨h1, h2⟩
  have hle : s.cum (sym + 1) ≤ s.total := Memory.cum_mono _ (by omega)
  exact State.findSymbol_eq_some hm g1 g2 (by omega)

end Sys2Proof.Machine
end

