-- ==== Sys2Proof/Laws/Decode.lean ====
section
/-! SUPPORT. The laws of the encoding: the opcode map over the naturals (30_encoding.md R90 to R96). -/

namespace Sys2Proof

/-- Every mask of the opcode map keeps the bits from some position up; a word then hits the row exactly when
those bits are the pattern's. -/
theorem and_highMask (cmd pat mask : Word) (k : Nat) (hk : k ≤ 32) (hmask : mask = BitVec.allOnes 32 <<< k)
    (hpat : pat.toNat % 2 ^ k = 0) : (cmd &&& mask) = pat ↔ cmd.toNat / 2 ^ k = pat.toNat / 2 ^ k := by
  have key : (cmd &&& mask).toNat = cmd.toNat / 2 ^ k * 2 ^ k := by
    subst hmask
    refine Nat.eq_of_testBit_eq fun i => ?_
    rw [← BitVec.getLsbD, BitVec.getLsbD_and, BitVec.getLsbD_shiftLeft, Nat.testBit_mul_two_pow, Nat.testBit_div_two_pow]
    by_cases h : k ≤ i
    · by_cases h2 : i < 32
      · have h3 : i - k < 32 := by omega
        have h4 : i - k + k = i := by omega
        have h5 : ¬ i < k := by omega
        simp only [BitVec.getLsbD_allOnes, h, h2, h3, h4, h5, decide_true, decide_false, Bool.and_true, Bool.true_and,
          Bool.not_false]
        rfl
      · have h4 : i - k + k = i := by omega
        have h6 : cmd.getLsbD i = false := BitVec.getLsbD_of_ge _ _ (by omega)
        have h7 : cmd.toNat.testBit i = false := h6
        simp [h6, h7, h4]
    · have h5 : i < k := by omega
      simp [h, h5]
  rw [← BitVec.toNat_inj, key]
  constructor
  · intro h
    rw [← h, Nat.mul_div_cancel _ (Nat.two_pow_pos k)]
  · intro h
    rw [h, Nat.div_mul_cancel (Nat.dvd_of_mod_eq_zero hpat)]

theorem rowZ_hits (pat : Word) (i : Instr) (cmd : Word) : (rowZ pat i).hits cmd = decide (cmd.toNat = pat.toNat) := by
  have h := and_highMask cmd pat 0xFFFFFFFF#32 0 (by omega) (by decide) (Nat.mod_one _)
  rw [Nat.pow_zero, Nat.div_one, Nat.div_one] at h
  rw [Row.hits, rowZ, Bool.beq_eq_decide_eq]
  exact decide_eq_decide.2 h

theorem rowS_hits (pat : Word) (f : Nat → Instr) (cmd : Word) (hpat : pat.toNat % 2 ^ 14 = 0) :
    (rowS pat f).hits cmd = decide (cmd.toNat / 2 ^ 14 = pat.toNat / 2 ^ 14) := by
  rw [Row.hits, rowS, Bool.beq_eq_decide_eq]
  exact decide_eq_decide.2 (and_highMask cmd pat 0xFFFFC000#32 14 (by omega) (by decide) hpat)

theorem rowT_hits (f : Word → Instr) (cmd : Word) :
    (Row.mk 0x10000000#32 0xF0000000#32 f).hits cmd = decide (cmd.toNat / 2 ^ 28 = 1) := by
  rw [Row.hits, Bool.beq_eq_decide_eq]
  exact decide_eq_decide.2 (and_highMask cmd 0x10000000#32 0xF0000000#32 28 (by omega) (by decide) (by decide))

theorem rowB_hits (f : Word → Instr) (cmd : Word) :
    (Row.mk 0x30000000#32 0xFFFFFFFE#32 f).hits cmd = decide (cmd.toNat / 2 = 0x18000000) := by
  rw [Row.hits, Bool.beq_eq_decide_eq]
  exact decide_eq_decide.2 (and_highMask cmd 0x30000000#32 0xFFFFFFFE#32 1 (by omega) (by decide) (by decide))

theorem fieldArg_eq (cmd : Word) : fieldArg cmd = cmd.toNat % 2 ^ 14 := by
  simp [fieldArg, BitVec.extractLsb'_toNat]

theorem fieldWeight_toNat (cmd : Word) : (fieldWeight cmd).toNat = cmd.toNat / 2 ^ 14 % 2 ^ 14 := by
  simp [fieldWeight, BitVec.extractLsb'_toNat, Nat.shiftRight_eq_div_pow]

theorem fieldBit_eq (cmd : Word) : fieldBit cmd = decide (cmd.toNat % 2 = 1) := by
  simp [fieldBit, BitVec.getLsbD, Nat.testBit_zero]

theorem toNat_append_eq {n m : Nat} (x : BitVec n) (y : BitVec m) : (x ++ y).toNat = x.toNat * 2 ^ m + y.toNat := by
  rw [BitVec.toNat_append, ← Nat.shiftLeft_add_eq_or_of_lt y.isLt, Nat.shiftLeft_eq]

theorem encodeZ_toNat (op : BitVec 8) : (encodeZ op).toNat = op.toNat * 2 ^ 24 := by
  rw [encodeZ, toNat_append_eq]
  simp

theorem encodeS_toNat (op : BitVec 8) (arg : Nat) : (encodeS op arg).toNat = op.toNat * 2 ^ 24 + arg % 2 ^ 14 := by
  rw [encodeS, toNat_append_eq, toNat_append_eq]
  simp
  omega

theorem encodeB_toNat (op : BitVec 8) (b : Bool) : (encodeB op b).toNat = op.toNat * 2 ^ 24 + b.toNat := by
  rw [encodeB, toNat_append_eq, toNat_append_eq]
  simp
  omega

theorem encodeT_toNat (idx : Nat) (w : Weight) :
    (encodeT idx w).toNat = 2 ^ 28 + w.toNat * 2 ^ 14 + idx % 2 ^ 14 := by
  rw [encodeT, toNat_append_eq, toNat_append_eq]
  simp
  omega

/-- What the decoder answers when only these rows are left (R95). -/
def decodeFrom (rs : List Row) (cmd : Word) : Except Illegal Instr :=
  match rs.find? fun r => r.hits cmd with
  | some r => .ok (r.build cmd)
  | none => if opcodeListed cmd then .error .nonzeroReservedBits else .error .reservedOpcode

theorem decodeFrom_cons (r : Row) (rs : List Row) (cmd : Word) :
    decodeFrom (r :: rs) cmd = if r.hits cmd then .ok (r.build cmd) else decodeFrom rs cmd := by
  rw [decodeFrom, List.find?_cons]
  cases h : r.hits cmd <;> rfl

/-- The decoder over the naturals: which row a word hits (R95). -/
theorem decode_eq (cmd : Word) :
    decode cmd =
      if cmd.toNat = 0 then .ok .nop
      else if cmd.toNat = 0x01000000 then .ok .srst
      else if cmd.toNat / 2 ^ 14 = 0x02 * 2 ^ 10 then .ok (.csrRd (cmd.toNat % 2 ^ 14))
      else if cmd.toNat / 2 ^ 28 = 1 then .ok (.tblWr (cmd.toNat % 2 ^ 14) (fieldWeight cmd))
      else if cmd.toNat / 2 ^ 14 = 0x20 * 2 ^ 10 then .ok (.flFreq (cmd.toNat % 2 ^ 14))
      else if cmd.toNat / 2 ^ 14 = 0x21 * 2 ^ 10 then .ok (.flCumlo (cmd.toNat % 2 ^ 14))
      else if cmd.toNat / 2 ^ 14 = 0x22 * 2 ^ 10 then .ok (.flCumhi (cmd.toNat % 2 ^ 14))
      else if cmd.toNat = 0x23000000 then .ok .flTotal
      else if cmd.toNat / 2 ^ 14 = 0x24 * 2 ^ 10 then .ok (.flFind (cmd.toNat % 2 ^ 14))
      else if cmd.toNat / 2 = 0x18000000 then .ok (.txPut (fieldBit cmd))
      else if cmd.toNat = 0x31000000 then .ok .txClose
      else if cmd.toNat = 0x38000000 then .ok .rxGet
      else if cmd.toNat = 0x40000000 then .ok .encInit
      else if cmd.toNat / 2 ^ 14 = 0x41 * 2 ^ 10 then .ok (.encSym (cmd.toNat % 2 ^ 14))
      else if cmd.toNat = 0x42000000 then .ok .encFin
      else if cmd.toNat = 0x50000000 then .ok .decInit
      else if cmd.toNat = 0x51000000 then .ok .decSym
      else if cmd.toNat = 0x52000000 then .ok .decEnd
      else if opcodeListed cmd then .error .nonzeroReservedBits else .error .reservedOpcode := by
  show decodeFrom rows cmd = _
  rw [rows]
  simp only [List.cons_append, List.nil_append, decodeFrom_cons]
  rw [rowS_hits 0x02000000#32 _ _ (by decide), rowS_hits 0x20000000#32 _ _ (by decide),
    rowS_hits 0x21000000#32 _ _ (by decide), rowS_hits 0x22000000#32 _ _ (by decide),
    rowS_hits 0x24000000#32 _ _ (by decide), rowS_hits 0x41000000#32 _ _ (by decide), rowT_hits, rowB_hits]
  simp only [rowZ_hits, decide_eq_true_eq]
  simp only [rowZ, rowS, fieldArg_eq]
  rfl

/-- A word that decodes is the command some row of the map gives it. -/
theorem decode_ok {cmd : Word} {i : Instr} (h : decode cmd = .ok i) : ∃ r ∈ rows, r.hits cmd = true ∧ i = r.build cmd := by
  rw [decode] at h
  cases hf : rows.find? fun r => r.hits cmd with
  | some r =>
    rw [hf] at h
    exact ⟨r, List.mem_of_find?_eq_some hf, List.find?_some (p := fun r => Row.hits r cmd) hf, (Except.ok.inj h).symm⟩
  | none =>
    rw [hf] at h
    dsimp only at h
    split at h <;> exact absurd h (by simp)

/-- A word that does not decode hits no row of the map. -/
theorem decode_error {cmd : Word} {e : Illegal} (h : decode cmd = .error e) : ∀ r ∈ rows, r.hits cmd = false := by
  rw [decode] at h
  cases hf : rows.find? fun r => r.hits cmd with
  | some r => rw [hf] at h; exact absurd h (by simp)
  | none => simpa using hf

end Sys2Proof
end

