-- ==== Sys2Proof/Laws/PerInstr.lean ====
section
/-! SUPPORT. Statements about every command as syntax, one lemma per constructor: the family `OpcodeGroup`, the top
four bits of every command word by the block it addresses (30_encoding.md R95). -/

namespace Sys2Proof.Laws.OpcodeGroup

/-- The top four bits the opcode map gives the command's group: system 0, table write 1, table queries 2, bit
buffers 3, encoder 4, decoder 5 (R95). -/
def group : Instr → Nat
  | .nop | .srst | .csrRd _ => 0
  | .tblWr _ _ => 1
  | .flFreq _ | .flCumlo _ | .flCumhi _ | .flTotal | .flFind _ => 2
  | .txPut _ | .txClose | .rxGet => 3
  | .encInit | .encSym _ | .encFin => 4
  | .decInit | .decSym | .decEnd => 5

/-- The command's word lies in its group. -/
def Statement (i : Instr) : Prop := (encode i).toNat / 2 ^ 28 = group i

theorem ofZ (op : BitVec 8) : (encodeZ op).toNat / 2 ^ 28 = op.toNat / 16 := by
  rw [encodeZ_toNat]
  omega

theorem ofS (op : BitVec 8) (arg : Nat) : (encodeS op arg).toNat / 2 ^ 28 = op.toNat / 16 := by
  rw [encodeS_toNat]
  omega

theorem ofB (op : BitVec 8) (b : Bool) : (encodeB op b).toNat / 2 ^ 28 = op.toNat / 16 := by
  rw [encodeB_toNat]
  have : b.toNat ≤ 1 := Bool.toNat_le b
  omega

theorem ofT (idx : Nat) (w : Weight) : (encodeT idx w).toNat / 2 ^ 28 = 1 := by
  rw [encodeT_toNat]
  have := w.isLt
  omega

theorem nop : Statement .nop := ofZ _
theorem srst : Statement .srst := ofZ _
theorem csrRd (addr : Nat) : Statement (.csrRd addr) := ofS _ addr
theorem tblWr (idx : Nat) (w : Weight) : Statement (.tblWr idx w) := ofT idx w
theorem flFreq (sym : Nat) : Statement (.flFreq sym) := ofS _ sym
theorem flCumlo (sym : Nat) : Statement (.flCumlo sym) := ofS _ sym
theorem flCumhi (sym : Nat) : Statement (.flCumhi sym) := ofS _ sym
theorem flTotal : Statement .flTotal := ofZ _
theorem flFind (x : Nat) : Statement (.flFind x) := ofS _ x
theorem txPut (b : Bool) : Statement (.txPut b) := ofB _ b
theorem txClose : Statement .txClose := ofZ _
theorem rxGet : Statement .rxGet := ofZ _
theorem encInit : Statement .encInit := ofZ _
theorem encSym (sym : Nat) : Statement (.encSym sym) := ofS _ sym
theorem encFin : Statement .encFin := ofZ _
theorem decInit : Statement .decInit := ofZ _
theorem decSym : Statement .decSym := ofZ _
theorem decEnd : Statement .decEnd := ofZ _

end Sys2Proof.Laws.OpcodeGroup
end

