-- ==== Sys2Proof/Tests/Slice0.lean ====
section
/-! SUPPORT. The model's own tests.  The expected values are those of 95_test_vectors.md (the vector is named at each
test), worked out there from the rules; the last part shows for each statement a state that meets its hypotheses. -/

namespace Sys2Proof.Machine.Tests

/-! ## Decoding: the words of V-N1, V-N2 and V-N3 -/

theorem test_decode_system :
    decode 0x00000000#32 = .ok .nop ∧ decode 0x01000000#32 = .ok .srst ∧ decode 0x02000012#32 = .ok (.csrRd 0x12) := by
  decide

theorem test_decode_table :
    decode 0x1000C000#32 = .ok (.tblWr 0 3#14) ∧ decode 0x1FBFC041#32 = .ok (.tblWr 65 16127#14) ∧
    decode 0x1FFFFFFF#32 = .ok (.tblWr 16383 16383#14) := by decide

theorem test_decode_queries :
    decode 0x20000002#32 = .ok (.flFreq 2) ∧ decode 0x21000002#32 = .ok (.flCumlo 2) ∧
    decode 0x22000001#32 = .ok (.flCumhi 1) ∧ decode 0x23000000#32 = .ok .flTotal ∧
    decode 0x24000004#32 = .ok (.flFind 4) := by decide

theorem test_decode_buffers :
    decode 0x30000001#32 = .ok (.txPut true) ∧ decode 0x30000000#32 = .ok (.txPut false) ∧
    decode 0x31000000#32 = .ok .txClose ∧ decode 0x38000000#32 = .ok .rxGet := by decide

theorem test_decode_encoder :
    decode 0x40000000#32 = .ok .encInit ∧ decode 0x41000041#32 = .ok (.encSym 0x41) ∧
    decode 0x4100012C#32 = .ok (.encSym 300) ∧ decode 0x42000000#32 = .ok .encFin := by decide

theorem test_decode_decoder :
    decode 0x50000000#32 = .ok .decInit ∧ decode 0x51000000#32 = .ok .decSym ∧ decode 0x52000000#32 = .ok .decEnd := by
  decide

theorem test_decode_illegal :
    decode 0x03000000#32 = .error .reservedOpcode ∧ decode 0x40000001#32 = .error .nonzeroReservedBits ∧
    decode 0x41004000#32 = .error .nonzeroReservedBits ∧ decode 0x02004000#32 = .error .nonzeroReservedBits ∧
    decode 0x30000002#32 = .error .nonzeroReservedBits ∧ decode 0xFFFFFFFF#32 = .error .reservedOpcode ∧
    decode 0x25000000#32 = .error .reservedOpcode ∧ decode 0x53000000#32 = .error .reservedOpcode := by decide

/-- The opcode bytes at the ends of the reserved ranges of R99. -/
theorem test_decode_reserved_ranges :
    ([0x03, 0x0F, 0x25, 0x2F, 0x32, 0x37, 0x39, 0x3F, 0x43, 0x4F, 0x53, 0xFF].all fun op =>
      decide (decode (BitVec.ofNat 32 (op * 2 ^ 24)) = .error .reservedOpcode)) = true := by decide

/-- R95: two rows of the map differ in a bit that both fix, so no word hits both. -/
theorem test_rows_disjoint :
    rows.Pairwise fun a b => ((a.pat ^^^ b.pat) &&& (a.mask &&& b.mask)) ≠ 0#32 := by decide

theorem test_encode :
    encode (.tblWr 65 16127#14) = 0x1FBFC041#32 ∧ encode (.encSym 256) = 0x41000100#32 ∧
    encode (.txPut true) = 0x30000001#32 ∧ encode .decEnd = 0x52000000#32 := by decide

theorem test_decodeTableWord :
    decodeTableWord 32 0x24000004 = some (.flFind 4) ∧ decodeTableWord 32 0x41004000 = none := by decide

/-! ## WellFormed: an operand of more than 14 bits is refused, in each command that has one -/

theorem test_wellFormed_refuses_csrRd : (Instr.csrRd 16384).wellFormed = false := by decide
theorem test_wellFormed_refuses_tblWr : (Instr.tblWr 16384 0#14).wellFormed = false := by decide
theorem test_wellFormed_refuses_flFreq : (Instr.flFreq 16384).wellFormed = false := by decide
theorem test_wellFormed_refuses_flCumlo : (Instr.flCumlo 16384).wellFormed = false := by decide
theorem test_wellFormed_refuses_flCumhi : (Instr.flCumhi 16384).wellFormed = false := by decide
theorem test_wellFormed_refuses_flFind : (Instr.flFind 16384).wellFormed = false := by decide
theorem test_wellFormed_refuses_encSym : (Instr.encSym 16384).wellFormed = false := by decide

/-! ## Small states -/

/-- Whether a result is a next state. -/
def goesOn : Result → Bool
  | .next _ => true
  | _ => false

/-- The next state of a result that goes on. -/
def after : Result → State
  | .next t => t
  | _ => State.reset

theorem next_of {r : Result} (h : goesOn r = true) : r = .next (after r) := by
  cases r <;> first | rfl | simp [goesOn] at h

/-- `N = 2` and the table of the spec's vectors: weights 3, 1, 1 (T1). -/
def t1 : State := { State.reset with params := ⟨2#14⟩, freq := [(0, 3#14), (1, 1#14), (2, 1#14)] }

/-- `N = 2`, weights 7, 2, 7 (V-E8, V-X8). -/
def t7 : State := { State.reset with params := ⟨2#14⟩, freq := [(0, 7#14), (1, 2#14), (2, 7#14)] }

/-- `N = 2`, weights 16383, 1: one above the largest legal total (V-X2). -/
def tooBig : State := { State.reset with params := ⟨2#14⟩, freq := [(0, 16383#14), (1, 1#14)] }

/-- T1 after `ENC_INIT` (P1). -/
def encOpen : State := { t1 with encActive := true }

/-- P1 after its second symbol: `(0000, B84F)`, one bit 0 in the transmit buffer. -/
def encMid : State := { encOpen with encHigh := 0xB84F#16, txFill := 1#3 }

/-- P2 after its second symbol: `(0000, B84F)`, value 8E00, the input used up. -/
def decMid : State :=
  { t1 with decActive := true, decHigh := 0xB84F#16, decValue := 0x8E00#16, rxEnd := true, inp := [0x47#8], inPos := 1 }

/-- T1 with a fault recorded (V-X1). -/
def latched2 : State := { t1 with faultCause := 2#4, faultCmd := 0x40000000#32 }

/-- V-X8: an open session with the pending counter one below its maximum. -/
def nearlyFull : State := { t7 with encActive := true, encPend := 0xFFFFFFFE#32 }

/-- The last response of a result's next state. -/
def reply (r : Result) : Nat × Nat :=
  match (after r).rsps.getLast? with
  | some x => (x.code.toNat, x.data.toNat)
  | none => (99, 0)

/-! ## One step of each command -/

/-- V-S4. -/
theorem test_nop : after (exec .nop t1) = t1.answered 0 0 ∧ after (exec .nop latched2) = latched2.answered 0xF 0 := by
  decide

/-- V-X1: `SRST` clears the fault and keeps the table. -/
theorem test_srst : after (exec .srst latched2) = t1.answered 0 0 := by decide

/-- V-S1. -/
theorem test_csrRd : (goesOn (exec (.csrRd 1) t1) = true ∧ reply (exec (.csrRd 1) t1) = (0, 0x20100002)) ∧
    reply (exec (.csrRd 0) t1) = (0, 0x41430001) ∧ reply (exec (.csrRd 9) t1) = (0, 0xFFFF) := by decide

/-- V-S2. -/
theorem test_csrRd_undefined : after (exec (.csrRd 5) t1) = t1.latched 7 0x02000005#32 := by decide

/-- V-F5. -/
theorem test_tblWr : (after (exec (.tblWr 0 4#14) t1)).freq = [(0, 4#14), (1, 1#14), (2, 1#14)] ∧
    (after (exec (.tblWr 0 0#14) t1)).freq = [(1, 1#14), (2, 1#14)] := by decide

/-- V-X7. -/
theorem test_tblWr_index : after (exec (.tblWr 3 1#14) t1) = t1.latched 7 0x10004003#32 := by decide

/-- V-F1. -/
theorem test_flFreq : reply (exec (.flFreq 0) t1) = (0, 3) ∧
    after (exec (.flFreq 3) t1) = t1.latched 7 0x20000003#32 := by decide

/-- V-F1. -/
theorem test_flCumlo : reply (exec (.flCumlo 0) t1) = (0, 0) ∧ reply (exec (.flCumlo 2) t1) = (0, 4) := by decide

/-- V-F1. -/
theorem test_flCumhi : reply (exec (.flCumhi 0) t1) = (0, 3) ∧ reply (exec (.flCumhi 2) t1) = (0, 5) := by decide

/-- V-F1, and the step after reset that fetches it (V-F3). -/
theorem test_flTotal : reply (exec .flTotal t1) = (0, 5) ∧
    after (step (State.reset.withFetchWord 32 0x23000000)) = State.reset.answered 0 0 := by decide

/-- V-F1. -/
theorem test_flFind : reply (exec (.flFind 2) t1) = (0, 0) ∧ reply (exec (.flFind 3) t1) = (0, 1) ∧
    after (exec (.flFind 5) t1) = t1.latched 7 0x24000005#32 := by decide

/-- V-B1: the first bit and the eighth. -/
theorem test_txPut : after (exec (.txPut true) t1) = { t1 with txBuf := 0x80#8, txFill := 1#3, rsps := [⟨0#4, 0#32⟩] } ∧
    (after (exec (.txPut false) { t1 with txBuf := 0xB2#8, txFill := 7#3 })).out = [0xB2#8] := by decide

/-- V-B1. -/
theorem test_txClose : (after (exec .txClose { t1 with txBuf := 0x80#8, txFill := 1#3 })).out = [0x80#8] ∧
    after (exec .txClose t1) = t1.answered 0 0 := by decide

/-- V-B2. -/
theorem test_rxGet :
    after (exec .rxGet { t1 with inp := [0xA5#8, 0x80#8] }) =
      { t1 with inp := [0xA5#8, 0x80#8], inPos := 1, rxBuf := 0x4A#8, rxCnt := 7#4, rsps := [⟨0#4, 1#32⟩] } := by decide

/-- V-B3. -/
theorem test_rxGet_end : after (exec .rxGet t1) = { t1 with rxEnd := true, rsps := [⟨0#4, 0#32⟩] } := by decide

/-- P1, and V-X2. -/
theorem test_encInit : after (exec .encInit t1) = encOpen.answered 0 0 ∧
    after (exec .encInit tooBig) = tooBig.latched 1 0x40000000#32 := by decide

/-- V-E1, the third symbol. -/
theorem test_encSym :
    after (exec (.encSym 1) encMid) =
      { encMid with encLow := 0x3A58#16, encHigh := 0xCDCB#16, encPend := 2#32, rsps := [⟨0#4, 0#32⟩] } := by decide

/-- V-X8. -/
theorem test_encSym_overflow :
    after (exec (.encSym 1) nearlyFull) =
      State.latched { nearlyFull with encLow := 0x6000#16, encHigh := 0x9FFF#16, encPend := 0xFFFFFFFF#32 } 4
        0x41000001#32 := by decide

/-- V-E12: the final bit both ways. -/
theorem test_encFin :
    (after (exec .encFin { encMid with encLow := 0x3A58#16, encHigh := 0xCDCB#16, encPend := 2#32 })).out = [0x38#8] ∧
    (after (exec .encFin { encMid with encLow := 0x6666#16, encHigh := 0xCCCB#16 })).out = [0x40#8] := by decide

/-- P2. -/
theorem test_decInit :
    after (exec .decInit { t1 with inp := [0x47#8] }) =
      { t1 with decActive := true, decValue := 0x4700#16, rxEnd := true, inp := [0x47#8], inPos := 1,
                rsps := [⟨0#4, 0#32⟩] } := by decide

/-- P2, the third symbol. -/
theorem test_decSym :
    after (exec .decSym decMid) =
      { decMid with decLow := 0x3A58#16, decHigh := 0xCDCB#16, decValue := 0xB800#16, rsps := [⟨0#4, 1#32⟩] } := by decide

/-- V-D4: the end-of-stream symbol. -/
theorem test_decSym_eos :
    after (exec .decSym { t1 with decActive := true, decValue := 0xFFFF#16 }) =
      { t1 with decLow := 0xCCCC#16, decValue := 0xFFFF#16, decEos := true, rsps := [⟨0#4, 0x10002#32⟩] } := by decide

/-- P3, V-D6. -/
theorem test_decEnd : after (exec .decEnd { decMid with decEos := false }) = { decMid with decActive := false, rsps := [⟨0#4, 0#32⟩] } ∧
    after (exec .decEnd t1) = t1.latched 6 0x52000000#32 := by decide

/-- V-N3. -/
theorem test_illegal :
    after (step (t1.withFetchWord 32 0x41004000)) = t1.latched 5 0x41004000#32 := by decide

/-- R250: `rst` inside `RX_GET` after its byte has been taken. -/
theorem test_rst_inside :
    after (step { t1 with inp := [0xA5#8], host := [.rstDuring 0x38000000#32 1] }) =
      { State.reset with params := ⟨2#14⟩, inp := [0xA5#8], inPos := 1 } := by decide

/-- R78, 93 V7: `RX_GET` whose byte is never supplied waits; `SRST` is not accepted; `rst` ends it (R250). -/
theorem test_hang_input :
    step { t1 with host := [.stall 0x38000000#32 0] } = .next { t1 with inProgress := some 0x38000000#32 } ∧
    after (step { t1 with inProgress := some 0x38000000#32, host := [.cmd 0x01000000#32] }) =
      { t1 with inProgress := some 0x38000000#32 } ∧
    after (step { t1 with inProgress := some 0x38000000#32, host := [.rst] }) =
      { State.reset with params := ⟨2#14⟩ } := ⟨rfl, by decide, by decide⟩

/-- R273: `TX_PUT`'s eighth bit whose byte is never taken, and whose byte is taken but its response is not. -/
theorem test_hang_output :
    after (step { t1 with txBuf := 0xB2#8, txFill := 7#3, host := [.stall 0x30000000#32 0] }) =
      { t1 with txBuf := 0xB2#8, txFill := 7#3, inProgress := some 0x30000000#32 } ∧
    after (step { t1 with txBuf := 0xB2#8, txFill := 7#3, host := [.stall 0x30000000#32 1] }) =
      { t1 with out := [0xB2#8], inProgress := some 0x30000000#32 } := by decide

/-! ## For each statement with hypotheses, a state that meets them all -/

theorem inv_t1 : Inv t1 := by constructor <;> decide
theorem inv_encOpen : Inv encOpen := by constructor <;> decide
theorem inv_encMid : Inv encMid := by constructor <;> decide
theorem inv_decMid : Inv decMid := by constructor <;> decide
theorem inv_nearlyFull : Inv nearlyFull := by constructor <;> decide

/-- A row of each of the first two formats; the other two clauses have no hypothesis. -/
theorem witness_WordsFollowTheOpcodeMap :
    (0x42000000#32, Instr.encFin) ∈ [(0x40000000#32, Instr.encInit), (0x42000000#32, .encFin)] ∧
    (0x41000000#32, Instr.encSym) ∈ [(0x24000000#32, Instr.flFind), (0x41000000#32, .encSym)] := by
  simp only [List.mem_cons, true_or, or_true, and_self]

theorem witness_DecodeInvertsEncode :
    (Instr.tblWr 16383 16383#14).wellFormed = true ∧ (Instr.encSym 0).wellFormed = true ∧
    (Instr.csrRd 16383).wellFormed = true ∧ (Instr.txPut true).wellFormed = true ∧ Instr.decEnd.wellFormed = true := by decide

theorem witness_DecodedWordIsItsEncoding : decode 0x1FFFFFFF#32 = .ok (.tblWr 16383 16383#14) := by decide

/-- The illegal clause: a reserved opcode and a must-be-zero bit of each format; the legal clause: format T's last word. -/
theorem witness_IllegalWordsRaiseIllegalCmd :
    (t1.withFetchWord 32 0x41004000).inProgress = none ∧ (t1.withFetchWord 32 0x41004000).faulted = false ∧
    (0x0F000000#32).toNat / 2 ^ 24 = 0x0F ∧ (0x53000000#32).toNat / 2 ^ 24 = 0x53 ∧
    ((0x40000001#32).toNat / 2 ^ 24 = 0x40 ∧ (0x40000001#32).toNat % 2 ^ 24 ≠ 0) ∧
    ((0x41004000#32).toNat / 2 ^ 24 = 0x41 ∧ (0x41004000#32).toNat / 2 ^ 14 % 2 ^ 10 ≠ 0) ∧
    ((0x30000002#32).toNat / 2 ^ 24 = 0x30 ∧ (0x30000002#32).toNat / 2 % 2 ^ 23 ≠ 0) ∧
    (0x1FFFFFFF#32).toNat / 2 ^ 24 = 0x1F := by decide

theorem witness_StepExecutesThePresentedCommand :
    ∃ (s : State) (w : Word) (rest : List HostEvent) (i : Instr),
      s.inProgress = none ∧ s.host = .cmd w :: rest ∧ decode w = .ok i :=
  ⟨{ t1 with host := [.cmd 0x24000004#32, .rst] }, 0x24000004#32, [.rst], .flFind 4, rfl, rfl, by decide⟩

theorem witness_IdleBlockWaits : t1.host = [] := rfl

theorem witness_FaultedBlockRefuses :
    ∃ (s : State) (w : Word) (rest : List HostEvent),
      s.inProgress = none ∧ s.faulted = true ∧ s.host = .cmd w :: rest ∧ w ≠ 0x01000000#32 ∧
      ∀ a ∈ [0, 1, 2, 3, 4, 8, 9, 0xA, 0xB, 0x10, 0x11, 0x12, 0x13], w.toNat ≠ 0x02000000 + a :=
  ⟨{ latched2 with host := [.cmd 0x02000014#32] }, 0x02000014#32, [], rfl, by decide, rfl, by decide, by decide⟩

theorem witness_OneResponsePerCommand :
    ∃ (s t : State) (w : Word) (rest : List HostEvent),
      s.inProgress = none ∧ s.host = .cmd w :: rest ∧ step s = .next t :=
  ⟨t1.withFetchWord 32 0, _, _, _, rfl, rfl, next_of (by decide)⟩

theorem witness_ResetsSetEveryElement : ({ encMid with host := [.rst] } : State).host = [.rst] := rfl

theorem witness_ResetInsideACommandKeepsTransferredBytes :
    ∃ (s t : State) (w : Word) (k : Nat) (rest : List HostEvent),
      s.host = .rstDuring w k :: rest ∧ step { s with host := .cmd w :: rest } = .next t ∧ s.inPos < t.inPos :=
  ⟨{ t1 with inp := [0xA5#8], host := [.rstDuring 0x38000000#32 1] }, _, _, _, _, rfl, next_of (by decide), by decide⟩

/-- `RX_GET` waiting for its byte, waiting for `END` at the end of the input, and `NOP` whose response is not taken; in
each the whole command has a next state, and which clause applies. -/
theorem witness_UnansweredTransferLeavesTheCommandWaiting :
    let byteWanted : State := { t1 with inp := [0xA5#8], host := [.stall 0x38000000#32 0] }
    let endWanted : State := { t1 with host := [.stall 0x38000000#32 0] }
    let untaken : State := { t1 with host := [.stall 0#32 0] }
    (byteWanted.inProgress = none ∧ ∃ t, step { byteWanted with host := [.cmd 0x38000000#32] } = .next t ∧
      0 < (t.out.length - byteWanted.out.length) + (t.inPos - byteWanted.inPos)) ∧
    (endWanted.inProgress = none ∧ ∃ t, step { endWanted with host := [.cmd 0x38000000#32] } = .next t ∧
      t.rxEnd = true ∧ endWanted.rxEnd = false ∧
      0 = (t.out.length - endWanted.out.length) + (t.inPos - endWanted.inPos)) ∧
    (untaken.inProgress = none ∧ ∃ t, step { untaken with host := [.cmd 0#32] } = .next t ∧ t.rxEnd = false ∧
      0 = (t.out.length - untaken.out.length) + (t.inPos - untaken.inPos)) :=
  ⟨⟨rfl, _, next_of (by decide), by decide⟩, ⟨rfl, _, next_of (by decide), by decide⟩,
    ⟨rfl, _, next_of (by decide), by decide⟩⟩

/-- The first clause at a command and a second stall, the second at both ways of asserting `rst`. -/
theorem witness_OnlyResetEndsTheWait :
    (∃ s : State, s.inProgress ≠ none ∧ s.host ≠ [] ∧ ∀ e ∈ s.host, (∃ w, e = .cmd w) ∨ ∃ w k, e = .stall w k) ∧
    (∀ e ∈ [HostEvent.rst, .rstDuring 0#32 0],
      ({ t1 with inProgress := some 0x38000000#32, host := [e] } : State).inProgress ≠ none ∧
      (e = .rst ∨ ∃ w k, e = .rstDuring w k)) :=
  ⟨⟨{ t1 with inProgress := some 0x38000000#32, host := [.cmd 0#32, .stall 0#32 0] }, by decide, by decide, by simp⟩,
    by simp⟩

theorem witness_AnsweredCommandsComplete :
    ∃ (s : State) (w : Word) (rest : List HostEvent), Inv s ∧ s.inProgress = none ∧ s.host = .cmd w :: rest :=
  ⟨encMid.withFetchWord 32 0x41000001, 0x41000001#32, [], by constructor <;> decide, rfl, rfl⟩

theorem witness_NopChangesNothing : t1.faulted = false ∧ latched2.faulted = true := by decide

/-- V-X1: `STATUS` while a fault is recorded. -/
theorem witness_CsrReadsIdStatusAndFault :
    (0x0002, 16) ∈ [(0x0002, latched2.encActive.toNat + 2 * latched2.decActive.toNat + 4 * latched2.decEos.toNat
      + 8 * latched2.rxEnd.toNat + (if latched2.faultCause = 0#4 then 0 else 16))] := by decide

/-- V-B1: `TX_STATE`, and the last address of the map. -/
theorem witness_CsrReadsCoderState :
    (0x000B, 0x100) ∈ [(0x000B, encMid.txBuf.toNat + encMid.txFill.toNat * 2 ^ 8)] ∧
    (0x0013, 0) ∈ [(0x0013, decMid.rxBuf.toNat + decMid.rxCnt.toNat * 2 ^ 8)] := by decide

theorem witness_CsrReadOfUndefinedAddress :
    (∀ a ∈ [0x0005, 0x0007, 0x000C, 0x000F, 0x0014, 0x3FFF],
      (0x0005 ≤ a ∧ a ≤ 0x0007) ∨ (0x000C ≤ a ∧ a ≤ 0x000F) ∨ (0x0014 ≤ a ∧ a ≤ 0x3FFF)) ∧
    t1.faulted = false ∧ latched2.faulted = true := by decide

theorem witness_CumulativeCountsArePrefixSums : Memory.wf t1.freq = true := by decide

theorem witness_FindIsTheUniqueSymbol :
    Memory.wf t1.freq = true ∧ Memory.within t1.freq t1.eosSym = true ∧ 0 < t1.total ∧ 4 < t1.total ∧ t1.total ≤ 5 := by
  decide

/-- One state for each of the three clauses, at the last legal index and the first illegal one. -/
theorem witness_TableWriteStoresOneWeight :
    (t1.faulted = false ∧ Memory.wf t1.freq = true ∧ t1.encActive = false ∧ t1.decActive = false ∧ 2 ≤ t1.eosSym) ∧
    (encOpen.faulted = false ∧ Memory.wf encOpen.freq = true ∧ encOpen.encActive = true) ∧
    (decMid.faulted = false ∧ decMid.decActive = true) ∧ t1.eosSym < 3 := by decide

theorem witness_TableQueriesAnswer :
    t1.faulted = false ∧ Memory.wf t1.freq = true ∧ 2 ≤ t1.eosSym ∧ t1.eosSym < 3 := by decide

theorem witness_FindCommandAnswers :
    t1.faulted = false ∧ Memory.wf t1.freq = true ∧ Memory.within t1.freq t1.eosSym = true ∧ 4 < t1.total ∧
    t1.total ≤ 5 := by decide

/-- A buffer with six bits, one with seven, and an open session. -/
theorem witness_TxPutAppendsTheBit :
    (∀ s ∈ [{ t1 with txBuf := 0xB0#8, txFill := 6#3 }, { t1 with txBuf := 0xB2#8, txFill := 7#3 }],
      s.faulted = false ∧ s.encActive = false ∧ s.txBuf.toNat % 2 ^ (8 - s.txFill.toNat) = 0) ∧
    (encOpen.faulted = false ∧ encOpen.encActive = true) := by decide

theorem witness_TxCloseAlignsTheStream :
    (∀ s ∈ [t1, { t1 with txBuf := 0xB2#8, txFill := 7#3 }],
      s.faulted = false ∧ s.encActive = false ∧ s.txBuf.toNat % 2 ^ (8 - s.txFill.toNat) = 0) ∧
    (encOpen.faulted = false ∧ encOpen.encActive = true) := by decide

/-- A full buffer, an empty one with a byte to fetch, one at the end of the input, and an open session. -/
theorem witness_RxGetDeliversTheNextBit :
    (∀ s ∈ [{ t1 with rxBuf := 0xA5#8, rxCnt := 8#4 }, { t1 with inp := [0xA5#8] }, t1],
      s.faulted = false ∧ s.decActive = false ∧ s.rxCnt.toNat ≤ 8 ∧ s.rxBuf.toNat % 2 ^ (8 - s.rxCnt.toNat) = 0) ∧
    (decMid.faulted = false ∧ decMid.decActive = true) := by decide

/-- V-E2's symbols, the last of them the end-of-stream symbol. -/
theorem witness_NarrowTilesTheInterval :
    Memory.wf t1.freq = true ∧ Interval.full.low ≤ Interval.full.high ∧ 2 ≤ t1.eosSym ∧ 1 ≤ t1.total ∧
    t1.weight 2 ≠ 0#14 ∧ t1.total ≤ Interval.full.high - Interval.full.low + 1 ∧
    1 ≤ (Interval.full.high - Interval.full.low + 1) * t1.cum 3 / t1.total := by decide

/-- V-E6: an interval of each case, and one of none. -/
theorem witness_ScalingCasesAreExclusive :
    (⟨0x4000, 0x7FFF⟩ : Interval).scaling = some .e1 ∧ (⟨0x8000, 0xBFFF⟩ : Interval).scaling = some .e2 ∧
    (⟨0x4000, 0xBFFF⟩ : Interval).scaling = some .e3 ∧ (⟨0x3FFF, 0x8000⟩ : Interval).scaling = none := by decide

/-- V-E6. -/
theorem witness_RescaleDoublesTheRange :
    ((⟨0x4000, 0x7FFF⟩ : Interval).rescale .e1 = ⟨0x8000, 0xFFFF⟩) ∧
    ((⟨0x8000, 0x8000⟩ : Interval).scaling = some .e2 ∧ (⟨0x8000, 0x8000⟩ : Interval).rescale .e2 = ⟨0, 1⟩) ∧
    ((⟨0x7FFF, 0x8000⟩ : Interval).scaling = some .e3 ∧ (⟨0x7FFF, 0x8000⟩ : Interval).rescale .e3 = ⟨0x7FFE, 0x8001⟩) := by
  decide

theorem witness_FollowBitsComplementTheDefiniteBit : encMid.txBuf.toNat % 2 ^ (8 - encMid.txFill.toNat) = 0 := by decide

theorem witness_RenormalizationEndsWithinPIterations :
    encMid.encLow.toNat ≤ encMid.encHigh.toNat ∧ decMid.decLow.toNat ≤ decMid.decHigh.toNat ∧
    ∃ t, encRenorm 16 encMid = .settled t := ⟨by decide, by decide, _, rfl⟩

theorem witness_ScaledValueIsBelowTheTotal : Interval.full.low ≤ 0xFFFF ∧ 0xFFFF ≤ Interval.full.high ∧ 1 ≤ 5 := by decide

/-- The smallest and the largest legal total, an open session, and the two totals that are refused. -/
theorem witness_EncInitOpensASession :
    (∀ s ∈ [{ t1 with freq := [(2, 1#14)] }, { t1 with freq := [(0, 16383#14)] }],
      s.faulted = false ∧ s.encActive = false ∧ 1 ≤ s.total ∧ s.total < 16384) ∧
    (encOpen.faulted = false ∧ encOpen.encActive = true) ∧
    (State.reset.faulted = false ∧ State.reset.encActive = false ∧ State.reset.total = 0) ∧
    (tooBig.faulted = false ∧ tooBig.encActive = false ∧ tooBig.total = 16384) := by decide

theorem witness_EncSymEncodesTheSymbol :
    Inv encMid ∧ encMid.faulted = false ∧ encMid.encActive = true ∧ 2 ≤ encMid.eosSym ∧ encMid.weight 2 ≠ 0#14 ∧
    pendFits ((encMid.narrowFor encMid.encInterval 2).settle 16).1 encMid.encPend.toNat = true :=
  ⟨inv_encMid, by decide⟩

theorem witness_EncSymRefusesUnknownSymbols :
    (encOpen.faulted = false ∧ encOpen.encActive = true ∧ encOpen.eosSym < 3) ∧
    ({ encOpen with freq := [(0, 3#14)] } : State).weight 1 = 0#14 ∧ t1.encActive = false := by decide

/-- V-X8. -/
theorem witness_PendingOverflowKeepsCompletedIterations :
    Inv nearlyFull ∧ nearlyFull.faulted = false ∧ nearlyFull.encActive = true ∧ 1 ≤ nearlyFull.eosSym ∧
    nearlyFull.weight 1 ≠ 0#14 ∧
    ((nearlyFull.narrowFor nearlyFull.encInterval 1).settle 16).1 = [.e3] ++ .e3 :: [.e3] ∧
    pendFits [.e3] nearlyFull.encPend.toNat = true ∧ (emission [.e3] nearlyFull.encPend.toNat).2 = 0xFFFFFFFF :=
  ⟨inv_nearlyFull, by decide⟩

theorem witness_EncFinClosesTheSession :
    (encMid.faulted = false ∧ encMid.encActive = true ∧ encMid.encPend ≠ 0xFFFFFFFF#32 ∧
      encMid.txBuf.toNat % 2 ^ (8 - encMid.txFill.toNat) = 0) ∧
    ({ encMid with encPend := 0xFFFFFFFF#32 } : State).encActive = true ∧ t1.encActive = false := by decide

theorem witness_DecInitFillsTheValueRegister :
    (t1.faulted = false ∧ t1.decActive = false ∧ 1 ≤ t1.total ∧ t1.total < 16384) ∧
    (decMid.faulted = false ∧ decMid.decActive = true) ∧
    (State.reset.faulted = false ∧ State.reset.decActive = false ∧ State.reset.total = 0) ∧
    (tooBig.faulted = false ∧ tooBig.decActive = false ∧ tooBig.total = 16384) := by decide

/-- A value that decodes to an ordinary symbol, and one that decodes to the end of stream. -/
theorem witness_DecSymDecodesTheSymbol :
    (Inv decMid ∧ decMid.faulted = false ∧ decMid.decActive = true ∧ decMid.decodedSymbol = some 1) ∧
    Inv { decMid with decValue := 0xB84F#16 } ∧
    ({ decMid with decValue := 0xB84F#16 } : State).decodedSymbol = some decMid.eosSym :=
  ⟨⟨inv_decMid, by decide⟩, by constructor <;> decide, by decide⟩

theorem witness_DecEndClosesTheSession :
    decMid.faulted = false ∧ decMid.decActive = true ∧ t1.faulted = false ∧ t1.decActive = false := by decide

theorem witness_WrongSessionStateRaisesBadState :
    t1.faulted = false ∧ t1.encActive = false ∧ t1.decActive = false ∧ encOpen.faulted = false ∧
    encOpen.encActive = true ∧ decMid.faulted = false ∧ decMid.decActive = true := by decide

/-- Both ways of the conclusion: an illegal word, and V-X8. -/
theorem witness_FaultEntryWritesOnlyTheLatch :
    ∀ s ∈ [t1.withFetchWord 32 0x03000000, nearlyFull.withFetchWord 32 0x41000001],
      s.host ≠ [] ∧ s.faulted = false ∧ goesOn (step s) = true ∧ (after (step s)).faulted = true := by decide

/-- Both clauses: `SRST`, and `CSR_RD FAULT`. -/
theorem witness_OnlySrstClearsTheLatch :
    ∀ s ∈ [latched2.withFetchWord 32 0x01000000, latched2.withFetchWord 32 0x02000003],
      s.inProgress = none ∧ s.host ≠ [] ∧ s.faulted = true ∧ goesOn (step s) = true := by decide

theorem witness_EveryStepKeepsTheInvariant : Inv encMid ∧ ∃ t, step encMid = .next t := ⟨inv_encMid, _, rfl⟩

theorem witness_StepNeverStops : Inv t1 := inv_t1

/-- The ways the table changes. -/
theorem witness_TableIsFixedDuringSessions :
    ∀ s ∈ [t1.withFetchWord 32 0x10010000, { t1 with host := [.stall 0x10010000#32 0] }, { t1 with host := [.rst] },
        { t1 with host := [.rstDuring 0#32 0] }],
      goesOn (step s) = true ∧ (after (step s)).freq ≠ s.freq := by decide

theorem witness_StreamsMoveOnlyForward :
    decMid.inPos ≤ decMid.inp.length ∧ goesOn (step (decMid.withFetchWord 32 0x51000000)) = true := by decide

/-- Both clauses, the second at each command that moves a flag. -/
theorem witness_SessionFlagsFollowTheStateMachines :
    (Inv t1 ∧ Inv encMid ∧ Inv decMid) ∧
    (goesOn (exec .decEnd t1) = true ∧ (after (exec .decEnd t1)).faulted = true) ∧
    (∀ r ∈ [exec .encInit t1, exec .encFin encMid, exec .decInit t1, exec .decSym decMid, exec .decEnd decMid, exec .srst encMid],
      goesOn r = true ∧ (after r).faulted = false) :=
  ⟨⟨inv_t1, inv_encMid, inv_decMid⟩, by decide, by decide⟩

theorem witness_CodersTouchDisjointState :
    goesOn (exec (.encSym 1) encMid) = true ∧ goesOn (exec .decSym decMid) = true := by decide

theorem witness_EncoderIsIndependentOfTheDecoder :
    goesOn (exec (.encSym 1) encMid) = true ∧
    goesOn (exec (.encSym 1) { encMid with decActive := true, decHigh := 0xB84F#16, inp := [0x47#8], inPos := 1 }) = true := by
  decide

theorem witness_DecoderIsIndependentOfTheEncoder :
    goesOn (exec .decSym decMid) = true ∧
    goesOn (exec .decSym { decMid with encActive := true, encHigh := 0xB84F#16, txFill := 1#3, out := [0x47#8] }) = true := by
  decide

/-- The encoder's run of the statements about whole sessions: symbol 0, then the end of stream. -/
def sent : State := after (runCommands (encodeSession [0, 2]) t1)

theorem sent_eq : runCommands (encodeSession [0, 2]) t1 = .next sent := next_of (by decide)

/-- A decoder of the same table that is given what was sent, and one byte more. -/
def listening : State := { t1 with inp := sent.out ++ [0xFF#8] }

theorem inv_listening : Inv listening := by constructor <;> decide

theorem witness_SessionBitAccounting :
    Inv t1 ∧ t1.inProgress = none ∧ t1.faulted = false ∧ t1.encActive = false ∧ (∀ sym ∈ [0, 2], sym ≤ t1.eosSym) ∧
    runCommands (encodeSession [0, 2]) t1 = .next sent ∧ sent.faulted = false :=
  ⟨inv_t1, rfl, by decide, by decide, by decide, sent_eq, by decide⟩

/-- Symbol 0 alone, and its decoder. -/
def sentOne : State := after (runCommands (encodeSession [0]) t1)

theorem witness_DecodingByCountGivesBackTheSymbols :
    (Inv t1 ∧ t1.inProgress = none ∧ t1.faulted = false ∧ t1.encActive = false) ∧ runCommands (encodeSession [0]) t1 = .next sentOne ∧
    sentOne.faulted = false ∧ (∀ sym ∈ [0], sym < t1.eosSym) ∧
    ∃ u : State, Inv u ∧ u.inProgress = none ∧ u.faulted = false ∧ u.decActive = false ∧ u.params = t1.params ∧ u.freq = t1.freq ∧
      u.inp.drop u.inPos = sentOne.out.drop t1.out.length ++ [0xFF#8] :=
  ⟨⟨inv_t1, by decide⟩, next_of (by decide), by decide, by decide,
    { t1 with inp := sentOne.out ++ [0xFF#8] }, by constructor <;> decide, by decide⟩

theorem witness_DecodingToTheEndMarkerGivesBackTheSymbols :
    (Inv t1 ∧ t1.inProgress = none ∧ t1.faulted = false ∧ t1.encActive = false) ∧
    runCommands (encodeSession ([0] ++ [t1.eosSym])) t1 = .next sent ∧ sent.faulted = false ∧
    (∀ sym ∈ [0], sym < t1.eosSym) ∧
    (Inv listening ∧ listening.inProgress = none ∧ listening.faulted = false ∧ listening.decActive = false ∧
      listening.params = t1.params ∧ listening.freq = t1.freq ∧ listening.inp.drop listening.inPos = sent.out.drop t1.out.length ++ [0xFF#8]) :=
  ⟨⟨inv_t1, by decide⟩, sent_eq, by decide, by decide, inv_listening, by decide⟩

theorem witness_DecoderIntervalFollowsTheEncoder :
    (Inv t1 ∧ t1.inProgress = none ∧ t1.faulted = false ∧ t1.encActive = false) ∧
    runCommands (encodeSession ([0] ++ [2])) t1 = .next sent ∧ sent.faulted = false ∧
    (∃ p, runCommands (.encInit :: [0].map .encSym) t1 = .next p ∧ p.faulted = false) ∧
    (∀ sym ∈ [0], sym < t1.eosSym) ∧ (∀ sym ∈ [2], sym ≤ t1.eosSym) ∧
    (Inv listening ∧ listening.inProgress = none ∧ listening.faulted = false ∧ listening.decActive = false ∧
      listening.params = t1.params ∧ listening.freq = t1.freq ∧ listening.inp.drop listening.inPos = sent.out.drop t1.out.length ++ [0xFF#8]) :=
  ⟨⟨inv_t1, by decide⟩, sent_eq, by decide, ⟨_, next_of (by decide), by decide⟩, by decide, by decide, inv_listening,
    by decide⟩

end Sys2Proof.Machine.Tests
end

section
/-! SUPPORT. The invariant of 10_state.md R57 cut along the two sides of the block (20_memory.md R73): an effect of one
side has to re-establish the clauses of that side only. -/

namespace Sys2Proof.Machine

variable {s t u : State}

/-- The clauses of R57 that speak of the encoder's side: (a), (b), (e) and (h). -/
structure EncoderOk (s : State) : Prop where
  ordered : s.encLow.toNat ≤ s.encHigh.toNat
  settled : s.encActive = true → s.faulted = false → s.encInterval.scaling = none
  clean : s.TxClean
  total : s.encActive = true → 1 ≤ s.total ∧ s.total < Config.QUARTER

/-- The clauses of R57 that speak of the decoder's side: (a), (c), (d), (f) and (h), and R29's of the end-of-stream
flag. -/
structure DecoderOk (s : State) : Prop where
  ordered : s.decLow.toNat ≤ s.decHigh.toNat
  settled : s.decActive = true → s.faulted = false → s.decInterval.scaling = none
  within : s.decActive = true ∨ s.decEos = true →
    s.decLow.toNat ≤ s.decValue.toNat ∧ s.decValue.toNat ≤ s.decHigh.toNat
  clean : s.RxClean
  total : s.decActive = true → 1 ≤ s.total ∧ s.total < Config.QUARTER
  eosClosed : s.decEos = true → s.decActive = false

/-! ## What keeps the invariant as a whole -/

/-- An effect of the encoder's side keeps the invariant when it leaves that side in order. -/
theorem Inv.of_encoderSide (h : Inv s) (hst : EncoderSide s t) (ok : EncoderOk t) : Inv t := by
  rw [hst.frame] at ok ⊢
  exact { h with
    encOrdered := ok.ordered, encSettled := ok.settled, txClean := ok.clean
    totalLegal := fun ho => ho.elim ok.total fun hd => h.totalLegal (Or.inr hd) }

/-- An effect of the decoder's side keeps the invariant when it leaves that side in order. -/
theorem Inv.of_decoderSide (h : Inv s) (hst : DecoderSide s t) (ok : DecoderOk t) : Inv t := by
  have hpos := hst.inRange h.inputInRange
  rw [hst.frame] at ok ⊢
  exact { h with
    decOrdered := ok.ordered, decSettled := ok.settled, decWithin := ok.within, rxCount := ok.clean.1
    rxClean := ok.clean.2, eosClosed := ok.eosClosed, inputInRange := hpos
    totalLegal := fun ho => ho.elim (fun he => h.totalLegal (Or.inl he)) ok.total }

/-- The invariant does not speak of the output, the responses, the events to come and the command in progress, and of
the input position only that it is in range. -/
theorem Inv.environment (h : Inv s) (o : List Byte) {p : Nat} (hp : p ≤ s.inp.length) (r : List Response)
    (c : Option Word) (q : List HostEvent) :
    Inv { s with out := o, inPos := p, rsps := r, inProgress := c, host := q } :=
  { h with inputInRange := hp }

theorem Inv.answered (h : Inv s) (c d : Nat) : Inv (s.answered c d) :=
  h.environment s.out h.inputInRange _ s.inProgress s.host

theorem Cause.ofNat_code (c : Cause) : BitVec.ofNat 4 c.code.toNat = c.code := by cases c <;> rfl

theorem latched_faulted (s : State) (c : Cause) (w : Word) : (s.latched c.code.toNat w).faulted = true := by
  simp [State.latched, State.faulted, c.code_ne]

/-- Taking a fault keeps the invariant: while a fault is recorded nothing is claimed of renormalization (R57 b, c). -/
theorem Inv.latched (h : Inv s) (c : Cause) (w : Word) : Inv (s.latched c.code.toNat w) := by
  have hf := latched_faulted s c w
  exact { h with
    encSettled := fun _ h0 => absurd (hf.symm.trans h0) Bool.noConfusion
    decSettled := fun _ h0 => absurd (hf.symm.trans h0) Bool.noConfusion
    causeLegal := by rw [State.latched, c.ofNat_code]; exact c.code_range.2
    cmdClear := fun h0 => absurd (hf.symm.trans h0) Bool.noConfusion }

/-! ## The two resets and the table -/

/-- What `SRST` writes meets the invariant, whatever was there before (R55, R211). -/
theorem inv_softReset (hwf : Memory.wf s.freq = true) (hin : Memory.within s.freq s.eosSym = true)
    (hpos : s.inPos ≤ s.inp.length) (hn : s.params.legal = true) : Inv (softReset s) where
  encOrdered := Nat.zero_le _
  decOrdered := Nat.zero_le _
  encSettled := nofun
  decSettled := nofun
  decWithin := by rintro (h | h) <;> cases h
  txClean := rfl
  rxCount := Nat.zero_le _
  rxClean := rfl
  causeLegal := Nat.zero_le _
  cmdClear := fun _ => rfl
  totalLegal := by rintro (h | h) <;> cases h
  eosClosed := nofun
  tableCanonical := hwf
  tableInRange := hin
  inputInRange := hpos
  paramsLegal := hn

/-- Hardware reset needs nothing of the state but what no reset writes: a legal `N` and the input position in range
(R55). -/
theorem inv_hardReset (hpos : s.inPos ≤ s.inp.length) (hn : s.params.legal = true) : Inv (hardReset s) :=
  inv_softReset (s := { s with freq := [], inProgress := none }) rfl rfl hpos hn

/-- A legal table write with no session open (R127). -/
theorem Inv.setWeight (h : Inv s) (he : s.encActive = false) (hd : s.decActive = false) {idx : Nat}
    (hi : idx ≤ s.eosSym) (w : Weight) : Inv (s.setWeight idx w) :=
  { h with
    totalLegal := fun ho => by rcases ho with ho | ho <;> simp [he, hd] at ho
    tableCanonical := Memory.wf_write h.tableCanonical idx w
    tableInRange := Memory.within_write h.tableInRange hi w }

end Sys2Proof.Machine
end

section
/-! SUPPORT. Every effect of the encoder's side leaves that side in order (42_encoder.md R169). -/

namespace Sys2Proof.Machine

variable {s t u : State}

/-- With no session open only the order of the bounds and the clean buffer are claimed. -/
theorem EncoderOk.of_closed (ho : s.encLow.toNat ≤ s.encHigh.toNat) (hc : s.TxClean) (ha : s.encActive = false) :
    EncoderOk s :=
  ⟨ho, by simp [ha], hc, by simp [ha]⟩

theorem putBit_encoderOk (h : Inv s) (ha : s.encActive = false) (b : Bool) : EncoderOk (s.putBit b) := by
  refine .of_closed ?_ (putBit_spec h.txClean b).2 ?_
  · rw [putBit_frame]; exact h.encOrdered
  · rw [putBit_frame]; exact ha

theorem closeTx_clean (s : State) : s.closeTx.TxClean := by rw [closeTx_frame]; rfl

theorem closeTx_encoderOk (h : Inv s) (ha : s.encActive = false) : EncoderOk s.closeTx := by
  refine .of_closed ?_ (closeTx_clean s) ?_
  · rw [closeTx_frame]; exact h.encOrdered
  · rw [closeTx_frame]; exact ha

/-- No renormalization case applies to the initial interval. -/
theorem Interval.full_settled : Interval.full.scaling = none := by decide

theorem openEnc_encInterval (s : State) : s.openEnc.encInterval = Interval.full :=
  setEncInterval_encInterval s.clearTx Interval.full_proper

theorem openEnc_encoderOk (h1 : 1 ≤ s.total) (h2 : s.total < Config.QUARTER) : EncoderOk s.openEnc where
  ordered := Nat.zero_le _
  settled _ _ := by rw [openEnc_encInterval, Interval.full_settled]
  clean := rfl
  total _ := ⟨h1, h2⟩

theorem closeEnc_encoderOk (h : Inv s) : EncoderOk s.closeEnc := by
  refine .of_closed ?_ (closeTx_clean _) rfl
  rw [State.closeEnc, closeTx_frame, emitWithFollow_frame]
  exact h.encOrdered

/-! ## ENC_SYM -/

theorem narrowDefined_iff {iv : Interval} :
    s.narrowDefined iv = true ↔ iv.low ≤ iv.high ∧ 1 ≤ s.total ∧ s.total ≤ iv.range := by
  simp [State.narrowDefined, and_assoc]

/-- Where `Narrow` is defined, it gives a symbol of the alphabet with positive weight a proper interval (R160). -/
theorem Inv.narrowFor_proper (h : Inv s) {iv : Interval} (hp : iv.Proper) (hd : s.narrowDefined iv = true) {sym : Nat}
    (hs : sym ≤ s.eosSym) (hw : s.weight sym ≠ 0#14) : (s.narrowFor iv sym).Proper := by
  obtain ⟨-, ht, hr⟩ := narrowDefined_iff.1 hd
  exact (State.narrowFor_proper h.tableCanonical hp ht hr hs hw).1

/-- However the renormalization of a proper interval ends, the interval is proper and the buffer clean; when it ends
because no case applies, none does (R165, 60_exceptions.md R232). -/
theorem encRenorm_ends (hclean : s.TxClean) (hp : s.encInterval.Proper) :
    (∃ t, encRenorm Config.P s = .settled t ∧ t.TxClean ∧ t.encInterval.Proper ∧ t.encInterval.scaling = none) ∨
    (∃ t, encRenorm Config.P s = .overflowed t ∧ t.TxClean ∧ t.encInterval.Proper) := by
  have hpend : s.encPend.toNat ≤ Config.PEND_MAX := Nat.le_of_lt_succ s.encPend.isLt
  rcases pendFits_or_full (s.encInterval.settle Config.P).1 hpend with hfit | ⟨before, after, hks, hfit, hfull⟩
  · obtain ⟨t, ht, -, hc, hiv, -, -⟩ := encRenorm_settled Config.P hclean hp hfit
    refine Or.inl ⟨t, ht, hc, ?_, ?_⟩
    · rw [hiv]; exact Interval.settle_proper _ hp
    · rw [hiv]; exact Interval.settle_P_none hp
  · obtain ⟨t, ht, -, hc, -, he3, -, -⟩ := encRenorm_overflowed Config.P hclean hp hks hfit hfull
    obtain ⟨hlo, hhi, -, -⟩ := Interval.scaling_e3.1 he3
    exact Or.inr ⟨t, ht, hc, State.encInterval_proper (Nat.le_of_lt (hlo.trans_le hhi))⟩

theorem EncoderWrote.total (h : EncoderWrote s t) : t.total = s.total := by rw [h.frame]; rfl

theorem EncoderWrote.encActive (h : EncoderWrote s t) : t.encActive = s.encActive := by rw [h.frame]

/-- The state `ENC_SYM` renormalizes: its buffer is clean and its interval proper. -/
theorem Inv.narrowed_enc (h : Inv s) {sym : Nat} (hd : s.narrowDefined s.encInterval = true) (hs : sym ≤ s.eosSym)
    (hw : s.weight sym ≠ 0#14) :
    (s.setEncInterval (s.narrowFor s.encInterval sym)).TxClean ∧
      (s.setEncInterval (s.narrowFor s.encInterval sym)).encInterval.Proper := by
  have hp := h.narrowFor_proper (State.encInterval_proper h.encOrdered) hd hs hw
  exact ⟨h.txClean, by rw [setEncInterval_encInterval s hp]; exact hp⟩

/-- ENC_SYM that completes (R167, R169). -/
theorem encSym_encoderOk (h : Inv s) (ha : s.encActive = true) {sym : Nat} (hs : sym ≤ s.eosSym)
    (hw : s.weight sym ≠ 0#14) (hd : s.narrowDefined s.encInterval = true)
    (hu : encRenorm Config.P (s.setEncInterval (s.narrowFor s.encInterval sym)) = .settled u) : EncoderOk u := by
  obtain ⟨hclean, hp⟩ := h.narrowed_enc hd hs hw
  have hwrote := (setEncInterval_wrote s _).trans (encRenorm_wrote _ (Or.inl hu))
  rcases encRenorm_ends hclean hp with ⟨v, hv, hc, hvp, hn⟩ | ⟨v, hv, -⟩
  · obtain rfl : u = v := Renormed.settled.inj (hu.symm.trans hv)
    exact ⟨hvp.ordered, fun _ _ => hn, hc, fun _ => by rw [hwrote.total]; exact h.totalLegal (Or.inl ha)⟩
  · exact absurd (hu.symm.trans hv) nofun

theorem EncoderSide.latched (h : EncoderSide s t) (c : Nat) (w : Word) (hr : t.rsps = s.rsps) :
    EncoderSide (s.latched c w) (t.latched c w) :=
  ⟨by rw [State.latched, State.latched, hr, h.frame], h.extends_out⟩

/-- ENC_SYM that meets the full pending counter: the fault recorded, no case need be settled (R232). -/
theorem Inv.encSym_overflowed (h : Inv s) {sym : Nat} (ha : s.encActive = true) (hs : sym ≤ s.eosSym)
    (hw : s.weight sym ≠ 0#14) (hd : s.narrowDefined s.encInterval = true)
    (hu : encRenorm Config.P (s.setEncInterval (s.narrowFor s.encInterval sym)) = .overflowed u) (cmd : Word) :
    Inv (u.latched 4 cmd) := by
  obtain ⟨hclean, hp⟩ := h.narrowed_enc hd hs hw
  have hwrote := (setEncInterval_wrote s _).trans (encRenorm_wrote _ (Or.inr hu))
  rcases encRenorm_ends hclean hp with ⟨v, hv, -⟩ | ⟨v, hv, hc, hvp⟩
  · exact absurd (hu.symm.trans hv) nofun
  · obtain rfl : u = v := Renormed.overflowed.inj (hu.symm.trans hv)
    have hside := hwrote.side.latched 4 cmd hwrote.side.kept.rsps
    refine (h.latched .pendingOverflow cmd).of_encoderSide hside ⟨hvp.ordered, fun _ hf => ?_, hc, fun _ => ?_⟩
    · exact absurd ((latched_faulted u .pendingOverflow cmd).symm.trans hf) Bool.noConfusion
    · show 1 ≤ u.total ∧ u.total < Config.QUARTER
      rw [hwrote.total]
      exact h.totalLegal (Or.inl ha)

theorem Done.encoderOk {i : Instr} (h : Inv s) (hu : Done i s u) (hi : isEncoderSide i = true) : EncoderOk u := by
  cases i with
  | txPut b => rw [hu.2]; exact putBit_encoderOk h hu.1 b
  | txClose => rw [hu.2]; exact closeTx_encoderOk h hu.1
  | encInit =>
    obtain ⟨-, h1, h2, rfl⟩ := hu
    exact openEnc_encoderOk h1 h2
  | encSym sym =>
    obtain ⟨ha, hs, hw, hd, hu⟩ := hu
    exact encSym_encoderOk h ha hs hw hd hu
  | encFin => rw [hu.2.2]; exact closeEnc_encoderOk h
  | _ => simp [isEncoderSide] at hi

end Sys2Proof.Machine
end

section
/-! SUPPORT. Every effect of the decoder's side leaves that side in order (43_decoder.md R195). -/

namespace Sys2Proof.Machine

variable {s t u : State}

theorem getBit_decoderOk (h : Inv s) (ha : s.decActive = false) : DecoderOk s.getBit.2 := by
  have hclean := (getBit_spec ⟨h.rxCount, h.rxClean⟩).2.2
  rw [getBit_frame] at hclean ⊢
  exact ⟨h.decOrdered, fun h1 => by simp [ha] at h1, h.decWithin, hclean, fun h1 => by simp [ha] at h1, h.eosClosed⟩

theorem decEnd_decoderOk (h : Inv s) : DecoderOk { s with decActive := false } where
  ordered := h.decOrdered
  settled := nofun
  within ho := h.decWithin (Or.inr (ho.resolve_left nofun))
  clean := ⟨h.rxCount, h.rxClean⟩
  total := nofun
  eosClosed _ := rfl

/-! ## DEC_INIT -/

@[simp] theorem openDec_decLow (s : State) : s.openDec.decLow = 0#16 := by
  rw [State.openDec, fillValue_frame]
  rfl

@[simp] theorem openDec_decHigh (s : State) : s.openDec.decHigh = 0xFFFF#16 := by
  rw [State.openDec, fillValue_frame]
  rfl

@[simp] theorem openDec_decEos (s : State) : s.openDec.decEos = false := by
  rw [State.openDec, fillValue_frame]
  rfl

theorem openDec_clean (s : State) : s.openDec.RxClean := by
  have h := (fillValue_spec Config.P 0 (s := s.clearDec) ⟨Nat.zero_le _, rfl⟩).2.2.1
  unfold State.openDec
  generalize State.fillValue Config.P 0 s.clearDec = r at h ⊢
  exact h

theorem openDec_decInterval (s : State) : s.openDec.decInterval = Interval.full := by
  rw [State.decInterval, openDec_decLow, openDec_decHigh]
  rfl

theorem DecoderSide.total (h : DecoderSide s t) : t.total = s.total := by rw [h.frame]; rfl

theorem openDec_decoderOk (h1 : 1 ≤ s.total) (h2 : s.total < Config.QUARTER) : DecoderOk s.openDec := by
  refine ⟨by simp, fun _ _ => ?_, fun _ => ⟨by simp, ?_⟩, ?_, fun _ => ?_, by simp⟩
  · rw [openDec_decInterval, Interval.full_settled]
  · rw [openDec_decHigh]; exact Nat.le_of_lt_succ s.openDec.decValue.isLt
  · exact openDec_clean s
  · rw [(openDec_side s).total]; exact ⟨h1, h2⟩

/-! ## DEC_SYM -/

/-- The symbol found for the value register narrows the interval to one that is proper and holds the value (R195). -/
theorem Inv.narrowed_dec (h : Inv s) (hd : s.scaledDefined s.decInterval s.decValue.toNat = true) {sym : Nat}
    (hs : s.decodedSymbol = some sym) :
    (s.narrowFor s.decInterval sym).Proper ∧ (s.narrowFor s.decInterval sym).low ≤ s.decValue.toNat ∧
      s.decValue.toNat ≤ (s.narrowFor s.decInterval sym).high := by
  simp only [State.scaledDefined, Bool.and_eq_true, decide_eq_true_eq] at hd
  obtain ⟨⟨hnd, hlv⟩, -⟩ := hd
  obtain ⟨-, ht, -⟩ := narrowDefined_iff.1 hnd
  obtain ⟨hle, hlo, hhi, hw, -⟩ := State.findSymbol_spec h.tableCanonical h.tableInRange hs
  obtain ⟨h1, h2⟩ := (Interval.scaled_mem_iff ht hlv).1 ⟨hlo, hhi⟩
  exact ⟨h.narrowFor_proper (State.decInterval_proper h.decOrdered) hnd hle hw, h1, Nat.le_sub_one_of_lt h2⟩

/-- DEC_SYM of the end-of-stream symbol: the narrowed interval holds the value (R193). -/
theorem decSym_eos_decoderOk (h : Inv s) {iv : Interval} (hp : iv.Proper)
    (hv : iv.low ≤ s.decValue.toNat ∧ s.decValue.toNat ≤ iv.high) :
    DecoderOk { s.setDecInterval iv with decEos := true, decActive := false } := by
  obtain ⟨hlo, hhi⟩ := hp.stored
  refine ⟨?_, nofun, fun _ => ?_, ⟨h.rxCount, h.rxClean⟩, nofun, fun _ => rfl⟩
  · show (BitVec.ofNat 16 iv.low).toNat ≤ (BitVec.ofNat 16 iv.high).toNat
    rw [hlo, hhi]
    exact hp.ordered
  · show (BitVec.ofNat 16 iv.low).toNat ≤ s.decValue.toNat ∧ s.decValue.toNat ≤ (BitVec.ofNat 16 iv.high).toNat
    rw [hlo, hhi]
    exact hv

/-- DEC_SYM of any other symbol: renormalization settles the interval and keeps the value in it (R193, R195). -/
theorem decSym_symbol_decoderOk (h : Inv s) (ha : s.decActive = true) {iv : Interval} (hp : iv.Proper)
    (hv : iv.low ≤ s.decValue.toNat ∧ s.decValue.toNat ≤ iv.high) :
    DecoderOk (decRenorm Config.P (s.setDecInterval iv)) := by
  have hiv := setDecInterval_decInterval s hp
  obtain ⟨h1, -, h2, h3, -, h4, hwrote⟩ :=
    decRenorm_spec Config.P (s := s.setDecInterval iv) ⟨h.rxCount, h.rxClean⟩ (by rwa [hiv]) (by rwa [hiv])
  rw [hiv] at h1
  have hside := ((setDecInterval_wrote s iv).trans hwrote)
  have heos : (decRenorm Config.P (s.setDecInterval iv)).decEos = false := by
    rw [hside.frame]
    cases he : s.decEos with
    | false => rfl
    | true => exact absurd (ha.symm.trans (h.eosClosed he)) Bool.noConfusion
  refine ⟨h2.trans h3, fun _ _ => ?_, fun _ => ⟨h2, h3⟩, h4, fun _ => ?_, fun h1 => ?_⟩
  · rw [h1]; exact Interval.settle_P_none hp
  · rw [hside.side.total]; exact h.totalLegal (Or.inr ha)
  · exact absurd (heos.symm.trans h1) Bool.noConfusion

theorem Done.decoderOk {i : Instr} (h : Inv s) (hu : Done i s u) (hi : isDecoderSide i = true) : DecoderOk u := by
  cases i with
  | rxGet => rw [hu.2]; exact getBit_decoderOk h hu.1
  | decInit =>
    obtain ⟨-, h1, h2, rfl⟩ := hu
    exact openDec_decoderOk h1 h2
  | decSym =>
    obtain ⟨ha, hd, sym, hs, hu⟩ := hu
    obtain ⟨hp, hv⟩ := h.narrowed_dec hd hs
    rcases hu with ⟨-, rfl⟩ | ⟨-, rfl⟩
    · exact decSym_eos_decoderOk h hp hv
    · exact decSym_symbol_decoderOk h ha hp hv
  | decEnd => rw [hu.2]; exact decEnd_decoderOk h
  | _ => simp [isDecoderSide] at hi

end Sys2Proof.Machine
end

section
/-! THE INVARIANT, at reset and under every step (10_state.md R57). -/

namespace Sys2Proof.Machine

variable {s t u : State}

/-- Every effect keeps the invariant. -/
theorem Done.inv {i : Instr} (hu : Done i s u) (h : Inv s) : Inv u := by
  cases hE : isEncoderSide i with
  | true => exact h.of_encoderSide (hu.encoderSide hE) (hu.encoderOk h hE)
  | false =>
    cases hD : isDecoderSide i with
    | true => exact h.of_decoderSide (hu.decoderSide hD) (hu.decoderOk h hD)
    | false =>
      rcases hu.neither hE hD with rfl | ⟨-, rfl⟩ | ⟨idx, w, -, he, hd, hi, rfl⟩
      · exact h
      · exact inv_softReset h.tableCanonical h.tableInRange h.inputInRange h.paramsLegal
      · exact h.setWeight he hd hi w

/-- However a command ends, it keeps the invariant. -/
theorem Ended.inv {i : Instr} (he : Ended i s t) (h : Inv s) : Inv t := by
  cases he with
  | refused _ _ ht => rw [ht]; exact h.answered _ _
  | raised c _ _ ht => rw [ht]; exact h.latched c _
  | overflowed sym u hi hf ha hs hw hd hu ht => rw [ht]; exact h.encSym_overflowed ha hs hw hd hu _
  | done u d _ hu ht => rw [ht]; exact (hu.inv h).answered 0 d

theorem executeWord_inv {w : Word} (ht : executeWord w s = .next t) (h : Inv s) : Inv t := by
  rcases executeWord_ended ht with ⟨i, -, he⟩ | ⟨e, -, ⟨-, rfl⟩ | ⟨-, rfl⟩⟩
  · exact he.inv h
  · exact h.answered _ _
  · exact h.latched .illegalCmd w

/-- A command left without an answer keeps the invariant: it has the effect of the whole command, or of none but its
transfers (20_memory.md R78). -/
theorem stallWord_inv {w : Word} {k : Nat} (hu : stallWord w k s = .next u) (h : Inv s) : Inv u := by
  obtain ⟨t, ht, ⟨-, rfl⟩ | ⟨-, rfl⟩⟩ := stallWord_cases hu
  · have hpos := (executeWord_kept ht).2.2.2.2.2.1 h.inputInRange
    exact h.environment _ ((Nat.min_le_left _ _).trans hpos) _ _ _
  · have hi := executeWord_inv ht h
    exact hi.environment t.out hi.inputInRange _ _ _

theorem Inv.hardReset (h : Inv s) : Inv (hardReset s) := inv_hardReset h.inputInRange h.paramsLegal

/-- A command abandoned by `rst` is one left without an answer, then hardware reset (R250). -/
theorem abandonWord_cases {w : Word} {k : Nat} (h : abandonWord w k s = .next t) :
    ∃ u, stallWord w k s = .next u ∧ t = hardReset u := by
  rw [abandonWord] at h
  split at h
  · next u hu => exact ⟨u, hu, (next_inj h).symm⟩
  · exact absurd h nofun
  · exact absurd h nofun

/-- Every way an event from outside can end in a next state. -/
inductive Handled (s t : State) : Prop where
  | executed (w : Word) (h : executeWord w s = .next t)
  | stalled (w : Word) (k : Nat) (h : stallWord w k s = .next t)
  | abandoned (w : Word) (k : Nat) (u : State) (h : stallWord w k s = .next u) (ht : t = hardReset u)
  | reset (ht : t = hardReset s)
  | ignored (ht : t = s)

theorem handleEvent_handled {e : HostEvent} (h : handleEvent e s = .next t) : Handled s t := by
  rw [handleEvent] at h
  split at h
  · cases e with
    | cmd w => exact .executed w h
    | stall w k => exact .stalled w k h
    | rstDuring w k =>
      obtain ⟨u, hu, ht⟩ := abandonWord_cases h
      exact .abandoned w k u hu ht
    | rst => exact .reset (next_inj h).symm
  · cases e with
    | cmd | stall => exact .ignored (next_inj h).symm
    | rst | rstDuring => exact .reset (next_inj h).symm

/-- A step takes an event off the queue, if there is one, and handles it (R33). -/
theorem step_handled (h : step s = .next t) : ∃ q, Handled { s with host := q } t := by
  cases hh : s.host with
  | nil => exact ⟨s.host, .ignored (next_inj ((step_idle hh).symm.trans h)).symm⟩
  | cons e q => exact ⟨q, handleEvent_handled ((step_event hh).symm.trans h)⟩

/-- Settles O41: State.reset is what hardware reset makes of a state with a legal `N` and an empty input. -/
theorem invariantHoldsAtReset : Obligations.InvariantHoldsAtReset :=
  inv_hardReset (s := State.reset) (Nat.le_refl _) rfl

/-- Settles O42, by the ways an event can be handled: a whole command, one left without an answer, a reset, or nothing. -/
theorem everyStepKeepsTheInvariant : Obligations.EveryStepKeepsTheInvariant := by
  intro s t h hst
  obtain ⟨q, hq⟩ := step_handled hst
  have h' : Inv { s with host := q } := h.environment s.out h.inputInRange s.rsps s.inProgress q
  cases hq with
  | executed w hw => exact executeWord_inv hw h'
  | stalled w k hw => exact stallWord_inv hw h'
  | abandoned w k u hw ht => rw [ht]; exact (stallWord_inv hw h').hardReset
  | reset ht => rw [ht]; exact h'.hardReset
  | ignored ht => rw [ht]; exact h'

end Sys2Proof.Machine
end

section
/-! THE STREAMS AND THE SESSION FLAGS (10_state.md R25, R29, R32, R34). -/

namespace Sys2Proof.Machine

variable {s t u : State}

/-! ## What only moves forward (R32, 30_encoding.md R97) -/

/-- From `s` to `t` the output and the responses are only extended, the input position moves only forward and not past
the end, and neither the input nor `N` changes. -/
structure Forward (s t : State) : Prop where
  out : s.out <+: t.out
  inp : t.inp = s.inp
  forward : s.inPos ≤ t.inPos
  inRange : s.inPos ≤ s.inp.length → t.inPos ≤ s.inp.length
  rsps : s.rsps <+: t.rsps
  params : t.params = s.params

theorem Forward.refl (s : State) : Forward s s :=
  ⟨List.prefix_refl _, rfl, Nat.le_refl _, id, List.prefix_refl _, rfl⟩

/-- However a command ends, the responses are only extended (R97). -/
theorem Ended.rsps {i : Instr} (h : Ended i s t) : s.rsps <+: t.rsps := by
  cases h with
  | refused _ _ ht | raised _ _ _ ht => rw [ht]; exact List.prefix_append _ _
  | overflowed sym u _ _ _ _ _ _ hu ht =>
    rw [ht, ← ((setEncInterval_wrote _ _).trans (encRenorm_wrote _ (Or.inr hu))).side.kept.rsps]
    exact List.prefix_append _ _
  | done u d _ hu ht =>
    rw [ht, ← hu.kept.rsps]
    exact List.prefix_append _ _

theorem executeWord_rsps {w : Word} (h : executeWord w s = .next t) : s.rsps <+: t.rsps := by
  rcases executeWord_ended h with ⟨i, -, hi⟩ | ⟨e, -, ⟨-, rfl⟩ | ⟨-, rfl⟩⟩
  · exact hi.rsps
  · exact List.prefix_append _ _
  · exact List.prefix_append _ _

theorem executeWord_forward {w : Word} (h : executeWord w s = .next t) : Forward s t := by
  obtain ⟨hp, hi, -, ho, hf, hr, -⟩ := executeWord_kept h
  exact ⟨ho, hi, hf, hr, executeWord_rsps h, hp⟩

/-- A command left without an answer has moved the streams no further than the whole command (20_memory.md R78). -/
theorem stallWord_forward {w : Word} {k : Nat} (h : stallWord w k s = .next u) : Forward s u := by
  obtain ⟨t, ht, -⟩ := stallWord_cases h
  obtain ⟨hp, hi, -, hr, -, ho, -, -, hpos⟩ := stallWord_streams ht h
  obtain ⟨-, -, -, -, hf, hin, -⟩ := executeWord_kept ht
  refine ⟨ho, hi, ?_, fun hs => ?_, hr ▸ List.prefix_refl _, hp⟩
  · rw [hpos]; exact Nat.le_min.2 ⟨hf, Nat.le_add_right _ _⟩
  · rw [hpos]; exact (Nat.min_le_left _ _).trans (hin hs)

/-- Hardware reset changes no stream, no response and not `N` (R55). -/
theorem Forward.hardReset (h : Forward s t) : Forward s (hardReset t) :=
  ⟨h.out, h.inp, h.forward, h.inRange, h.rsps, h.params⟩

theorem Handled.forward (h : Handled s t) : Forward s t := by
  cases h with
  | executed w hw => exact executeWord_forward hw
  | stalled w k hw => exact stallWord_forward hw
  | abandoned w k u hw ht => rw [ht]; exact (stallWord_forward hw).hardReset
  | reset ht => rw [ht]; exact (Forward.refl s).hardReset
  | ignored ht => rw [ht]; exact Forward.refl s

/-- Settles O45, by the ways an event can be handled; taking it off the queue touches no stream. -/
theorem streamsMoveOnlyForward : Obligations.StreamsMoveOnlyForward := by
  intro s t hs hst
  obtain ⟨q, hq⟩ := step_handled hst
  obtain ⟨ho, hi, hf, hr, hrsp, hp⟩ := hq.forward
  exact ⟨ho, ho.length_le, hi, hf, hi ▸ hr hs, hrsp, hp⟩

/-! ## The session flags (R34) -/

/-- `enc_active` moves by ENC_INIT, ENC_FIN and SRST (R25). -/
theorem Done.encActive {i : Instr} (h : Done i s u) :
    u.encActive = if i = .encInit then true else if i = .encFin ∨ i = .srst then false else s.encActive := by
  cases i with
  | nop | csrRd | flFreq | flCumlo | flCumhi | flTotal | flFind => rw [show u = s from h]; simp
  | srst => rw [show u = softReset s from h]; rfl
  | tblWr => rw [h.2.2.2]; simp
  | txPut => rw [h.2, putBit_frame]; simp
  | txClose => rw [h.2, closeTx_frame]; simp
  | encInit => rw [h.2.2.2]; rfl
  | encSym =>
    rw [((setEncInterval_wrote s _).trans (encRenorm_wrote _ (Or.inl h.2.2.2.2))).frame]
    simp
  | encFin => rw [h.2.2]; rfl
  | rxGet | decInit | decSym | decEnd => rw [(h.decoderSide rfl).frame]; simp

/-- `dec_active` moves by DEC_INIT, DEC_END, SRST, and DEC_SYM of the end-of-stream symbol (R29). -/
theorem Done.decActive {i : Instr} (h : Done i s u) :
    u.decActive = if i = .decInit then true else if i = .decEnd ∨ i = .srst then false
      else if i = .decSym then !decide (s.decodedSymbol = some s.eosSym) else s.decActive := by
  cases i with
  | nop | csrRd | flFreq | flCumlo | flCumhi | flTotal | flFind => rw [show u = s from h]; simp
  | srst => rw [show u = softReset s from h]; rfl
  | tblWr => rw [h.2.2.2]; simp
  | txPut | txClose | encInit | encSym | encFin => rw [(h.encoderSide rfl).frame]; simp
  | rxGet => rw [h.2, getBit_frame]; simp
  | decInit => rw [h.2.2.2]; rfl
  | decSym =>
    obtain ⟨ha, -, sym, hs, ⟨he, rfl⟩ | ⟨he, rfl⟩⟩ := h
    · simp [hs, he]
    · rw [((setDecInterval_wrote s _).trans (decRenorm_wrote _ _)).frame]
      simp [hs, he, ha]
  | decEnd => rw [h.2]; rfl

/-- `dec_eos` moves by DEC_INIT, SRST and DEC_SYM; with a session open it is clear (R29). -/
theorem Done.decEos {i : Instr} (h : Done i s u) (hc : s.decEos = true → s.decActive = false) :
    u.decEos = if i = .decInit ∨ i = .srst then false
      else if i = .decSym then decide (s.decodedSymbol = some s.eosSym) else s.decEos := by
  cases i with
  | nop | csrRd | flFreq | flCumlo | flCumhi | flTotal | flFind => rw [show u = s from h]; simp
  | srst => rw [show u = softReset s from h]; rfl
  | tblWr => rw [h.2.2.2]; simp
  | txPut | txClose | encInit | encSym | encFin => rw [(h.encoderSide rfl).frame]; simp
  | rxGet => rw [h.2, getBit_frame]; simp
  | decInit => rw [h.2.2.2, openDec_decEos]; rfl
  | decSym =>
    obtain ⟨ha, -, sym, hs, ⟨he, rfl⟩ | ⟨he, rfl⟩⟩ := h
    · simp [hs, he]
    · have hclear : s.decEos = false := by simpa [ha] using hc
      rw [((setDecInterval_wrote s _).trans (decRenorm_wrote _ _)).frame]
      simp [hs, he, hclear]
  | decEnd => rw [h.2]; simp

/-- A command answered `OK` while a fault is recorded, other than SRST, is a register read: it changes nothing (R229). -/
theorem Done.unchanged_of_faulted {i : Instr} (h : Done i s u) (hi : alwaysExecutes i) (hf : u.faulted = true) :
    u = s := by
  rcases hi with rfl | ⟨a, c, rfl, -⟩
  · rw [show u = softReset s from h] at hf
    exact absurd hf Bool.noConfusion
  · exact h

/-- A command let through with no fault recorded and answered `OK` records none (R31). -/
theorem Done.faulted {i : Instr} (h : Done i s u) (hf : s.faulted = false) : u.faulted = false := by
  by_cases hi : i = .srst
  · subst hi
    rw [show u = softReset s from h]
    rfl
  · rw [State.faulted, (h.latch hi).1]
    exact hf

/-- Settles O46: a command that ends with a fault recorded has written no flag; the others move them by their effect. -/
theorem sessionFlagsFollowTheStateMachines : Obligations.SessionFlagsFollowTheStateMachines := by
  intro s t i h hx
  cases exec_ended hx with
  | refused hf _ ht =>
    subst ht
    exact ⟨fun _ => ⟨rfl, rfl, rfl⟩, fun h0 => absurd (hf.symm.trans h0) Bool.noConfusion⟩
  | raised c _ _ ht =>
    subst ht
    exact ⟨fun _ => ⟨rfl, rfl, rfl⟩, fun h0 => absurd ((latched_faulted s c _).symm.trans h0) Bool.noConfusion⟩
  | overflowed sym u _ _ _ _ _ _ hu ht =>
    have hframe := ((setEncInterval_wrote s _).trans (encRenorm_wrote _ (Or.inr hu))).frame
    subst ht
    refine ⟨fun _ => ?_, fun h0 => absurd ((latched_faulted u .pendingOverflow _).symm.trans h0) Bool.noConfusion⟩
    rw [hframe]
    exact ⟨rfl, rfl, rfl⟩
  | done u d hf hu ht =>
    subst ht
    refine ⟨fun h1 => ?_, fun _ => ⟨hu.encActive, hu.decActive, hu.decEos h.eosClosed⟩⟩
    rcases hf with hi | hf
    · rw [hu.unchanged_of_faulted hi h1]
      exact ⟨rfl, rfl, rfl⟩
    · exact absurd (h1.symm.trans (hu.faulted hf)) Bool.noConfusion

end Sys2Proof.Machine
end

section
/-! THE RESETS AND THE STATUS REGISTERS (10_state.md R36 to R50, R55; 44_system_ops.md R211, R212). -/

namespace Sys2Proof.Machine

/-! ## The resets -/

/-- `rst` between two commands or during a wait: the block is idle or not, either way it is reset (R250). -/
theorem step_rst {s : State} {rest : List HostEvent} (h : s.host = .rst :: rest) :
    step s = .next (hardReset { s with host := rest }) := by
  cases hq : s.inProgress with
  | none => rw [step_whenIdle hq h]; rfl
  | some c => rw [step_whenBusy hq h]; rfl

/-- Settles O10: what hardware reset and SRST write, field by field. -/
theorem resetsSetEveryElement : Obligations.ResetsSetEveryElement :=
  ⟨fun _ _ h => step_rst h, fun _ => rfl, fun _ => rfl⟩

/-! ## Reading a register -/

/-- CSR_RD of a defined address answers the register, also while a fault is recorded (R212). -/
theorem exec_csrRd {addr : Nat} {c : Csr} (h : csrAt addr = some c) (s : State) :
    exec (.csrRd addr) s = .next (s.answered 0 (s.csr c).toNat) := by
  rw [exec, execCsrRd, h]
  exact answer_word _ s

theorem addr_of_csrAt {addr : Nat} {c : Csr} (h : csrAt addr = some c) : c.addr = addr := by
  simpa using List.find?_some h

/-- The three runs of addresses of the register map (R36). -/
theorem Csr.addr_mapped (c : Csr) :
    c.addr ≤ 0x0004 ∨ (0x0008 ≤ c.addr ∧ c.addr ≤ 0x000B) ∨ (0x0010 ≤ c.addr ∧ c.addr ≤ 0x0013) := by
  cases c <;> decide

/-- No register has an address in the gaps of the map or above it (R50). -/
theorem csrAt_undefined {addr : Nat}
    (h : (0x0005 ≤ addr ∧ addr ≤ 0x0007) ∨ (0x000C ≤ addr ∧ addr ≤ 0x000F) ∨ 0x0014 ≤ addr) : csrAt addr = none := by
  cases hc : csrAt addr with
  | none => rfl
  | some c =>
    have hm := c.addr_mapped
    rw [addr_of_csrAt hc] at hm
    omega

/-- CSR_RD of an undefined address is issued like any other command and raises `BAD_INDEX` (R50). -/
theorem exec_csrRd_undefined {addr : Nat} (h : csrAt addr = none) (s : State) :
    exec (.csrRd addr) s = issue (.csrRd addr) s (raise .badIndex (encode (.csrRd addr))) := by
  rw [exec, execCsrRd, h]

/-- Settles O15: the address is no register's, so the command is issued, and its body is the fault. -/
theorem csrReadOfUndefinedAddress : Obligations.CsrReadOfUndefinedAddress := by
  intro s addr h
  have hn : csrAt addr = none := csrAt_undefined (h.imp id (Or.imp id And.left))
  rw [exec_csrRd_undefined hn]
  exact ⟨fun hf => by rw [issue_ok hf rfl, raise_eq]; rfl, issue_faulted⟩

/-! ## The values of the registers (R37 to R49) -/

/-- `CFG` (R38). -/
theorem csr_cfg_toNat (s : State) : (s.csr .cfg).toNat = s.params.n.toNat + 16 * 2 ^ 16 + 32 * 2 ^ 24 := by
  simp only [State.csr, toNat_append_eq, Config.PENDW_eq, Config.P_eq, BitVec.toNat_ofNat]
  omega

/-- `STATUS` (R39). -/
theorem csr_status_toNat (s : State) :
    (s.csr .status).toNat = s.encActive.toNat + 2 * s.decActive.toNat + 4 * s.decEos.toNat + 8 * s.rxEnd.toNat
      + (if s.faultCause = 0#4 then 0 else 16) := by
  have hf : s.faulted.toNat = if s.faultCause = 0#4 then 0 else 1 := by
    by_cases h : s.faultCause = 0#4 <;> simp [State.faulted, h]
  simp only [State.csr, State.statusWord, toNat_append_eq, BitVec.toNat_ofBool, BitVec.toNat_ofNat, hf]
  split <;> omega

/-- A register that holds one field, zero above it. -/
theorem zeros_append_toNat {k n : Nat} (x : BitVec n) : (0#k ++ x).toNat = x.toNat := by
  simp only [toNat_append_eq, BitVec.toNat_ofNat, Nat.zero_mod, Nat.zero_mul, Nat.zero_add]

/-- A register that holds two fields side by side, zero above them (R45, R49). -/
theorem zeros_append_append_toNat {k m n : Nat} (hi : BitVec m) (lo : BitVec n) :
    (0#k ++ hi ++ lo).toNat = lo.toNat + hi.toNat * 2 ^ n := by
  rw [toNat_append_eq, zeros_append_toNat, Nat.add_comm]

/-- Settles O13: each of the five addresses is a register's, and the register's value is the sum of its fields. -/
theorem csrReadsIdStatusAndFault : Obligations.CsrReadsIdStatusAndFault := by
  intro s addr v h
  simp only [List.mem_cons, Prod.mk.injEq, List.not_mem_nil, or_false] at h
  rcases h with ⟨rfl, rfl⟩ | ⟨rfl, rfl⟩ | ⟨rfl, rfl⟩ | ⟨rfl, rfl⟩ | ⟨rfl, rfl⟩
  · exact exec_csrRd (c := .id) rfl s
  · rw [exec_csrRd (c := .cfg) rfl, csr_cfg_toNat]
  · rw [exec_csrRd (c := .status) rfl, csr_status_toNat]
  · rw [exec_csrRd (c := .fault) rfl, State.csr, zeros_append_toNat]
  · exact exec_csrRd (c := .faultCmd) rfl s

/-- Settles O14: each of the eight addresses is a register's, and the register's value is the sum of its fields. -/
theorem csrReadsCoderState : Obligations.CsrReadsCoderState := by
  intro s addr v h
  simp only [List.mem_cons, Prod.mk.injEq, List.not_mem_nil, or_false] at h
  rcases h with ⟨rfl, rfl⟩ | ⟨rfl, rfl⟩ | ⟨rfl, rfl⟩ | ⟨rfl, rfl⟩ | ⟨rfl, rfl⟩ | ⟨rfl, rfl⟩ | ⟨rfl, rfl⟩ | ⟨rfl, rfl⟩
  · rw [exec_csrRd (c := .encLow) rfl, State.csr, zeros_append_toNat]
  · rw [exec_csrRd (c := .encHigh) rfl, State.csr, zeros_append_toNat]
  · exact exec_csrRd (c := .encPend) rfl s
  · rw [exec_csrRd (c := .txState) rfl, State.csr, zeros_append_append_toNat]
  · rw [exec_csrRd (c := .decLow) rfl, State.csr, zeros_append_toNat]
  · rw [exec_csrRd (c := .decHigh) rfl, State.csr, zeros_append_toNat]
  · rw [exec_csrRd (c := .decValue) rfl, State.csr, zeros_append_toNat]
  · rw [exec_csrRd (c := .rxState) rfl, State.csr, zeros_append_append_toNat]

end Sys2Proof.Machine
end

section
/-! WAITING FOR EVER (20_memory.md R78; 70_reset_and_hazards.md R272, R273). -/

namespace Sys2Proof.Machine

/-- When a command was answered `END`, in words. -/
theorem tookEnd_iff {w : Word} {s t : State} :
    tookEnd w s t = true ↔
      t.rxEnd = true ∧ (s.rxEnd = false ∨ (w = encode .decInit ∧ t.faulted = false)) := by
  simp [tookEnd]

/-- Settles O53: the state is that of `waiting`; whether more transfers were needed is whether `k` is below their
count, the answer `END` counted last. -/
theorem unansweredTransferLeavesTheCommandWaiting : Obligations.UnansweredTransferLeavesTheCommandWaiting := by
  intro s t w k rest hq hh hstep askedEnd bytes
  have ht : executeWord w { s with host := rest } = .next t :=
    (step_cmd (s := { s with host := .cmd w :: rest }) hq rfl).symm.trans hstep
  have hu : stallWord w k { s with host := rest } = .next (waiting w k { s with host := rest } t) := by
    rw [stallWord, ht]
  have hend : tookEnd w { s with host := rest } t = true ↔ askedEnd := tookEnd_iff
  have hcount : transferCount w { s with host := rest } t = bytes + bitNat (tookEnd w { s with host := rest } t) := rfl
  obtain ⟨-, -, -, hrsps, hprog, hout, hout', hlen, hpos⟩ := stallWord_streams ht hu
  refine ⟨_, (step_whenIdle hq hh).trans hu, hprog, hrsps, hout, hout', hlen, hpos, fun hk => ?_, fun hk => ?_⟩
  · have hlt : k < transferCount w { s with host := rest } t := by
      rcases hk with hk | ⟨hk, ha⟩
      · omega
      · rw [hcount, hend.2 ha, hk]
        exact Nat.lt_succ_self _
    rw [waiting, if_pos hlt]
    rfl
  · have hle : ¬ k < transferCount w { s with host := rest } t := by
      rcases hk with hk | ⟨hk, ha⟩
      · have := bitNat_le (tookEnd w { s with host := rest } t)
        omega
      · rw [hcount, Bool.eq_false_iff.2 (mt hend.1 ha), hk]
        exact Nat.lt_irrefl _
    rw [waiting, if_neg hle]

/-- A word presented while a command is in progress is taken off the queue, and nothing else happens (R272). -/
theorem step_busy_word {s : State} {e : HostEvent} {rest : List HostEvent} (hq : s.inProgress ≠ none)
    (hh : s.host = e :: rest) (he : (∃ w, e = .cmd w) ∨ ∃ w k, e = .stall w k) :
    step s = .next { s with host := rest } := by
  obtain ⟨c, hc⟩ := Option.ne_none_iff_exists'.1 hq
  rw [step_whenBusy hc hh]
  rcases he with ⟨w, rfl⟩ | ⟨w, k, rfl⟩ <;> rfl

/-- `rst` ends the wait, whether it is asserted alone or with a further word (R250). -/
theorem step_busy_rst {s : State} {e : HostEvent} {rest : List HostEvent} (hq : s.inProgress ≠ none)
    (hh : s.host = e :: rest) (he : e = .rst ∨ ∃ w k, e = .rstDuring w k) :
    step s = .next (hardReset { s with host := rest }) := by
  obtain ⟨c, hc⟩ := Option.ne_none_iff_exists'.1 hq
  rw [step_whenBusy hc hh]
  rcases he with rfl | ⟨w, k, rfl⟩ <;> rfl

/-- Any number of steps of a block that waits, with no `rst` among the events: the queue is drained. -/
theorem steps_busy (n : Nat) {s : State} (hq : s.inProgress ≠ none)
    (he : ∀ e ∈ s.host, (∃ w, e = .cmd w) ∨ ∃ w k, e = .stall w k) :
    steps n s = .next { s with host := s.host.drop n } := by
  induction n generalizing s with
  | zero => rfl
  | succ n ih =>
    rw [steps]
    cases hh : s.host with
    | nil =>
      rw [step_idle hh]
      dsimp only
      rw [ih hq he, hh, List.drop_nil, List.drop_nil]
    | cons e rest =>
      rw [hh, List.forall_mem_cons] at he
      rw [step_busy_word hq hh he.1]
      exact ih (s := { s with host := rest }) hq he.2

/-- Settles O54: the steps drain the queue, and hardware reset writes every element but those of the environment. -/
theorem onlyResetEndsTheWait : Obligations.OnlyResetEndsTheWait :=
  ⟨fun _ n hq he => steps_busy n hq he, fun _ _ _ hq hh he => step_busy_rst hq hh he⟩

end Sys2Proof.Machine
end

section
/-! THE TABLE (20_memory.md R76): which steps change it. -/

namespace Sys2Proof.Machine

variable {s t u : State}

/-- A word that decodes to `TBL_WR` is its encoding: the nibble, the weight and the index fill it (R94). -/
theorem encode_of_decode_tblWr {w : Word} {idx : Nat} {wt : Weight} (h : decode w = .ok (.tblWr idx wt)) :
    w = encode (.tblWr idx wt) := by
  obtain ⟨r, hr, hhit, hi⟩ := decode_ok h
  have hrow : r = ⟨0x10000000#32, 0xF0000000#32, fun cmd => .tblWr (fieldArg cmd) (fieldWeight cmd)⟩ := by
    fin_cases hr <;> cases hi
    rfl
  subst hrow
  obtain ⟨rfl, rfl⟩ := Instr.tblWr.inj hi
  rw [rowT_hits, decide_eq_true_eq] at hhit
  refine BitVec.eq_of_toNat_eq ?_
  rw [encode, encodeT_toNat, fieldArg_eq, fieldWeight_toNat]
  omega

/-- The word `w` was a `TBL_WR`, accepted in `s`, and `t` has the entry written (R127). -/
structure TableWritten (w : Word) (s t : State) : Prop where
  encClosed : s.encActive = false
  decClosed : s.decActive = false
  unfaulted : s.faulted = false
  written : ∃ idx wt, w = encode (.tblWr idx wt) ∧ t.freq = Memory.write s.freq idx wt

/-- The only effect that writes the table is that of `TBL_WR`. -/
theorem Done.freq {i : Instr} (h : Done i s u) :
    u.freq = s.freq ∨ ∃ idx wt, i = .tblWr idx wt ∧ s.encActive = false ∧ s.decActive = false ∧
      u.freq = Memory.write s.freq idx wt := by
  cases hE : isEncoderSide i with
  | true => rw [(h.encoderSide hE).frame]; exact Or.inl rfl
  | false =>
    cases hD : isDecoderSide i with
    | true => rw [(h.decoderSide hD).frame]; exact Or.inl rfl
    | false =>
      rcases h.neither hE hD with rfl | ⟨-, rfl⟩ | ⟨idx, wt, hi, he, hd, -, rfl⟩
      · exact Or.inl rfl
      · exact Or.inl rfl
      · exact Or.inr ⟨idx, wt, hi, he, hd, rfl⟩

theorem executeWord_freq {w : Word} (h : executeWord w s = .next t) : t.freq = s.freq ∨ TableWritten w s t := by
  rcases executeWord_ended h with ⟨i, hw, hi⟩ | ⟨e, -, ⟨-, rfl⟩ | ⟨-, rfl⟩⟩
  · cases hi with
    | refused _ _ ht | raised _ _ _ ht => rw [ht]; exact Or.inl rfl
    | overflowed sym u _ _ _ _ _ _ hu ht =>
      rw [ht, ((setEncInterval_wrote _ _).trans (encRenorm_wrote _ (Or.inr hu))).frame]
      exact Or.inl rfl
    | done u d hf hu ht =>
      subst ht
      refine hu.freq.imp id ?_
      rintro ⟨idx, wt, rfl, he, hd, hfreq⟩
      exact ⟨he, hd, hf.resolve_left (by simp [alwaysExecutes]), idx, wt, encode_of_decode_tblWr hw, hfreq⟩
  · exact Or.inl rfl
  · exact Or.inl rfl

/-- A command left without an answer writes the table as the whole command does, or not at all (R273). -/
theorem stallWord_freq {w : Word} {k : Nat} (h : stallWord w k s = .next u) :
    u.freq = s.freq ∨ TableWritten w s u := by
  obtain ⟨t, ht, ⟨-, rfl⟩ | ⟨-, rfl⟩⟩ := stallWord_cases h
  · exact Or.inl rfl
  · exact (executeWord_freq ht).imp id fun hw => ⟨hw.encClosed, hw.decClosed, hw.unfaulted, hw.written⟩

/-- A step that handles a word, its response taken or not, changes the table only as an accepted `TBL_WR` of an idle
block. -/
theorem step_word_freq {e : HostEvent} {w : Word} {rest : List HostEvent} (he : e = .cmd w ∨ ∃ k, e = .stall w k)
    (hh : s.host = e :: rest) (h : step s = .next t) (hne : t.freq ≠ s.freq) :
    s.inProgress = none ∧ TableWritten w { s with host := rest } t := by
  by_cases hq : s.inProgress = none
  · rw [step_whenIdle hq hh] at h
    rcases he with rfl | ⟨k, rfl⟩
    · exact ⟨hq, (executeWord_freq h).resolve_left hne⟩
    · exact ⟨hq, (stallWord_freq h).resolve_left hne⟩
  · have hbusy := step_busy_word hq hh (he.imp (fun h => ⟨w, h⟩) fun h => ⟨w, h⟩)
    exact absurd (congrArg State.freq (next_inj (hbusy.symm.trans h)).symm) hne

/-- Settles O44, by the event the step handles. -/
theorem tableIsFixedDuringSessions : Obligations.TableIsFixedDuringSessions := by
  intro s t h hne
  cases hh : s.host with
  | nil => exact absurd (congrArg State.freq (next_inj ((step_idle hh).symm.trans h)).symm) hne
  | cons e rest =>
    cases e with
    | rst => exact Or.inr (Or.inl ⟨rest, rfl⟩)
    | rstDuring w k => exact Or.inr (Or.inr ⟨w, k, rest, rfl⟩)
    | cmd w =>
      obtain ⟨hq, he, hd, hf, idx, wt, rfl, hfreq⟩ := step_word_freq (Or.inl rfl) hh h hne
      exact Or.inl ⟨hq, he, hd, hf, idx, wt, rest, Or.inl rfl, hfreq⟩
    | stall w k =>
      obtain ⟨hq, he, hd, hf, idx, wt, rfl, hfreq⟩ := step_word_freq (Or.inr ⟨k, rfl⟩) hh h hne
      exact Or.inl ⟨hq, he, hd, hf, idx, wt, rest, Or.inr ⟨k, rfl⟩, hfreq⟩

end Sys2Proof.Machine
end

section
/-! THE TWO SIDES OF THE BLOCK (20_memory.md R73): what a command of one side writes, beside the fault latch and the
response channel, which both sides share. -/

namespace Sys2Proof.Machine

variable {s t u : State}

/-- The encoder's and the bit sink's commands, as the statements list them. -/
theorem isEncoderSide_iff {i : Instr} :
    isEncoderSide i = true ↔
      i = .encInit ∨ i = .encFin ∨ i = .txClose ∨ (∃ sym, i = .encSym sym) ∨ ∃ b, i = .txPut b := by
  cases i <;> simp [isEncoderSide]

/-- The decoder's and the bit source's commands, as the statements list them. -/
theorem isDecoderSide_iff {i : Instr} :
    isDecoderSide i = true ↔ i = .decInit ∨ i = .decSym ∨ i = .decEnd ∨ i = .rxGet := by
  cases i <;> simp [isDecoderSide]

/-- The same shared part given to both states leaves one side's effect an effect of that side. -/
theorem EncoderSide.withShared (h : EncoderSide s u) (c : Code) (w : Word) (r : List Response) :
    EncoderSide { s with faultCause := c, faultCmd := w, rsps := r }
      { u with faultCause := c, faultCmd := w, rsps := r } :=
  ⟨by rw [h.frame], h.extends_out⟩

theorem DecoderSide.withShared (h : DecoderSide s u) (c : Code) (w : Word) (r : List Response) :
    DecoderSide { s with faultCause := c, faultCmd := w, rsps := r }
      { u with faultCause := c, faultCmd := w, rsps := r } :=
  ⟨by rw [h.frame], h.forward, h.inRange⟩

/-- However an encoder-side command ends, it has written its side and the shared part only. -/
theorem Ended.encoderSide {i : Instr} (h : Ended i s t) (hi : isEncoderSide i = true) :
    EncoderSide { s with faultCause := t.faultCause, faultCmd := t.faultCmd, rsps := t.rsps } t := by
  cases h with
  | refused _ _ ht | raised _ _ _ ht => rw [ht]; exact ⟨rfl, List.prefix_refl _⟩
  | overflowed sym u _ _ _ _ _ _ hu ht =>
    rw [ht]
    exact ((setEncInterval_wrote s _).trans (encRenorm_wrote _ (Or.inr hu))).side.withShared _ _ _
  | done u d _ hu ht => rw [ht]; exact (hu.encoderSide hi).withShared _ _ _

/-- However a decoder-side command ends, it has written its side and the shared part only. -/
theorem Ended.decoderSide {i : Instr} (h : Ended i s t) (hi : isDecoderSide i = true) :
    DecoderSide { s with faultCause := t.faultCause, faultCmd := t.faultCmd, rsps := t.rsps } t := by
  cases h with
  | refused _ _ ht | raised _ _ _ ht => rw [ht]; exact ⟨rfl, Nat.le_refl _, id⟩
  | overflowed sym u he => rw [he] at hi; exact absurd hi Bool.noConfusion
  | done u d _ hu ht => rw [ht]; exact (hu.decoderSide hi).withShared _ _ _

/-- Settles O47, by what each side's commands can end in. -/
theorem codersTouchDisjointState : Obligations.CodersTouchDisjointState := fun _ _ _ h =>
  ⟨fun hi => ((exec_ended h).encoderSide (isEncoderSide_iff.2 hi)).frame,
    fun hi => ((exec_ended h).decoderSide (isDecoderSide_iff.2 hi)).frame⟩

end Sys2Proof.Machine
end

section
/-! NONINTERFERENCE (20_memory.md R73): exchanging the other side of the state commutes with executing a command. -/

namespace Sys2Proof.Machine

/-- The outcome with its next state, if there is one, changed by `f`. -/
def mapNext (f : State → State) : Result → Result
  | .next s => .next (f s)
  | .fault r => .fault r
  | .refused r => .refused r

/-- `f` changes nothing that the dispatch of a command reads, the total of the table, or the shared part of the state
(R102, 40_frequency_lookup.md R126). -/
structure KeepsShared (f : State → State) : Prop where
  faulted : ∀ s, (f s).faulted = s.faulted
  total : ∀ s, (f s).total = s.total
  respond : ∀ s c d, (f s).respond c d = f (s.respond c d)
  latch : ∀ s c w, { f s with faultCause := c, faultCmd := w } = f { s with faultCause := c, faultCmd := w }

namespace KeepsShared

variable {f : State → State} (hf : KeepsShared f) {i : Instr} {s : State} {body : State → Result}
include hf

theorem answer (d : Word) (s : State) : Machine.answer d (f s) = mapNext f (Machine.answer d s) :=
  congrArg Host.Outcome.next (hf.respond s _ _)

theorem raise (c : Cause) (w : Word) (s : State) : Machine.raise c w (f s) = mapNext f (Machine.raise c w s) := by
  rw [Machine.raise, hf.latch, hf.respond]
  rfl

theorem issue (ho : sessionOk i (f s) = sessionOk i s) (hb : body (f s) = mapNext f (body s)) :
    Machine.issue i (f s) body = mapNext f (Machine.issue i s body) := by
  rw [Machine.issue, Machine.issue, hf.faulted, ho]
  split
  · exact congrArg Host.Outcome.next (hf.respond s _ _)
  · split
    · exact hb
    · exact hf.raise _ _ s

theorem modelCheck {w : Word} (hb : body (f s) = mapNext f (body s)) :
    Machine.modelCheck w (f s) body = mapNext f (Machine.modelCheck w s body) := by
  rw [Machine.modelCheck, Machine.modelCheck, hf.total]
  split
  · exact hf.raise _ _ s
  · split
    · exact hf.raise _ _ s
    · exact hb

end KeepsShared

/-! ## The encoder under another decoder -/

/-- `s` with the decoder, the receive buffer and the input of `d`. -/
def State.withDecoderOf (d s : State) : State :=
  { s with decLow := d.decLow, decHigh := d.decHigh, decValue := d.decValue, decActive := d.decActive,
           decEos := d.decEos, rxBuf := d.rxBuf, rxCnt := d.rxCnt, rxEnd := d.rxEnd, inp := d.inp, inPos := d.inPos }

theorem withDecoderOf_keepsShared (d : State) : KeepsShared d.withDecoderOf :=
  ⟨fun _ => rfl, fun _ => rfl, fun _ _ _ => rfl, fun _ _ _ => rfl⟩

section
variable (d s : State)

@[simp] theorem withDecoderOf_encPend : (d.withDecoderOf s).encPend = s.encPend := rfl
@[simp] theorem withDecoderOf_encInterval : (d.withDecoderOf s).encInterval = s.encInterval := rfl
@[simp] theorem withDecoderOf_finalBit : (d.withDecoderOf s).finalBit = s.finalBit := rfl
@[simp] theorem withDecoderOf_symbolCodable (sym : Nat) :
    (d.withDecoderOf s).symbolCodable sym = s.symbolCodable sym := rfl
@[simp] theorem withDecoderOf_narrowDefined (iv : Interval) :
    (d.withDecoderOf s).narrowDefined iv = s.narrowDefined iv := rfl
@[simp] theorem withDecoderOf_narrowFor (iv : Interval) (sym : Nat) :
    (d.withDecoderOf s).narrowFor iv sym = s.narrowFor iv sym := rfl

theorem setEncInterval_withDecoderOf (iv : Interval) :
    (d.withDecoderOf s).setEncInterval iv = d.withDecoderOf (s.setEncInterval iv) := rfl

theorem putBit_withDecoderOf (b : Bool) : (d.withDecoderOf s).putBit b = d.withDecoderOf (s.putBit b) := by
  by_cases h : s.txFill = 7#3
  · rw [putBit_last h, putBit_last (s := d.withDecoderOf s) h]; rfl
  · rw [putBit_lt h, putBit_lt (s := d.withDecoderOf s) h]; rfl

theorem putBits_withDecoderOf (b : Bool) (n : Nat) :
    (d.withDecoderOf s).putBits b n = d.withDecoderOf (s.putBits b n) := by
  induction n generalizing s with
  | zero => rfl
  | succ n ih => rw [State.putBits, putBit_withDecoderOf, ih]; rfl

theorem closeTx_withDecoderOf : (d.withDecoderOf s).closeTx = d.withDecoderOf s.closeTx :=
  (apply_ite d.withDecoderOf (s.txFill = 0#3) s.clearTx (s.outByte s.txBuf).clearTx).symm

theorem emitWithFollow_withDecoderOf (b : Bool) :
    (d.withDecoderOf s).emitWithFollow b = d.withDecoderOf (s.emitWithFollow b) := by
  rw [State.emitWithFollow, putBit_withDecoderOf, putBits_withDecoderOf]
  rfl

theorem settleBit_withDecoderOf (k : Scaling) :
    (d.withDecoderOf s).settleBit k = (s.settleBit k).map d.withDecoderOf := by
  cases k with
  | e1 => exact congrArg some (emitWithFollow_withDecoderOf d s false)
  | e2 => exact congrArg some (emitWithFollow_withDecoderOf d s true)
  | e3 =>
    rw [State.settleBit, State.settleBit, withDecoderOf_encPend]
    split <;> rfl

/-- The end of a renormalization with its state changed by `f`. -/
def Renormed.map (f : State → State) : Renormed → Renormed
  | .settled t => .settled (f t)
  | .overflowed t => .overflowed (f t)

theorem encRenorm_withDecoderOf (fuel : Nat) :
    encRenorm fuel (d.withDecoderOf s) = (encRenorm fuel s).map d.withDecoderOf := by
  induction fuel generalizing s with
  | zero => rfl
  | succ fuel ih =>
    rw [encRenorm, encRenorm, withDecoderOf_encInterval]
    cases s.encInterval.scaling with
    | none => rfl
    | some k =>
      simp only [settleBit_withDecoderOf]
      cases s.settleBit k with
      | none => rfl
      | some t => exact ih (t.setEncInterval (s.encInterval.rescale k))

theorem closeEnc_withDecoderOf : (d.withDecoderOf s).closeEnc = d.withDecoderOf s.closeEnc := by
  have h : (State.emitWithFollow { d.withDecoderOf s with encPend := s.encPend + 1#32 } s.finalBit) =
      d.withDecoderOf (State.emitWithFollow { s with encPend := s.encPend + 1#32 } s.finalBit) :=
    emitWithFollow_withDecoderOf d { s with encPend := s.encPend + 1#32 } s.finalBit
  rw [State.closeEnc, withDecoderOf_encPend, withDecoderOf_finalBit, h, closeTx_withDecoderOf]
  rfl

/-- An encoder-side command does the same whatever the decoder's side holds. -/
theorem exec_withDecoderOf {i : Instr} (hi : isEncoderSide i = true) :
    exec i (d.withDecoderOf s) = mapNext d.withDecoderOf (exec i s) := by
  have hf := withDecoderOf_keepsShared d
  cases i with
  | txPut b =>
    rw [exec, exec, execTxPut, execTxPut]
    exact hf.issue rfl ((congrArg (answer 0#32) (putBit_withDecoderOf d s b)).trans (hf.answer _ _))
  | txClose =>
    rw [exec, exec, execTxClose, execTxClose]
    exact hf.issue rfl ((congrArg (answer 0#32) (closeTx_withDecoderOf d s)).trans (hf.answer _ _))
  | encInit =>
    rw [exec, exec, execEncInit, execEncInit]
    exact hf.issue rfl (hf.modelCheck (hf.answer _ s.openEnc))
  | encSym sym =>
    rw [exec, exec, execEncSym, execEncSym]
    refine hf.issue rfl ?_
    simp only [withDecoderOf_symbolCodable, withDecoderOf_encInterval, withDecoderOf_narrowDefined,
      withDecoderOf_narrowFor, setEncInterval_withDecoderOf, encRenorm_withDecoderOf]
    split
    · exact hf.raise _ _ s
    · split
      · rfl
      · cases encRenorm Config.P (s.setEncInterval (s.narrowFor s.encInterval sym)) with
        | settled t => exact hf.answer _ t
        | overflowed t => exact hf.raise _ _ t
  | encFin =>
    rw [exec, exec, execEncFin, execEncFin]
    refine hf.issue rfl ?_
    rw [closeEnc_withDecoderOf, withDecoderOf_encPend]
    split
    · exact hf.raise _ _ s
    · exact hf.answer _ _
  | _ => simp [isEncoderSide] at hi

end

/-- Settles O48: the second run is the first with the decoder's side exchanged. -/
theorem encoderIsIndependentOfTheDecoder : Obligations.EncoderIsIndependentOfTheDecoder := by
  intro s s' t t' i hi hs h h'
  have hs : s' = s'.withDecoderOf s := hs
  rw [hs, exec_withDecoderOf s' s (isEncoderSide_iff.2 hi), h] at h'
  rw [← next_inj h']
  rfl

/-! ## The decoder under another encoder -/

/-- `s` with the encoder, the transmit buffer and the output of `e`. -/
def State.withEncoderOf (e s : State) : State :=
  { s with encLow := e.encLow, encHigh := e.encHigh, encPend := e.encPend, encActive := e.encActive,
           txBuf := e.txBuf, txFill := e.txFill, out := e.out }

theorem withEncoderOf_keepsShared (e : State) : KeepsShared e.withEncoderOf :=
  ⟨fun _ => rfl, fun _ => rfl, fun _ _ _ => rfl, fun _ _ _ => rfl⟩

section
variable (e s : State)

@[simp] theorem withEncoderOf_rxCnt : (e.withEncoderOf s).rxCnt = s.rxCnt := rfl
@[simp] theorem withEncoderOf_rxEnd : (e.withEncoderOf s).rxEnd = s.rxEnd := rfl
@[simp] theorem withEncoderOf_inp : (e.withEncoderOf s).inp = s.inp := rfl
@[simp] theorem withEncoderOf_inPos : (e.withEncoderOf s).inPos = s.inPos := rfl
@[simp] theorem withEncoderOf_decValue : (e.withEncoderOf s).decValue = s.decValue := rfl
@[simp] theorem withEncoderOf_eosSym : (e.withEncoderOf s).eosSym = s.eosSym := rfl
@[simp] theorem withEncoderOf_decInterval : (e.withEncoderOf s).decInterval = s.decInterval := rfl
@[simp] theorem withEncoderOf_decodedSymbol : (e.withEncoderOf s).decodedSymbol = s.decodedSymbol := rfl
@[simp] theorem withEncoderOf_scaledDefined (iv : Interval) (v : Nat) :
    (e.withEncoderOf s).scaledDefined iv v = s.scaledDefined iv v := rfl

theorem inByte_withEncoderOf :
    (e.withEncoderOf s).inByte = (s.inByte.1, e.withEncoderOf s.inByte.2) := by
  rw [State.inByte, State.inByte, withEncoderOf_inp, withEncoderOf_inPos]
  cases s.inp[s.inPos]? <;> rfl

theorem getBit_withEncoderOf :
    (e.withEncoderOf s).getBit = (s.getBit.1, e.withEncoderOf s.getBit.2) := by
  rw [State.getBit, State.getBit, inByte_withEncoderOf, withEncoderOf_rxCnt, withEncoderOf_rxEnd]
  split
  · split
    · rfl
    · rcases s.inByte with ⟨_ | v, t⟩ <;> rfl
  · rfl

theorem fillValue_withEncoderOf (n v : Nat) :
    State.fillValue n v (e.withEncoderOf s) =
      ((State.fillValue n v s).1, e.withEncoderOf (State.fillValue n v s).2) := by
  induction n generalizing v s with
  | zero => rfl
  | succ n ih => rw [State.fillValue, getBit_withEncoderOf, ih]; rfl

theorem openDec_withEncoderOf : (e.withEncoderOf s).openDec = e.withEncoderOf s.openDec := by
  rw [State.openDec, State.openDec, show (e.withEncoderOf s).clearDec = e.withEncoderOf s.clearDec from rfl,
    fillValue_withEncoderOf]
  generalize State.fillValue Config.P 0 s.clearDec = r
  rfl

theorem decShift_withEncoderOf (k : Scaling) : (e.withEncoderOf s).decShift k = e.withEncoderOf (s.decShift k) := by
  rw [State.decShift, getBit_withEncoderOf]
  rfl

theorem decRenorm_withEncoderOf (fuel : Nat) :
    decRenorm fuel (e.withEncoderOf s) = e.withEncoderOf (decRenorm fuel s) := by
  induction fuel generalizing s with
  | zero => rfl
  | succ fuel ih =>
    rw [decRenorm, decRenorm, withEncoderOf_decInterval]
    cases s.decInterval.scaling with
    | none => rfl
    | some k => exact (congrArg (decRenorm fuel) (decShift_withEncoderOf e s k)).trans (ih _)

theorem deliver_withEncoderOf (sym : Nat) :
    (e.withEncoderOf s).deliver sym = mapNext e.withEncoderOf (s.deliver sym) := by
  have hf := withEncoderOf_keepsShared e
  rw [State.deliver, State.deliver, withEncoderOf_eosSym, decRenorm_withEncoderOf]
  split
  · exact hf.answer _ { s with decEos := true, decActive := false }
  · exact hf.answer _ _

/-- A decoder-side command does the same whatever the encoder's side holds. -/
theorem exec_withEncoderOf {i : Instr} (hi : isDecoderSide i = true) :
    exec i (e.withEncoderOf s) = mapNext e.withEncoderOf (exec i s) := by
  have hf := withEncoderOf_keepsShared e
  cases i with
  | rxGet =>
    rw [exec, exec, execRxGet, execRxGet]
    refine hf.issue rfl ?_
    rw [getBit_withEncoderOf]
    exact hf.answer _ _
  | decInit =>
    rw [exec, exec, execDecInit, execDecInit]
    exact hf.issue rfl (hf.modelCheck ((congrArg (answer 0#32) (openDec_withEncoderOf e s)).trans (hf.answer _ _)))
  | decSym =>
    rw [exec, exec, execDecSym, execDecSym]
    refine hf.issue rfl ?_
    rw [withEncoderOf_scaledDefined, withEncoderOf_decInterval, withEncoderOf_decValue, withEncoderOf_decodedSymbol]
    split
    · rfl
    · cases s.decodedSymbol with
      | none => rfl
      | some sym => exact deliver_withEncoderOf e (s.setDecInterval (s.narrowFor s.decInterval sym)) sym
  | decEnd =>
    rw [exec, exec, execDecEnd, execDecEnd]
    exact hf.issue rfl (hf.answer _ { s with decActive := false })
  | _ => simp [isDecoderSide] at hi

end

/-- Settles O56: the second run is the first with the encoder's side exchanged. -/
theorem decoderIsIndependentOfTheEncoder : Obligations.DecoderIsIndependentOfTheEncoder := by
  intro s s' t t' i hi hs h h'
  have hs : s' = s'.withEncoderOf s := hs
  rw [hs, exec_withEncoderOf s' s (isDecoderSide_iff.2 hi), h] at h'
  rw [← next_inj h']
  rfl

end Sys2Proof.Machine
end

section
/-! THE OPCODE MAP, both ways (30_encoding.md R90 to R96): a word hits at most one row, and the row's command has that
word and no other as its encoding. -/

namespace Sys2Proof

/-! ## A word hits at most one row (R95) -/

theorem Row.hits_iff {r : Row} {cmd : Word} : r.hits cmd = true ↔ cmd &&& r.mask = r.pat := beq_iff_eq

/-- Two rows of the map differ in a bit that both fix. -/
theorem rows_disjoint : rows.Pairwise fun a b => ((a.pat ^^^ b.pat) &&& (a.mask &&& b.mask)) ≠ 0#32 := by decide

/-- The rows one word hits agree in every bit that both fix. -/
theorem Row.agree_of_hits {a b : Row} {cmd : Word} (ha : a.hits cmd = true) (hb : b.hits cmd = true) :
    (a.pat ^^^ b.pat) &&& (a.mask &&& b.mask) = 0#32 := by
  rw [Row.hits_iff] at ha hb
  rw [← ha, ← hb]
  ext k hk
  simp only [BitVec.getElem_and, BitVec.getElem_xor, BitVec.getElem_zero]
  generalize cmd[k] = x, a.mask[k] = p, b.mask[k] = q
  revert x p q
  decide

theorem Row.eq_of_hits {cmd : Word} : ∀ a ∈ rows, ∀ b ∈ rows, a.hits cmd = true → b.hits cmd = true → a = b :=
  List.Pairwise.forall_of_forall_of_flip (R := fun a b => a.hits cmd = true → b.hits cmd = true → a = b)
    (fun _ _ _ _ => rfl)
    (rows_disjoint.imp fun hd ha hb => absurd (Row.agree_of_hits ha hb) hd)
    (rows_disjoint.imp fun hd hb ha => absurd (Row.agree_of_hits ha hb) hd)

/-- A word is the command of the row it hits. -/
theorem decode_of_hits {r : Row} {cmd : Word} (hm : r ∈ rows) (h : r.hits cmd = true) :
    decode cmd = .ok (r.build cmd) := by
  cases hd : decode cmd with
  | ok i =>
    obtain ⟨r', hm', h', rfl⟩ := decode_ok hd
    rw [Row.eq_of_hits r hm r' hm' h h']
  | error e => exact absurd (h.symm.trans (decode_error hd r hm)) Bool.noConfusion

/-! ## From the word to the command and back (R100) -/

/-- The command the row gives a word is well formed and has that word as its encoding. -/
def Row.Sound (r : Row) : Prop :=
  ∀ cmd, r.hits cmd = true → (r.build cmd).wellFormed = true ∧ encode (r.build cmd) = cmd

/-- Format Z: the row fixes the whole word (R91). -/
theorem rowZ_sound {pat : Word} {i : Instr} (hw : i.wellFormed = true) (he : encode i = pat) :
    (rowZ pat i).Sound := by
  intro cmd h
  rw [rowZ_hits, decide_eq_true_eq] at h
  exact ⟨hw, he.trans (BitVec.eq_of_toNat_eq h).symm⟩

theorem fieldArg_fits (cmd : Word) : fitsOperand (fieldArg cmd) = true :=
  decide_eq_true (BitVec.isLt _)

/-- The row with pattern `pat` is that of the command `f`, of format S with opcode byte `op` (R92). -/
structure IsRowS (op : BitVec 8) (pat : Word) (f : Nat → Instr) : Prop where
  mem : rowS pat f ∈ rows
  pat_eq : encodeZ op = pat
  wellFormed : ∀ arg, (f arg).wellFormed = fitsOperand arg
  encode_eq : ∀ arg, encode (f arg) = encodeS op arg
  injective : ∀ a b, f a = f b → a = b

theorem isRowS_csrRd : IsRowS 0x02#8 0x02000000#32 .csrRd :=
  ⟨by simp [rows], rfl, fun _ => rfl, fun _ => rfl, fun _ _ => Instr.csrRd.inj⟩
theorem isRowS_flFreq : IsRowS 0x20#8 0x20000000#32 .flFreq :=
  ⟨by simp [rows], rfl, fun _ => rfl, fun _ => rfl, fun _ _ => Instr.flFreq.inj⟩
theorem isRowS_flCumlo : IsRowS 0x21#8 0x21000000#32 .flCumlo :=
  ⟨by simp [rows], rfl, fun _ => rfl, fun _ => rfl, fun _ _ => Instr.flCumlo.inj⟩
theorem isRowS_flCumhi : IsRowS 0x22#8 0x22000000#32 .flCumhi :=
  ⟨by simp [rows], rfl, fun _ => rfl, fun _ => rfl, fun _ _ => Instr.flCumhi.inj⟩
theorem isRowS_flFind : IsRowS 0x24#8 0x24000000#32 .flFind :=
  ⟨by simp [rows], rfl, fun _ => rfl, fun _ => rfl, fun _ _ => Instr.flFind.inj⟩
theorem isRowS_encSym : IsRowS 0x41#8 0x41000000#32 .encSym :=
  ⟨by simp [rows], rfl, fun _ => rfl, fun _ => rfl, fun _ _ => Instr.encSym.inj⟩

section
variable {op : BitVec 8} {pat : Word} {f : Nat → Instr}

theorem IsRowS.pat_toNat (h : IsRowS op pat f) : pat.toNat = op.toNat * 2 ^ 24 := by
  rw [← h.pat_eq, encodeZ_toNat]

/-- The eighteen bits a row of format S fixes. -/
theorem IsRowS.hits_iff (h : IsRowS op pat f) (cmd : Word) :
    (rowS pat f).hits cmd = true ↔ cmd.toNat / 2 ^ 14 = op.toNat * 2 ^ 10 := by
  have hp := h.pat_toNat
  rw [rowS_hits pat f cmd (by omega), decide_eq_true_eq]
  omega

/-- The operand's fourteen bits and the eighteen the row fixes fill the word. -/
theorem IsRowS.sound (h : IsRowS op pat f) : (rowS pat f).Sound := by
  intro cmd hc
  rw [h.hits_iff] at hc
  refine ⟨(h.wellFormed _).trans (fieldArg_fits cmd), (h.encode_eq _).trans (BitVec.eq_of_toNat_eq ?_)⟩
  rw [encodeS_toNat, fieldArg_eq]
  omega

end

theorem fieldBit_toNat (cmd : Word) : (fieldBit cmd).toNat = cmd.toNat % 2 := by
  rw [fieldBit_eq]
  rcases Nat.mod_two_eq_zero_or_one cmd.toNat with h | h <;> rw [h] <;> rfl

/-- Format B: the bit and the 31 bits the row fixes fill the word (R93). -/
theorem rowB_sound : Row.Sound ⟨0x30000000#32, 0xFFFFFFFE#32, fun cmd => .txPut (fieldBit cmd)⟩ := by
  intro cmd h
  rw [rowB_hits, decide_eq_true_eq] at h
  refine ⟨rfl, BitVec.eq_of_toNat_eq ?_⟩
  rw [encode, encodeB_toNat, fieldBit_toNat, BitVec.toNat_ofNat]
  omega

/-- Format T: the index, the weight and the nibble the row fixes fill the word (R94). -/
theorem rowT_sound :
    Row.Sound ⟨0x10000000#32, 0xF0000000#32, fun cmd => .tblWr (fieldArg cmd) (fieldWeight cmd)⟩ := fun cmd h =>
  ⟨fieldArg_fits cmd, (Machine.encode_of_decode_tblWr (decode_of_hits (by simp [rows]) h)).symm⟩

theorem rows_sound : ∀ r ∈ rows, r.Sound := by
  simp only [rows, List.cons_append, List.nil_append, List.forall_mem_cons]
  exact ⟨rowZ_sound rfl rfl, rowZ_sound rfl rfl, isRowS_csrRd.sound, rowT_sound, isRowS_flFreq.sound,
    isRowS_flCumlo.sound, isRowS_flCumhi.sound, rowZ_sound rfl rfl, isRowS_flFind.sound, rowB_sound, rowZ_sound rfl rfl,
    rowZ_sound rfl rfl, rowZ_sound rfl rfl, isRowS_encSym.sound, rowZ_sound rfl rfl, rowZ_sound rfl rfl,
    rowZ_sound rfl rfl, rowZ_sound rfl rfl, nofun⟩

/-- Settles O4: the word hits a row, and every row is sound. -/
theorem decodedWordIsItsEncoding : Obligations.DecodedWordIsItsEncoding := by
  intro w i h
  obtain ⟨r, hm, hr, rfl⟩ := decode_ok h
  exact rows_sound r hm w hr

/-! ## From the command to its word and back -/

/-- The encoding of `i` hits the row, which gives back `i` when it is well formed. -/
structure Row.Gives (r : Row) (i : Instr) : Prop where
  mem : r ∈ rows
  hits : r.hits (encode i) = true
  build : i.wellFormed = true → i = r.build (encode i)

theorem rowZ_gives {pat : Word} {i : Instr} (hm : rowZ pat i ∈ rows) (he : encode i = pat) : (rowZ pat i).Gives i :=
  ⟨hm, by rw [rowZ_hits, he, decide_eq_true_eq], fun _ => rfl⟩

theorem IsRowS.gives {op : BitVec 8} {pat : Word} {f : Nat → Instr} (h : IsRowS op pat f) (arg : Nat) :
    (rowS pat f).Gives (f arg) := by
  refine ⟨h.mem, ?_, fun hw => congrArg f ?_⟩
  · rw [h.hits_iff, h.encode_eq, encodeS_toNat]
    omega
  · rw [h.wellFormed, fitsOperand, decide_eq_true_eq] at hw
    rw [fieldArg_eq, h.encode_eq, encodeS_toNat]
    omega

theorem rowB_gives (b : Bool) :
    Row.Gives ⟨0x30000000#32, 0xFFFFFFFE#32, fun cmd => .txPut (fieldBit cmd)⟩ (.txPut b) :=
  ⟨by simp [rows], by cases b <;> rfl, fun _ => by cases b <;> rfl⟩

theorem rowT_gives (idx : Nat) (w : Weight) :
    Row.Gives ⟨0x10000000#32, 0xF0000000#32, fun cmd => .tblWr (fieldArg cmd) (fieldWeight cmd)⟩ (.tblWr idx w) := by
  have hw := w.isLt
  have ht : (encode (.tblWr idx w)).toNat = 2 ^ 28 + w.toNat * 2 ^ 14 + idx % 2 ^ 14 := encodeT_toNat idx w
  refine ⟨by simp [rows], ?_, fun hfit => congrArg₂ Instr.tblWr ?_ (BitVec.eq_of_toNat_eq ?_)⟩
  · rw [rowT_hits, decide_eq_true_eq, ht]
    omega
  · rw [Instr.wellFormed, fitsOperand, decide_eq_true_eq] at hfit
    rw [fieldArg_eq, ht]
    omega
  · rw [fieldWeight_toNat, ht]
    omega

/-- A word decodes to `i` exactly when it hits the row of `i`, which gives it `i`. -/
theorem Row.Gives.decode_iff {r : Row} {i : Instr} (h : r.Gives i) (cmd : Word) :
    decode cmd = .ok i ↔ r.hits cmd = true ∧ i = r.build cmd := by
  constructor
  · intro hd
    obtain ⟨hw, rfl⟩ := decodedWordIsItsEncoding cmd i hd
    exact ⟨h.hits, h.build hw⟩
  · rintro ⟨hr, hi⟩
    rw [hi, decode_of_hits h.mem hr]

/-- Every command has its row (R95). -/
theorem exists_row (i : Instr) : ∃ r : Row, r.Gives i := by
  cases i with
  | csrRd addr => exact ⟨_, isRowS_csrRd.gives addr⟩
  | flFreq sym => exact ⟨_, isRowS_flFreq.gives sym⟩
  | flCumlo sym => exact ⟨_, isRowS_flCumlo.gives sym⟩
  | flCumhi sym => exact ⟨_, isRowS_flCumhi.gives sym⟩
  | flFind x => exact ⟨_, isRowS_flFind.gives x⟩
  | encSym sym => exact ⟨_, isRowS_encSym.gives sym⟩
  | tblWr idx w => exact ⟨_, rowT_gives idx w⟩
  | txPut b => exact ⟨_, rowB_gives b⟩
  | nop => exact ⟨_, rowZ_gives (pat := 0x00000000#32) (by simp [rows]) rfl⟩
  | srst => exact ⟨_, rowZ_gives (pat := 0x01000000#32) (by simp [rows]) rfl⟩
  | flTotal => exact ⟨_, rowZ_gives (pat := 0x23000000#32) (by simp [rows]) rfl⟩
  | txClose => exact ⟨_, rowZ_gives (pat := 0x31000000#32) (by simp [rows]) rfl⟩
  | rxGet => exact ⟨_, rowZ_gives (pat := 0x38000000#32) (by simp [rows]) rfl⟩
  | encInit => exact ⟨_, rowZ_gives (pat := 0x40000000#32) (by simp [rows]) rfl⟩
  | encFin => exact ⟨_, rowZ_gives (pat := 0x42000000#32) (by simp [rows]) rfl⟩
  | decInit => exact ⟨_, rowZ_gives (pat := 0x50000000#32) (by simp [rows]) rfl⟩
  | decSym => exact ⟨_, rowZ_gives (pat := 0x51000000#32) (by simp [rows]) rfl⟩
  | decEnd => exact ⟨_, rowZ_gives (pat := 0x52000000#32) (by simp [rows]) rfl⟩

/-- Settles O3: the encoding of a command hits the command's row, and no other. -/
theorem decodeInvertsEncode : Obligations.DecodeInvertsEncode := by
  intro i hw
  obtain ⟨r, hr⟩ := exists_row i
  exact (hr.decode_iff _).2 ⟨hr.hits, hr.build hw⟩

/-! ## The four formats (R91 to R94) -/

theorem decode_rowZ_iff {pat : Word} {i : Instr} (hm : rowZ pat i ∈ rows) (he : encode i = pat) (cmd : Word) :
    decode cmd = .ok i ↔ cmd &&& 0xFFFFFFFF#32 = pat := by
  rw [(rowZ_gives hm he).decode_iff, Row.hits_iff]
  exact and_iff_left rfl

theorem IsRowS.decode_iff {op : BitVec 8} {pat : Word} {f : Nat → Instr} (h : IsRowS op pat f) (cmd : Word) (arg : Nat) :
    decode cmd = .ok (f arg) ↔ cmd &&& 0xFFFFC000#32 = pat ∧ arg = cmd.toNat % 2 ^ 14 := by
  rw [(h.gives arg).decode_iff, Row.hits_iff, ← fieldArg_eq]
  exact and_congr_right fun _ => ⟨h.injective _ _, congrArg f⟩

theorem decode_rowB_iff (cmd : Word) (b : Bool) :
    decode cmd = .ok (.txPut b) ↔ cmd &&& 0xFFFFFFFE#32 = 0x30000000#32 ∧ b = cmd.getLsbD 0 := by
  rw [(rowB_gives b).decode_iff, Row.hits_iff, Instr.txPut.injEq]
  rfl

theorem decode_rowT_iff (cmd : Word) (idx : Nat) (w : Weight) :
    decode cmd = .ok (.tblWr idx w) ↔
      cmd &&& 0xF0000000#32 = 0x10000000#32 ∧ idx = cmd.toNat % 2 ^ 14 ∧ w.toNat = cmd.toNat / 2 ^ 14 % 2 ^ 14 := by
  rw [(rowT_gives idx w).decode_iff, Row.hits_iff, Instr.tblWr.injEq, fieldArg_eq, ← fieldWeight_toNat, BitVec.toNat_inj]

/-- Settles O2, format by format. -/
theorem wordsFollowTheOpcodeMap : Obligations.WordsFollowTheOpcodeMap := by
  intro cmd
  refine ⟨fun pat i h => ?_, fun pat f h arg => ?_, decode_rowB_iff cmd, decode_rowT_iff cmd⟩
  · simp only [List.mem_cons, Prod.mk.injEq, List.not_mem_nil, or_false] at h
    have hm : rowZ pat i ∈ rows ∧ encode i = pat := by
      rcases h with ⟨rfl, rfl⟩ | ⟨rfl, rfl⟩ | ⟨rfl, rfl⟩ | ⟨rfl, rfl⟩ | ⟨rfl, rfl⟩ | ⟨rfl, rfl⟩ | ⟨rfl, rfl⟩ | ⟨rfl, rfl⟩ |
        ⟨rfl, rfl⟩ | ⟨rfl, rfl⟩ <;> exact ⟨by simp [rows], rfl⟩
    exact decode_rowZ_iff hm.1 hm.2 cmd
  · simp only [List.mem_cons, Prod.mk.injEq, List.not_mem_nil, or_false] at h
    rcases h with ⟨rfl, rfl⟩ | ⟨rfl, rfl⟩ | ⟨rfl, rfl⟩ | ⟨rfl, rfl⟩ | ⟨rfl, rfl⟩ | ⟨rfl, rfl⟩
    · exact isRowS_csrRd.decode_iff cmd arg
    · exact isRowS_flFreq.decode_iff cmd arg
    · exact isRowS_flCumlo.decode_iff cmd arg
    · exact isRowS_flCumhi.decode_iff cmd arg
    · exact isRowS_flFind.decode_iff cmd arg
    · exact isRowS_encSym.decode_iff cmd arg

end Sys2Proof
end

section
/-! THE ILLEGAL WORDS (30_encoding.md R99) and the step on a word (R102). -/

namespace Sys2Proof

/-! ## The words of the commands -/

/-- The opcode bytes of format Z (R91, R95). -/
def opcodesZ : List Nat := [0x00, 0x01, 0x23, 0x31, 0x38, 0x40, 0x42, 0x50, 0x51, 0x52]

/-- The opcode bytes of format S (R92, R95). -/
def opcodesS : List Nat := [0x02, 0x20, 0x21, 0x22, 0x24, 0x41]

/-- The words of format Z: a listed opcode byte, then zero bits (R91). -/
def LegalZ (w : Word) : Prop := w.toNat / 2 ^ 24 ∈ opcodesZ ∧ w.toNat % 2 ^ 24 = 0

/-- The words of format S: a listed opcode byte, then ten zero bits (R92). -/
def LegalS (w : Word) : Prop := w.toNat / 2 ^ 24 ∈ opcodesS ∧ w.toNat / 2 ^ 14 % 2 ^ 10 = 0

/-- The words of format B: the opcode byte, then 23 zero bits (R93). -/
def LegalB (w : Word) : Prop := w.toNat / 2 ^ 24 = 0x30 ∧ w.toNat / 2 % 2 ^ 23 = 0

/-- The words of format T: the nibble 1 (R94). -/
def LegalT (w : Word) : Prop := 0x10 ≤ w.toNat / 2 ^ 24 ∧ w.toNat / 2 ^ 24 ≤ 0x1F

/-- The words of the opcode map (R95). -/
def LegalWord (w : Word) : Prop := LegalZ w ∨ LegalS w ∨ LegalB w ∨ LegalT w

theorem legalWord_encodeZ {op : BitVec 8} (h : op.toNat ∈ opcodesZ) : LegalWord (encodeZ op) := by
  refine Or.inl ⟨?_, by rw [encodeZ_toNat]; omega⟩
  rwa [encodeZ_toNat, Nat.mul_div_cancel _ (Nat.two_pow_pos 24)]

theorem legalWord_encodeS {op : BitVec 8} (h : op.toNat ∈ opcodesS) (arg : Nat) :
    LegalWord (encodeS op arg) := by
  have hop : (encodeS op arg).toNat / 2 ^ 24 = op.toNat := by rw [encodeS_toNat]; omega
  exact Or.inr (Or.inl ⟨hop ▸ h, by rw [encodeS_toNat]; omega⟩)

theorem legalWord_encodeB (b : Bool) : LegalWord (encodeB 0x30#8 b) :=
  Or.inr (Or.inr (Or.inl (by cases b <;> exact ⟨rfl, rfl⟩)))

theorem legalWord_encodeT (idx : Nat) (w : Weight) : LegalWord (encodeT idx w) := by
  have hw := w.isLt
  refine Or.inr (Or.inr (Or.inr ⟨?_, ?_⟩)) <;> rw [encodeT_toNat] <;> omega

/-- Every command's word is one of the opcode map. -/
theorem legalWord_encode (i : Instr) : LegalWord (encode i) := by
  cases i with
  | nop | srst | flTotal | txClose | rxGet | encInit | encFin | decInit | decSym | decEnd =>
    exact legalWord_encodeZ (by decide)
  | csrRd a | flFreq a | flCumlo a | flCumhi a | flFind a | encSym a => exact legalWord_encodeS (by decide) a
  | txPut b => exact legalWord_encodeB b
  | tblWr idx w => exact legalWord_encodeT idx w

theorem encodeZ_of_opcode {op : BitVec 8} {w : Word} (h : w.toNat / 2 ^ 24 = op.toNat) (hz : w.toNat % 2 ^ 24 = 0) :
    encodeZ op = w := by
  refine BitVec.eq_of_toNat_eq ?_
  rw [encodeZ_toNat]
  omega

theorem encodeS_of_opcode {op : BitVec 8} {w : Word} (h : w.toNat / 2 ^ 24 = op.toNat)
    (hz : w.toNat / 2 ^ 14 % 2 ^ 10 = 0) : encodeS op (fieldArg w) = w := by
  refine BitVec.eq_of_toNat_eq ?_
  rw [encodeS_toNat, fieldArg_eq]
  omega

theorem encodeB_of_opcode {op : BitVec 8} {w : Word} (h : w.toNat / 2 ^ 24 = op.toNat)
    (hz : w.toNat / 2 % 2 ^ 23 = 0) : encodeB op (fieldBit w) = w := by
  refine BitVec.eq_of_toNat_eq ?_
  rw [encodeB_toNat, fieldBit_toNat]
  omega

theorem encodeT_of_nibble {w : Word} (h : w.toNat / 2 ^ 28 = 1) : encodeT (fieldArg w) (fieldWeight w) = w := by
  refine BitVec.eq_of_toNat_eq ?_
  rw [encodeT_toNat, fieldArg_eq, fieldWeight_toNat]
  omega

/-- Every word of the opcode map is a command's. -/
theorem LegalWord.exists_encode {w : Word} (h : LegalWord w) : ∃ i : Instr, i.wellFormed = true ∧ encode i = w := by
  rcases h with ⟨hop, hz⟩ | ⟨hop, hz⟩ | ⟨hop, hz⟩ | ⟨hlo, hhi⟩
  · simp only [opcodesZ, List.mem_cons, List.not_mem_nil, or_false] at hop
    rcases hop with h | h | h | h | h | h | h | h | h | h
    · exact ⟨.nop, rfl, encodeZ_of_opcode h hz⟩
    · exact ⟨.srst, rfl, encodeZ_of_opcode h hz⟩
    · exact ⟨.flTotal, rfl, encodeZ_of_opcode h hz⟩
    · exact ⟨.txClose, rfl, encodeZ_of_opcode h hz⟩
    · exact ⟨.rxGet, rfl, encodeZ_of_opcode h hz⟩
    · exact ⟨.encInit, rfl, encodeZ_of_opcode h hz⟩
    · exact ⟨.encFin, rfl, encodeZ_of_opcode h hz⟩
    · exact ⟨.decInit, rfl, encodeZ_of_opcode h hz⟩
    · exact ⟨.decSym, rfl, encodeZ_of_opcode h hz⟩
    · exact ⟨.decEnd, rfl, encodeZ_of_opcode h hz⟩
  · simp only [opcodesS, List.mem_cons, List.not_mem_nil, or_false] at hop
    rcases hop with h | h | h | h | h | h
    · exact ⟨.csrRd (fieldArg w), fieldArg_fits w, encodeS_of_opcode h hz⟩
    · exact ⟨.flFreq (fieldArg w), fieldArg_fits w, encodeS_of_opcode h hz⟩
    · exact ⟨.flCumlo (fieldArg w), fieldArg_fits w, encodeS_of_opcode h hz⟩
    · exact ⟨.flCumhi (fieldArg w), fieldArg_fits w, encodeS_of_opcode h hz⟩
    · exact ⟨.flFind (fieldArg w), fieldArg_fits w, encodeS_of_opcode h hz⟩
    · exact ⟨.encSym (fieldArg w), fieldArg_fits w, encodeS_of_opcode h hz⟩
  · exact ⟨.txPut (fieldBit w), rfl, encodeB_of_opcode hop hz⟩
  · exact ⟨.tblWr (fieldArg w) (fieldWeight w), fieldArg_fits w, encodeT_of_nibble (by omega)⟩

/-- A word is a command exactly when it is a word of the opcode map (R99). -/
theorem decodes_iff_legalWord (w : Word) : (∃ i, decode w = .ok i) ↔ LegalWord w := by
  constructor
  · rintro ⟨i, hi⟩
    rw [← (decodedWordIsItsEncoding w i hi).2]
    exact legalWord_encode i
  · intro h
    obtain ⟨i, hw, rfl⟩ := h.exists_encode
    exact ⟨i, decodeInvertsEncode i hw⟩

/-! ## The other words (R99) -/

/-- The opcode bytes outside the map (R99). -/
def ReservedOpcode (op : Nat) : Prop :=
  (0x03 ≤ op ∧ op ≤ 0x0F) ∨ (0x25 ≤ op ∧ op ≤ 0x2F) ∨ (0x32 ≤ op ∧ op ≤ 0x37) ∨ (0x39 ≤ op ∧ op ≤ 0x3F) ∨
  (0x43 ≤ op ∧ op ≤ 0x4F) ∨ (0x53 ≤ op ∧ op ≤ 0xFF)

/-- The words R99 lists: a reserved opcode byte, or a must-be-zero bit that is set. -/
def IllegalWord (w : Word) : Prop :=
  ReservedOpcode (w.toNat / 2 ^ 24) ∨
  (w.toNat / 2 ^ 24 ∈ opcodesZ ∧ w.toNat % 2 ^ 24 ≠ 0) ∨
  (w.toNat / 2 ^ 24 ∈ opcodesS ∧ w.toNat / 2 ^ 14 % 2 ^ 10 ≠ 0) ∨
  (w.toNat / 2 ^ 24 = 0x30 ∧ w.toNat / 2 % 2 ^ 23 ≠ 0)

/-- Every opcode byte is reserved or listed in one of the four formats (R95, R99). -/
theorem opcode_reserved_or_listed {op : Nat} (h : op < 256) :
    ReservedOpcode op ∨ op ∈ opcodesZ ∨ op ∈ opcodesS ∨ op = 0x30 ∨ (0x10 ≤ op ∧ op ≤ 0x1F) := by
  simp only [ReservedOpcode, opcodesZ, opcodesS, List.mem_cons, List.not_mem_nil, or_false]
  omega

/-- The list of R99 and the opcode map share no word. -/
theorem IllegalWord.not_legal {w : Word} (h : IllegalWord w) : ¬ LegalWord w := by
  simp only [IllegalWord, ReservedOpcode, LegalWord, LegalZ, LegalS, LegalB, LegalT, opcodesZ, opcodesS, List.mem_cons,
    List.not_mem_nil, or_false] at h ⊢
  omega

/-- The list of R99 is complete: with a listed opcode byte, the must-be-zero bits decide. -/
theorem legal_or_illegal (w : Word) : LegalWord w ∨ IllegalWord w := by
  rcases opcode_reserved_or_listed (op := w.toNat / 2 ^ 24) (Nat.div_lt_of_lt_mul w.isLt) with hr | hz | hs | hb | ht
  · exact Or.inr (Or.inl hr)
  · by_cases h0 : w.toNat % 2 ^ 24 = 0
    · exact Or.inl (Or.inl ⟨hz, h0⟩)
    · exact Or.inr (Or.inr (Or.inl ⟨hz, h0⟩))
  · by_cases h0 : w.toNat / 2 ^ 14 % 2 ^ 10 = 0
    · exact Or.inl (Or.inr (Or.inl ⟨hs, h0⟩))
    · exact Or.inr (Or.inr (Or.inr (Or.inl ⟨hs, h0⟩)))
  · by_cases h0 : w.toNat / 2 % 2 ^ 23 = 0
    · exact Or.inl (Or.inr (Or.inr (Or.inl ⟨hb, h0⟩)))
    · exact Or.inr (Or.inr (Or.inr (Or.inr ⟨hb, h0⟩)))
  · exact Or.inl (Or.inr (Or.inr (Or.inr ht)))

end Sys2Proof

namespace Sys2Proof.Machine

/-- Settles O5: the words R99 lists are those outside the opcode map, which are those that do not decode. -/
theorem illegalWordsRaiseIllegalCmd : Obligations.IllegalWordsRaiseIllegalCmd := by
  intro w op illegal
  have hiff : illegal ↔ IllegalWord w := by
    simp only [illegal, IllegalWord, ReservedOpcode, or_assoc]
    rfl
  refine ⟨fun hill s rest hq hf hh => ?_, fun hleg => ?_⟩
  · cases hd : decode w with
    | ok i => exact absurd ((decodes_iff_legalWord w).1 ⟨i, hd⟩) (hiff.1 hill).not_legal
    | error e =>
      rw [step_cmd hq hh, executeWord_error hd, if_neg]
      exact ne_of_eq_of_ne hf Bool.false_ne_true
  · exact (decodes_iff_legalWord w).2 ((legal_or_illegal w).resolve_right (mt hiff.2 hleg))

/-- Settles O6: the step takes the word off the queue and executes it. -/
theorem stepExecutesThePresentedCommand : Obligations.StepExecutesThePresentedCommand := fun _ _ _ _ hq hh hd =>
  (step_cmd hq hh).trans (executeWord_ok hd _)

end Sys2Proof.Machine
end

section
/-! ONE RESPONSE PER COMMAND (30_encoding.md R97), by the ways a word can end. -/

namespace Sys2Proof.Machine

variable {s t u : State} {w : Word}

/-- From `s` to `t` the word `w` was answered by exactly one response, of the kinds R97 gives. -/
structure Answered (w : Word) (s t : State) (r : Response) : Prop where
  appended : t.rsps = s.rsps ++ [r]
  code : r.code.toNat ≤ 7 ∨ r.code = 0xF#4
  data : r.code ≠ 0#4 → r.data = 0#32
  cause : r.code ≠ 0#4 → r.code ≠ 0xF#4 → s.faulted = false ∧ t.faultCause = r.code ∧ t.faultCmd = w
  refused : r.code = 0xF#4 → s.faulted = true ∧ t = s.answered 0xF 0

/-- The answer `OK` (R97). -/
theorem Answered.ok (hu : u.rsps = s.rsps) (d : Nat) : Answered w s (u.answered 0 d) ⟨0#4, BitVec.ofNat 32 d⟩ where
  appended := congrArg (· ++ _) hu
  code := Or.inl (Nat.zero_le 7)
  data h := absurd rfl h
  cause h := absurd rfl h
  refused h := absurd (show 0#4 = 0xF#4 from h) (by decide)

/-- The answer of a command that raised a fault (R231). -/
theorem Answered.fault (c : Cause) (hf : s.faulted = false) (hu : u.rsps = s.rsps) :
    Answered w s (u.latched c.code.toNat w) ⟨c.code, 0#32⟩ where
  appended := by rw [State.latched, hu, c.ofNat_code]
  code := Or.inl c.code_range.2
  data _ := rfl
  cause _ _ := ⟨hf, c.ofNat_code, rfl⟩
  refused h := absurd c.code_range.2 (by rw [show c.code = 0xF#4 from h]; decide)

/-- The answer `FAULTED` (R229). -/
theorem Answered.faulted (hf : s.faulted = true) : Answered w s (s.answered 0xF 0) ⟨0xF#4, 0#32⟩ where
  appended := rfl
  code := Or.inr rfl
  data _ := rfl
  cause _ h := absurd rfl h
  refused _ := ⟨hf, rfl⟩

/-- However a command ends, it is answered once. -/
theorem Ended.answered {i : Instr} (h : Ended i s t) : ∃ r, Answered (encode i) s t r := by
  cases h with
  | refused hf _ ht => rw [ht]; exact ⟨_, .faulted hf⟩
  | raised c hf _ ht => rw [ht]; exact ⟨_, .fault c hf rfl⟩
  | overflowed sym u _ hf _ _ _ _ hu ht =>
    have hr := ((setEncInterval_wrote s _).trans (encRenorm_wrote _ (Or.inr hu))).side.kept.rsps
    rw [ht]
    exact ⟨_, .fault .pendingOverflow hf hr⟩
  | done u d _ hu ht => rw [ht]; exact ⟨_, .ok hu.kept.rsps d⟩

theorem executeWord_answered (h : executeWord w s = .next t) : ∃ r, Answered w s t r := by
  rcases executeWord_ended h with ⟨i, hd, hi⟩ | ⟨e, -, ⟨hf, rfl⟩ | ⟨hf, rfl⟩⟩
  · exact (decodedWordIsItsEncoding w i hd).2 ▸ hi.answered
  · exact ⟨_, .faulted hf⟩
  · exact ⟨_, .fault .illegalCmd hf rfl⟩

/-- Settles O9: the step executes the word, and every way that can end gives one response. -/
theorem oneResponsePerCommand : Obligations.OneResponsePerCommand := by
  intro s t w rest hq hh h
  obtain ⟨r, hr, hcode, hdata, hcause, hrefused⟩ := executeWord_answered ((step_cmd hq hh).symm.trans h)
  exact ⟨r, hr, hcode, hdata, hcause, hrefused⟩

end Sys2Proof.Machine
end

section
/-! THE STEP NEVER STOPS in a state that meets the invariant (30_encoding.md R102, 10_state.md R57). -/

namespace Sys2Proof.Machine

variable {s : State}

/-! ## Each stage of a command gives a next state when its body does -/

theorem issue_next {i : Instr} {body : State → Result}
    (hb : s.faulted = false → sessionOk i s = true → ∃ t, body s = .next t) : ∃ t, issue i s body = .next t := by
  rcases issue_cases (rfl : issue i s body = _) with ⟨-, hr⟩ | ⟨-, -, hr⟩ | ⟨hf, ho, hr⟩
  · exact ⟨_, hr⟩
  · exact ⟨_, hr⟩
  · exact hr ▸ hb hf ho

theorem checkIndex_next {cmd : Word} {k : Nat} {body : State → Result} (hb : ∃ t, body s = .next t) :
    ∃ t, checkIndex cmd k body s = .next t := by
  rw [checkIndex]
  split
  · exact hb
  · exact ⟨_, rfl⟩

theorem modelCheck_next {cmd : Word} {body : State → Result} (hb : ∃ t, body s = .next t) :
    ∃ t, modelCheck cmd s body = .next t := by
  rw [modelCheck]
  split
  · exact ⟨_, rfl⟩
  · split
    · exact ⟨_, rfl⟩
    · exact hb

theorem deliver_next (s : State) (sym : Nat) : ∃ t, s.deliver sym = .next t := by
  rw [State.deliver]
  split <;> exact ⟨_, rfl⟩

/-! ## The domains of `Narrow` and `Scaled` (R160, R190) -/

/-- An interval in order to which no renormalization case applies is wider than every legal total (R169). -/
theorem narrowDefined_of_settled {iv : Interval} (ho : iv.low ≤ iv.high) (hn : iv.scaling = none)
    (ht : 1 ≤ s.total ∧ s.total < Config.QUARTER) : s.narrowDefined iv = true := by
  have hr := Interval.range_of_settled hn
  exact narrowDefined_iff.2 ⟨ho, ht.1, by omega⟩

theorem Inv.narrowDefined (h : Inv s) (hf : s.faulted = false) (ha : s.encActive = true) :
    s.narrowDefined s.encInterval = true :=
  narrowDefined_of_settled h.encOrdered (h.encSettled ha hf) (h.totalLegal (Or.inl ha))

theorem Inv.scaledDefined (h : Inv s) (hf : s.faulted = false) (ha : s.decActive = true) :
    s.scaledDefined s.decInterval s.decValue.toNat = true := by
  have hn : s.narrowDefined s.decInterval = true :=
    narrowDefined_of_settled h.decOrdered (h.decSettled ha hf) (h.totalLegal (Or.inr ha))
  obtain ⟨hlo, hhi⟩ := h.decWithin (Or.inl ha)
  simp only [State.scaledDefined, hn, Bool.true_and, Bool.and_eq_true, decide_eq_true_eq]
  exact ⟨hlo, hhi⟩

/-- The scaled value is below the total, so `Find` has a symbol for it (R193, R195). -/
theorem Inv.decodedSymbol_defined (h : Inv s) (ha : s.decActive = true) : ∃ sym, s.decodedSymbol = some sym := by
  obtain ⟨hlo, hhi⟩ := h.decWithin (Or.inl ha)
  exact State.findSymbol_of_lt (Interval.scaled_lt (h.totalLegal (Or.inr ha)).1 hlo hhi)

/-! ## Commands, words, events -/

theorem execEncSym_next (h : Inv s) (sym : Nat) : ∃ t, execEncSym sym s = .next t := by
  refine issue_next fun hf ha => ?_
  rw [h.narrowDefined hf ha]
  split
  · exact ⟨_, rfl⟩
  · cases hr : encRenorm Config.P (s.setEncInterval (s.narrowFor s.encInterval sym)) with
    | settled t => exact ⟨_, rfl⟩
    | overflowed t => exact ⟨_, rfl⟩

theorem execDecSym_next (h : Inv s) : ∃ t, execDecSym s = .next t := by
  refine issue_next fun hf ha => ?_
  obtain ⟨sym, hsym⟩ := h.decodedSymbol_defined ha
  rw [h.scaledDefined hf ha, hsym]
  exact deliver_next _ sym

theorem exec_next (h : Inv s) (i : Instr) : ∃ t, exec i s = .next t := by
  cases i with
  | srst => exact ⟨_, rfl⟩
  | csrRd addr =>
    cases hc : csrAt addr with
    | some c => exact ⟨_, exec_csrRd hc s⟩
    | none =>
      rw [exec_csrRd_undefined hc]
      exact issue_next fun _ _ => ⟨_, rfl⟩
  | nop => rw [exec, execNop]; exact issue_next fun _ _ => ⟨_, rfl⟩
  | tblWr idx w => rw [exec, execTblWr]; exact issue_next fun _ _ => checkIndex_next ⟨_, rfl⟩
  | flFreq sym => rw [exec, execFlFreq]; exact issue_next fun _ _ => checkIndex_next ⟨_, rfl⟩
  | flCumlo sym => rw [exec, execFlCumlo]; exact issue_next fun _ _ => checkIndex_next ⟨_, rfl⟩
  | flCumhi sym => rw [exec, execFlCumhi]; exact issue_next fun _ _ => checkIndex_next ⟨_, rfl⟩
  | flTotal => rw [exec, execFlTotal]; exact issue_next fun _ _ => ⟨_, rfl⟩
  | flFind x =>
    rw [exec, execFlFind]
    refine issue_next fun _ _ => ?_
    cases s.findSymbol x with
    | some sym => exact ⟨_, rfl⟩
    | none => exact ⟨_, rfl⟩
  | txPut b => rw [exec, execTxPut]; exact issue_next fun _ _ => ⟨_, rfl⟩
  | txClose => rw [exec, execTxClose]; exact issue_next fun _ _ => ⟨_, rfl⟩
  | rxGet => rw [exec, execRxGet]; exact issue_next fun _ _ => ⟨_, rfl⟩
  | encInit => rw [exec, execEncInit]; exact issue_next fun _ _ => modelCheck_next ⟨_, rfl⟩
  | encSym sym => exact execEncSym_next h sym
  | encFin =>
    rw [exec, execEncFin]
    refine issue_next fun _ _ => ?_
    split <;> exact ⟨_, rfl⟩
  | decInit => rw [exec, execDecInit]; exact issue_next fun _ _ => modelCheck_next ⟨_, rfl⟩
  | decSym => exact execDecSym_next h
  | decEnd => rw [exec, execDecEnd]; exact issue_next fun _ _ => ⟨_, rfl⟩

theorem executeWord_next (h : Inv s) (w : Word) : ∃ t, executeWord w s = .next t := by
  cases hd : decode w with
  | ok i => rw [executeWord_ok hd]; exact exec_next h i
  | error e =>
    rw [executeWord_error hd]
    split <;> exact ⟨_, rfl⟩

theorem stallWord_next (h : Inv s) (w : Word) (k : Nat) : ∃ t, stallWord w k s = .next t := by
  obtain ⟨t, ht⟩ := executeWord_next h w
  rw [stallWord, ht]
  exact ⟨_, rfl⟩

theorem abandonWord_next (h : Inv s) (w : Word) (k : Nat) : ∃ t, abandonWord w k s = .next t := by
  obtain ⟨t, ht⟩ := stallWord_next h w k
  rw [abandonWord, ht]
  exact ⟨_, rfl⟩

theorem handleEvent_next (h : Inv s) (e : HostEvent) : ∃ t, handleEvent e s = .next t := by
  rw [handleEvent]
  split
  · cases e with
    | cmd w => exact executeWord_next h w
    | rst => exact ⟨_, rfl⟩
    | rstDuring w k => exact abandonWord_next h w k
    | stall w k => exact stallWord_next h w k
  · cases e <;> exact ⟨_, rfl⟩

/-- Settles O43: the invariant does not speak of the queue, and every event it holds has a next state. -/
theorem stepNeverStops : Obligations.StepNeverStops := by
  intro s h
  cases hh : s.host with
  | nil => exact ⟨s, step_idle hh⟩
  | cons e rest =>
    rw [step_event hh]
    exact handleEvent_next (h.environment s.out h.inputInRange s.rsps s.inProgress rest) e

end Sys2Proof.Machine
end

section
/-! THE FREQUENCY LOOKUP (40_frequency_lookup.md R120 to R132): the sums, `Find`, and the commands that write and query
the table. -/

namespace Sys2Proof.Machine

variable {s : State}

/-! ## The sums and `Find` (R120, R124) -/

/-- `Cum` as R120 writes it. -/
theorem State.cum_eq_sum (hm : Memory.wf s.freq = true) (i : Nat) :
    s.cum i = ((List.range i).map fun j => (s.weight j).toNat).sum := by
  induction i with
  | zero => exact Memory.cum_zero s.freq
  | succ i ih =>
    rw [List.range_succ, List.map_append, List.sum_append, ← ih]
    exact Memory.cum_succ hm i

theorem State.cum_succ (hm : Memory.wf s.freq = true) (i : Nat) :
    s.cum (i + 1) = s.cum i + (s.weight i).toNat :=
  Memory.cum_succ hm i

/-- Settles O16: each sum adds one weight to the one below, and fourteen-bit weights of at most `2^14` symbols stay
below `2^28`. -/
theorem cumulativeCountsArePrefixSums : Obligations.CumulativeCountsArePrefixSums := by
  intro s hm
  refine ⟨State.cum_eq_sum hm, fun i => ?_, rfl, State.cum_lt hm (Nat.le_refl _)⟩
  have hstep := State.cum_succ hm i
  omega

/-- The symbol whose cumulative interval contains `x` is the largest whose interval starts at or below `x`. -/
theorem State.le_of_cum_le {x a sym : Nat} (hx : x < s.cum (sym + 1)) (ha : s.cum a ≤ x) : a ≤ sym := by
  by_contra hlt
  have hmono : s.cum (sym + 1) ≤ s.cum a := Memory.cum_mono s.freq (by omega)
  omega

theorem State.findSymbol_of_total_le {x : Nat} (hx : s.total ≤ x) : s.findSymbol x = none :=
  if_neg (Nat.not_lt.2 hx)

/-- Settles O17: the walk of the table finds a symbol below `Total()`, and cumulative intervals are disjoint and in
order. -/
theorem findIsTheUniqueSymbol : Obligations.FindIsTheUniqueSymbol := by
  intro s hm hin
  refine ⟨fun x hx => ?_, fun x hx => ⟨State.findSymbol_of_total_le hx, fun a ha => ?_⟩⟩
  · obtain ⟨sym, hfind⟩ := State.findSymbol_of_lt hx
    obtain ⟨hle, hlo, hhi, -, -⟩ := State.findSymbol_spec hm hin hfind
    have hstep := State.cum_succ hm sym
    exact ⟨sym, hfind, hle, hlo, hhi, by omega, fun a ha ha' => Memory.cum_interval_unique ha ha' hlo hhi,
      fun a _ ha => State.le_of_cum_le hhi ha⟩
  · exact (Memory.cum_mono s.freq (Nat.succ_le_succ ha)).trans hx

/-! ## The commands that check an index (R127 to R130) -/

theorem State.indexLegal_iff {k : Nat} : s.indexLegal k = true ↔ k ≤ s.eosSym := decide_eq_true_iff

section
variable {i : Instr} {k : Nat} {body : State → Result}

theorem issue_checkIndex_legal (hf : s.faulted = false) (ho : sessionOk i s = true) (hk : k ≤ s.eosSym) :
    issue i s (checkIndex (encode i) k body) = body s := by
  rw [issue_ok hf ho, checkIndex, if_pos (State.indexLegal_iff.2 hk)]

theorem issue_checkIndex_illegal (hf : s.faulted = false) (ho : sessionOk i s = true) (hk : s.eosSym < k) :
    issue i s (checkIndex (encode i) k body) = .next (s.latched 7 (encode i)) := by
  rw [issue_ok hf ho, checkIndex, if_neg (mt State.indexLegal_iff.1 (Nat.not_le.2 hk)), raise_eq]
  rfl

end

theorem sessionOk_tblWr_iff {idx : Nat} {w : Weight} :
    sessionOk (.tblWr idx w) s = true ↔ s.encActive = false ∧ s.decActive = false := by
  simp [sessionOk]

theorem exec_tblWr_legal {idx : Nat} (w : Weight) (hf : s.faulted = false) (he : s.encActive = false)
    (hd : s.decActive = false) (hi : idx ≤ s.eosSym) :
    exec (.tblWr idx w) s = .next ((s.setWeight idx w).answered 0 0) :=
  issue_checkIndex_legal hf (sessionOk_tblWr_iff.2 ⟨he, hd⟩) hi

/-- Writing the weight an entry already has leaves the table as it is (R127). -/
theorem Memory.write_read {m : Memory} (hm : Memory.wf m = true) (i : Nat) : Memory.write m i (Memory.read m i) = m := by
  refine Memory.ext (Memory.wf_write hm i _) hm fun j => ?_
  by_cases hj : j = i
  · rw [hj, Memory.read_write_self hm]
  · exact Memory.read_write_other hj _

/-- Settles O18: the legal write is `setWeight` and an answer, by the laws of read after write; the session is checked
before the index. -/
theorem tableWriteStoresOneWeight : Obligations.TableWriteStoresOneWeight := by
  intro s idx w hf hm
  refine ⟨fun he hd hi => ?_, fun ho => exec_badState hf ?_, fun he hd hi => ?_⟩
  · refine ⟨_, exec_tblWr_legal w hf he hd hi, rfl, Memory.read_write_self hm idx w,
      fun j hj => Memory.read_write_other hj w, Memory.wf_write hm idx w, ?_⟩
    rintro rfl
    exact Memory.write_read hm idx
  · rcases ho with he | hd
    · simp [sessionOk, he]
    · simp [sessionOk, hd]
  · exact issue_checkIndex_illegal hf (sessionOk_tblWr_iff.2 ⟨he, hd⟩) hi

/-- Settles O19: the queries need no session, and what they answer is the weight and the sums of R120. -/
theorem tableQueriesAnswer : Obligations.TableQueriesAnswer := by
  intro s hf hm sumBelow
  have hsum : ∀ i, sumBelow i = s.cum i := fun i => (State.cum_eq_sum hm i).symm
  simp only [hsum]
  refine ⟨fun sym hs => ?_, fun sym hs => ?_, issue_ok hf rfl⟩
  · exact ⟨issue_checkIndex_legal hf rfl hs, issue_checkIndex_legal hf rfl hs, issue_checkIndex_legal hf rfl hs,
      State.cum_lt hm (Nat.succ_le_succ hs)⟩
  · exact ⟨issue_checkIndex_illegal hf rfl hs, issue_checkIndex_illegal hf rfl hs, issue_checkIndex_illegal hf rfl hs⟩

/-! ## `FL_FIND` (R132) -/

theorem exec_flFind_of_some {x sym : Nat} (hf : s.faulted = false) (h : s.findSymbol x = some sym) :
    exec (.flFind x) s = .next (s.answered 0 sym) := by
  rw [exec, execFlFind, issue_ok hf rfl, h]
  rfl

theorem exec_flFind_of_none {x : Nat} (hf : s.faulted = false) (h : s.findSymbol x = none) :
    exec (.flFind x) s = .next (s.latched 7 (encode (.flFind x))) := by
  rw [exec, execFlFind, issue_ok hf rfl, h]
  rfl

/-- Settles O20: the command answers what `Find` gives, and raises the fault where `Find` is not defined. -/
theorem findCommandAnswers : Obligations.FindCommandAnswers := by
  intro s x hf hm hin
  refine ⟨fun hx => ?_, fun hx => exec_flFind_of_none hf (State.findSymbol_of_total_le hx)⟩
  obtain ⟨sym, hfind⟩ := State.findSymbol_of_lt hx
  obtain ⟨hle, hlo, hhi, hw, -⟩ := State.findSymbol_spec hm hin hfind
  exact ⟨sym, exec_flFind_of_some hf hfind, hle, hlo, hhi, hw⟩

end Sys2Proof.Machine
end

section
/-! THE BIT BUFFER COMMANDS (41_bit_buffers.md R140 to R145): what `TX_PUT`, `TX_CLOSE` and `RX_GET` answer and change. -/

namespace Sys2Proof.Machine

variable {s : State}

/-! ## The commands complete (R143 to R145) -/

theorem sessionOk_txPut_iff {b : Bool} : sessionOk (.txPut b) s = true ↔ s.encActive = false := by simp [sessionOk]

theorem sessionOk_txClose_iff : sessionOk .txClose s = true ↔ s.encActive = false := by simp [sessionOk]

theorem sessionOk_rxGet_iff : sessionOk .rxGet s = true ↔ s.decActive = false := by simp [sessionOk]

theorem bitNat_eq_toNat (b : Bool) : bitNat b = b.toNat := by cases b <;> rfl

theorem exec_txPut_closed (hf : s.faulted = false) (he : s.encActive = false) (b : Bool) :
    exec (.txPut b) s = .next ((s.putBit b).answered 0 0) := by
  rw [exec, execTxPut, issue_ok hf (sessionOk_txPut_iff.2 he)]
  rfl

theorem exec_txClose_closed (hf : s.faulted = false) (he : s.encActive = false) :
    exec .txClose s = .next (s.closeTx.answered 0 0) := by
  rw [exec, execTxClose, issue_ok hf (sessionOk_txClose_iff.2 he)]
  rfl

theorem exec_rxGet_closed (hf : s.faulted = false) (hd : s.decActive = false) :
    exec .rxGet s = .next (s.getBit.2.answered 0 s.getBit.1.toNat) := by
  rw [exec, execRxGet, issue_ok hf (sessionOk_rxGet_iff.2 hd), bitNat_eq_toNat]
  rfl

/-! ## Sending bits (R140, R141) -/

/-- Below the eighth bit the buffer fills by one and nothing is sent (R140). -/
theorem putBit_below_eighth (h : s.txFill.toNat < 7) (b : Bool) :
    (s.putBit b).txFill.toNat = s.txFill.toNat + 1 ∧ (s.putBit b).out = s.out := by
  have h7 : s.txFill ≠ 7#3 := fun h' => absurd (congrArg BitVec.toNat h') (Nat.ne_of_lt h)
  rw [putBit_lt h7]
  exact ⟨fill_succ h7, rfl⟩

/-- The eighth bit sends one byte and empties the buffer (R140). -/
theorem putBit_eighth (h : s.txFill.toNat = 7) (b : Bool) :
    (s.putBit b).txFill = 0#3 ∧ (s.putBit b).txBuf = 0#8 ∧ ∃ v, (s.putBit b).out = s.out ++ [v] := by
  rw [putBit_last (BitVec.eq_of_toNat_eq h)]
  exact ⟨rfl, rfl, _, rfl⟩

theorem closeTx_out_of_empty (h : s.txFill = 0#3) : s.closeTx.out = s.out := by
  rw [State.closeTx, if_pos h]
  rfl

/-- Settles O21: the command is `PutBit` and an answer, and the eighth bit is told from the seven before it. -/
theorem txPutAppendsTheBit : Obligations.TxPutAppendsTheBit := by
  intro s b hf
  refine ⟨fun he hclean => ?_, fun he => exec_badState hf ?_⟩
  · obtain ⟨hsent, hclean'⟩ := putBit_spec hclean b
    exact ⟨_, exec_txPut_closed hf he b, congrArg (·.answered 0 0) (putBit_frame s b), hsent, hclean',
      (putBit_below_eighth · b), (putBit_eighth · b)⟩
  · simp [sessionOk, he]

/-- Settles O22: the command is `CloseTx` and an answer. -/
theorem txCloseAlignsTheStream : Obligations.TxCloseAlignsTheStream := by
  intro s hf
  refine ⟨fun he hclean => ?_, fun he => exec_badState hf ?_⟩
  · exact ⟨_, exec_txClose_closed hf he, congrArg (·.answered 0 0) (closeTx_frame s), closeTx_spec hclean,
      closeTx_out_of_empty⟩
  · simp [sessionOk, he]

/-! ## Taking a bit (R142) -/

theorem getBit_took (hclean : s.RxClean) : Took 1 s s.getBit.2 := .succ hclean (.zero _)

theorem rxCnt_eq_zero_iff : s.rxCnt = 0#4 ↔ s.rxCnt.toNat = 0 := BitVec.toNat_inj.symm

/-- A byte is fetched exactly when the buffer is empty and the input has one (R142). -/
theorem getBit_inPos_eq (hclean : s.RxClean) :
    s.getBit.2.inPos =
      if s.rxCnt = 0#4 ∧ s.rxEnd = false ∧ s.inPos < s.inp.length then s.inPos + 1 else s.inPos := by
  simp only [(getBit_took hclean).pos, rxCnt_eq_zero_iff]
  cases s.rxEnd with
  | true => simp
  | false =>
    simp only [true_and, Bool.false_eq_true, if_false]
    split <;> omega

/-- `rx_end` is set exactly when a bit is wanted and neither the buffer nor the input has one (R142). -/
theorem getBit_rxEnd_iff (hclean : s.RxClean) :
    s.getBit.2.rxEnd = true ↔ s.rxEnd = true ∨ (s.rxCnt = 0#4 ∧ s.inp.length ≤ s.inPos) := by
  rw [(getBit_took hclean).atEnd, waitingBits_length hclean.1, rxCnt_eq_zero_iff]
  cases s.rxEnd with
  | true => simp
  | false =>
    simp only [Bool.false_eq_true, if_false, false_or]
    omega

/-- Settles O23: the command is `GetBit` and an answer, and one bit is the case `n = 1` of how far reading moves. -/
theorem rxGetDeliversTheNextBit : Obligations.RxGetDeliversTheNextBit := by
  intro s hf
  refine ⟨fun hd hcnt hbuf => ?_, fun hd => exec_badState hf ?_⟩
  · have hclean : s.RxClean := ⟨hcnt, hbuf⟩
    obtain ⟨hbit, hrest, hcnt', hbuf'⟩ := getBit_spec hclean
    refine ⟨_, exec_rxGet_closed hf hd, ?_, hrest, hcnt', hbuf', getBit_inPos_eq hclean, getBit_rxEnd_iff hclean⟩
    rw [hbit]
    exact congrArg (·.answered 0 (s.waitingBits.headD false).toNat) (getBit_frame s)
  · simp [sessionOk, hd]

end Sys2Proof.Machine
end

section
/-! THE INTERVAL ARITHMETIC OF THE ENCODER (42_encoder.md R160 to R162, R165): tiling, the cases, and how many of them a
renormalization loop can go through. -/

namespace Sys2Proof.Machine

variable {s t : State}

/-- Settles O25: the tests of `Class`, with the constants as numbers. -/
theorem scalingCasesAreExclusive : Obligations.ScalingCasesAreExclusive :=
  ⟨fun _ ho => ⟨Interval.scaling_e1, Interval.scaling_e2 ho, Interval.scaling_e3, Interval.scaling_none_iff⟩,
    rfl, rfl, rfl⟩

/-- Settles O26: the case leaves room for the subtraction and the doubling. -/
theorem rescaleDoublesTheRange : Obligations.RescaleDoublesTheRange := by
  intro iv k ho hb hk
  have hp : iv.Proper := ⟨ho, hb⟩
  obtain ⟨hoff, hroom⟩ := Interval.scaling_room hp hk
  exact ⟨hoff, hroom, rfl, rfl, (Interval.rescale_proper hp hk).bounded, (Interval.rescale_proper hp hk).ordered,
    Interval.rescale_range hp hk⟩

/-! ## Narrowing (R160) -/

/-- The truncated proportion of a sum is that of its parts, or one more (R160 d). -/
theorem narrow_offset_add (r a b t : Nat) (ht : 1 ≤ t) :
    r * (a + b) / t - r * a / t = r * b / t ∨ r * (a + b) / t - r * a / t = r * b / t + 1 := by
  rw [Nat.mul_add, Nat.add_div ht]
  generalize r * a / t = x
  generalize r * b / t = y
  split <;> omega

/-- A positive weight takes at least one value of an interval as wide as the total (R160 b). -/
theorem State.narrow_offset_lt (hm : Memory.wf s.freq = true) (ht : 1 ≤ s.total) {r sym : Nat} (hr : s.total ≤ r)
    (hw : s.weight sym ≠ 0#14) : r * s.cum sym / s.total + 1 ≤ r * s.cum (sym + 1) / s.total := by
  have hpos : (s.weight sym).toNat ≠ 0 := fun h0 => hw (BitVec.eq_of_toNat_eq h0)
  have hcum := State.cum_succ hm sym
  exact narrow_offsets_lt ht hr (by omega)

/-- Settles O24: the offsets grow with the prefix sums, from 0 at symbol 0 to the whole range at the last symbol. -/
theorem narrowTilesTheInterval : Obligations.NarrowTilesTheInterval := by
  intro s iv sym hm ho hs ht r loOff hiOff
  have hcum := State.cum_succ hm sym
  have hlow : (s.narrowFor iv sym).low = iv.low + loOff := rfl
  have hhigh : (s.narrowFor iv sym).high = iv.low + hiOff - 1 := rfl
  have hnext : (s.narrowFor iv (sym + 1)).low = iv.low + hiOff := rfl
  have hle : hiOff ≤ r := narrow_offset_le (Memory.cum_mono s.freq (Nat.succ_le_succ hs))
  have hlohi : loOff ≤ hiOff := Nat.div_le_div_right (Nat.mul_le_mul_left r (by omega))
  have hr : r = iv.high - iv.low + 1 := rfl
  refine ⟨hlow, hhigh, hle, hlohi, fun hw hrange => ?_, ?_, ?_, fun hpos => by omega, ?_⟩
  · have hlt : loOff + 1 ≤ hiOff := State.narrow_offset_lt hm ht hrange hw
    exact ⟨hlt, by omega, by omega⟩
  · have h0 : s.cum 0 = 0 := Memory.cum_zero s.freq
    simp [State.narrowFor, Interval.narrow, h0]
  · have hall : r * s.cum (s.eosSym + 1) / s.total = r := Nat.mul_div_cancel r ht
    show iv.low + r * s.cum (s.eosSym + 1) / s.total - 1 = iv.high
    omega
  · have hadd := narrow_offset_add r (s.cum sym) (s.weight sym).toNat s.total ht
    rwa [← hcum] at hadd

/-! ## The two loops end (R165, 43_decoder.md R191) -/

/-- `fuel` doublings of the interval fill the whole range. -/
structure Interval.EndsWithin (fuel : Nat) (iv : Interval) : Prop where
  proper : iv.Proper
  fills : Config.RANGE ≤ iv.range * 2 ^ fuel

theorem Interval.Proper.endsWithin_P {iv : Interval} (h : iv.Proper) : iv.EndsWithin Config.P :=
  ⟨h, Nat.le_mul_of_pos_left _ (Interval.range_pos iv)⟩

/-- No case applies to the whole range. -/
theorem Interval.EndsWithin.scaling_none {iv : Interval} (h : iv.EndsWithin 0) : iv.scaling = none :=
  Interval.settle_none h.proper h.fills

theorem Interval.EndsWithin.rescale {fuel : Nat} {iv : Interval} (h : iv.EndsWithin (fuel + 1)) {k : Scaling}
    (hk : iv.scaling = some k) : (iv.rescale k).EndsWithin fuel := by
  refine ⟨Interval.rescale_proper h.proper hk, ?_⟩
  calc Config.RANGE ≤ iv.range * 2 ^ (fuel + 1) := h.fills
    _ = (iv.rescale k).range * 2 ^ fuel := by rw [Interval.rescale_range h.proper hk, Nat.pow_succ]; ring

theorem encRenorm_of_scaling_none (fuel : Nat) (h : s.encInterval.scaling = none) : encRenorm fuel s = .settled s := by
  cases fuel with
  | zero => rfl
  | succ fuel => rw [encRenorm, h]

theorem decRenorm_of_scaling_none (fuel : Nat) (h : s.decInterval.scaling = none) : decRenorm fuel s = s := by
  cases fuel with
  | zero => rfl
  | succ fuel => rw [decRenorm, h]

theorem decShift_decInterval (hp : s.decInterval.Proper) {k : Scaling} (hk : s.decInterval.scaling = some k) :
    (s.decShift k).decInterval = s.decInterval.rescale k :=
  setDecInterval_decInterval s.getBit.2 (Interval.rescale_proper hp hk)

/-- More iterations than the interval needs change nothing. -/
theorem encRenorm_add (fuel n : Nat) (h : s.encInterval.EndsWithin fuel) :
    encRenorm (fuel + n) s = encRenorm fuel s := by
  induction fuel generalizing s with
  | zero => rw [Nat.zero_add, encRenorm_of_scaling_none n h.scaling_none, encRenorm]
  | succ fuel ih =>
    rw [Nat.add_right_comm, encRenorm, encRenorm]
    cases hk : s.encInterval.scaling with
    | none => rfl
    | some k =>
      cases hb : s.settleBit k with
      | none => simp only [hb]
      | some t =>
        have hiv := setEncInterval_encInterval t (Interval.rescale_proper h.proper hk)
        simpa only [hb] using ih (hiv.symm ▸ h.rescale hk)

/-- A loop that settles leaves an interval to which no case applies. -/
theorem encRenorm_settled_scaling (fuel : Nat) (h : s.encInterval.EndsWithin fuel)
    (ht : encRenorm fuel s = .settled t) : t.encInterval.scaling = none := by
  induction fuel generalizing s with
  | zero => exact Renormed.settled.inj ht ▸ h.scaling_none
  | succ fuel ih =>
    rw [encRenorm] at ht
    cases hk : s.encInterval.scaling with
    | none =>
      rw [hk] at ht
      exact Renormed.settled.inj ht ▸ hk
    | some k =>
      rw [hk] at ht
      dsimp only at ht
      cases hb : s.settleBit k with
      | none => exact absurd (hb ▸ ht) nofun
      | some u =>
        rw [hb] at ht
        have hiv := setEncInterval_encInterval u (Interval.rescale_proper h.proper hk)
        exact ih (hiv.symm ▸ h.rescale hk) ht

/-- More iterations than the interval needs change nothing. -/
theorem decRenorm_add (fuel n : Nat) (h : s.decInterval.EndsWithin fuel) :
    decRenorm (fuel + n) s = decRenorm fuel s := by
  induction fuel generalizing s with
  | zero => rw [Nat.zero_add, decRenorm_of_scaling_none n h.scaling_none, decRenorm]
  | succ fuel ih =>
    rw [Nat.add_right_comm, decRenorm, decRenorm]
    cases hk : s.decInterval.scaling with
    | none => rfl
    | some k => exact ih ((decShift_decInterval h.proper hk).symm ▸ h.rescale hk)

theorem decRenorm_scaling (fuel : Nat) (h : s.decInterval.EndsWithin fuel) :
    (decRenorm fuel s).decInterval.scaling = none := by
  induction fuel generalizing s with
  | zero => exact h.scaling_none
  | succ fuel ih =>
    rw [decRenorm]
    cases hk : s.decInterval.scaling with
    | none => exact hk
    | some k => exact ih ((decShift_decInterval h.proper hk).symm ▸ h.rescale hk)

/-- Settles O28: every case doubles the range, so `P` of them fill it; the interval that needs sixteen is run. -/
theorem renormalizationEndsWithinPIterations : Obligations.RenormalizationEndsWithinPIterations :=
  ⟨fun _ n ho => encRenorm_add Config.P n (State.encInterval_proper ho).endsWithin_P,
    fun _ _ ho ht => encRenorm_settled_scaling Config.P (State.encInterval_proper ho).endsWithin_P ht,
    fun _ n ho => decRenorm_add Config.P n (State.decInterval_proper ho).endsWithin_P,
    fun _ ho => decRenorm_scaling Config.P (State.decInterval_proper ho).endsWithin_P,
    by decide⟩

end Sys2Proof.Machine
end

section
/-! THE ENCODER COMMANDS (42_encoder.md R163, R166 to R168): when `ENC_INIT`, `ENC_SYM` and `ENC_FIN` complete, and what
they send. -/

namespace Sys2Proof.Machine

variable {s t u : State}

/-- Settles O27: the laws of `EmitWithFollow`. -/
theorem followBitsComplementTheDefiniteBit : Obligations.FollowBitsComplementTheDefiniteBit := fun s b hclean =>
  ⟨(emitWithFollow_spec hclean b).1, emitWithFollow_frame s b⟩

/-! ## Opening a session (R126, R166) -/

section
variable {i : Instr} {body : State → Result}

theorem issue_modelCheck_legal (hf : s.faulted = false) (ho : sessionOk i s = true) (hpos : 1 ≤ s.total)
    (hlt : s.total < Config.QUARTER) : issue i s (fun s => modelCheck (encode i) s body) = body s := by
  rw [issue_ok hf ho, modelCheck, if_neg (Nat.ne_of_gt hpos), if_neg (Nat.not_le.2 hlt)]

theorem issue_modelCheck_empty (hf : s.faulted = false) (ho : sessionOk i s = true) (h0 : s.total = 0) :
    issue i s (fun s => modelCheck (encode i) s body) = .next (s.latched 2 (encode i)) := by
  rw [issue_ok hf ho, modelCheck, if_pos h0, raise_eq]
  rfl

theorem issue_modelCheck_tooLarge (hf : s.faulted = false) (ho : sessionOk i s = true)
    (hge : Config.QUARTER ≤ s.total) :
    issue i s (fun s => modelCheck (encode i) s body) = .next (s.latched 1 (encode i)) := by
  have hne : s.total ≠ 0 := Nat.ne_of_gt (Nat.lt_of_lt_of_le (by decide) hge)
  rw [issue_ok hf ho, modelCheck, if_neg hne, if_pos hge, raise_eq]
  rfl

end

theorem sessionOk_encInit_iff : sessionOk .encInit s = true ↔ s.encActive = false := by simp [sessionOk]

/-- Settles O30: the session is checked first, then the total, and the writes are those of `openEnc`. -/
theorem encInitOpensASession : Obligations.EncInitOpensASession := by
  intro s hf
  refine ⟨fun he hpos hlt => ?_, fun he => exec_badState hf ?_, fun he h0 => ?_, fun he hge => ?_⟩
  · exact issue_modelCheck_legal hf (sessionOk_encInit_iff.2 he) hpos hlt
  · simp [sessionOk, he]
  · exact issue_modelCheck_empty hf (sessionOk_encInit_iff.2 he) h0
  · exact issue_modelCheck_tooLarge hf (sessionOk_encInit_iff.2 he) hge

/-! ## Coding a symbol (R164, R167) -/

section
variable {sym : Nat} (h : Inv s) (hs : sym ≤ s.eosSym) (hw : s.weight sym ≠ 0#14)
include h hs hw

/-- `ENC_SYM` of a symbol it can code is the end of the renormalization loop. -/
theorem exec_encSym_settled (hf : s.faulted = false) (ha : s.encActive = true)
    (hu : encRenorm Config.P (s.setEncInterval (s.narrowFor s.encInterval sym)) = .settled u) :
    exec (.encSym sym) s = .next (u.answered 0 0) := by
  have hsym : s.symbolCodable sym = true := symbolCodable_iff.2 ⟨hs, hw⟩
  rw [exec, execEncSym, issue_ok (i := .encSym sym) hf ha, hsym, h.narrowDefined hf ha, hu]
  rfl

/-- `ENC_SYM` whose loop meets the full counter raises the fault on the state the loop left (60_exceptions.md R232). -/
theorem exec_encSym_overflowed (hf : s.faulted = false) (ha : s.encActive = true)
    (hu : encRenorm Config.P (s.setEncInterval (s.narrowFor s.encInterval sym)) = .overflowed u) :
    exec (.encSym sym) s = .next (u.latched 4 (encode (.encSym sym))) := by
  have hsym : s.symbolCodable sym = true := symbolCodable_iff.2 ⟨hs, hw⟩
  rw [exec, execEncSym, issue_ok (i := .encSym sym) hf ha, hsym, h.narrowDefined hf ha, hu]
  rfl

/-- The loop of `ENC_SYM` when the counter has room: the cases are those of the bare narrowed interval. -/
theorem Inv.encRenorm_narrowed_settled (hd : s.narrowDefined s.encInterval = true)
    (hfit : pendFits ((s.narrowFor s.encInterval sym).settle Config.P).1 s.encPend.toNat = true) :
    ∃ u, encRenorm Config.P (s.setEncInterval (s.narrowFor s.encInterval sym)) = .settled u ∧ EncoderWrote s u ∧
      u.encInterval = ((s.narrowFor s.encInterval sym).settle Config.P).2 ∧
      u.sentBits =
        s.sentBits ++ (emission ((s.narrowFor s.encInterval sym).settle Config.P).1 s.encPend.toNat).1 ∧
      u.encPend.toNat = (emission ((s.narrowFor s.encInterval sym).settle Config.P).1 s.encPend.toNat).2 := by
  have hp := h.narrowFor_proper (State.encInterval_proper h.encOrdered) hd hs hw
  have hiv := setEncInterval_encInterval s hp
  obtain ⟨hclean, hp'⟩ := h.narrowed_enc hd hs hw
  obtain ⟨u, hu, hwrote, -, hend, hsent, hpend⟩ :=
    encRenorm_settled Config.P hclean hp' (by rw [hiv, setEncInterval_encPend]; exact hfit)
  rw [hiv] at hend hsent hpend
  exact ⟨u, hu, (setEncInterval_wrote s _).trans hwrote, hend, hsent, hpend⟩

/-- The loop of `ENC_SYM` when an E3 step meets the full counter: it ends before that step. -/
theorem Inv.encRenorm_narrowed_overflowed (hd : s.narrowDefined s.encInterval = true) {before after : List Scaling}
    (hks : ((s.narrowFor s.encInterval sym).settle Config.P).1 = before ++ .e3 :: after)
    (hfit : pendFits before s.encPend.toNat = true)
    (hfull : (emission before s.encPend.toNat).2 = Config.PEND_MAX) :
    ∃ u, encRenorm Config.P (s.setEncInterval (s.narrowFor s.encInterval sym)) = .overflowed u ∧ EncoderWrote s u ∧
      u.encInterval = before.foldl Interval.rescale (s.narrowFor s.encInterval sym) ∧
      u.sentBits = s.sentBits ++ (emission before s.encPend.toNat).1 ∧ u.encPend.toNat = Config.PEND_MAX := by
  have hp := h.narrowFor_proper (State.encInterval_proper h.encOrdered) hd hs hw
  have hiv := setEncInterval_encInterval s hp
  obtain ⟨hclean, hp'⟩ := h.narrowed_enc hd hs hw
  obtain ⟨u, hu, hwrote, -, hend, -, hsent, hpend⟩ :=
    encRenorm_overflowed Config.P hclean hp' (by rw [hiv]; exact hks) hfit hfull
  rw [hiv] at hend
  exact ⟨u, hu, (setEncInterval_wrote s _).trans hwrote, hend, hsent, hpend⟩

end

/-- Settles O31: the narrowed interval is proper, and the loop goes through the cases of the bare interval. -/
theorem encSymEncodesTheSymbol : Obligations.EncSymEncodesTheSymbol := by
  intro s sym h hf ha hs hw trace hfit
  have hd := h.narrowDefined hf ha
  have hp := h.narrowFor_proper (State.encInterval_proper h.encOrdered) hd hs hw
  obtain ⟨u, hu, hwrote, hend, hsent, hpend⟩ := h.encRenorm_narrowed_settled hs hw hd hfit
  exact ⟨u.answered 0 0, exec_encSym_settled h hs hw hf ha hu, congrArg (·.answered 0 0) hwrote.frame, hend,
    Interval.settle_P_none hp, Interval.settle_length Config.P _, hsent, hpend, hwrote.extends_out⟩

/-- Settles O33: the loop ends before the E3 step that meets the full counter, and the fault writes the latch only. -/
theorem pendingOverflowKeepsCompletedIterations : Obligations.PendingOverflowKeepsCompletedIterations := by
  intro s sym before after h hf ha hs hw hks hfit hfull
  obtain ⟨u, hu, hwrote, hend, hsent, hpend⟩ :=
    h.encRenorm_narrowed_overflowed hs hw (h.narrowDefined hf ha) hks hfit hfull
  have hpend' : u.encPend = 0xFFFFFFFF#32 := BitVec.eq_of_toNat_eq hpend
  have hframe := hwrote.frame
  rw [hpend'] at hframe
  exact ⟨u.latched 4 (encode (.encSym sym)), exec_encSym_overflowed h hs hw hf ha hu,
    congrArg (·.latched 4 (encode (.encSym sym))) hframe, hend, hsent, hwrote.extends_out⟩

/-! ## Closing a session (R168) -/

/-- What `ENC_FIN` sends before the padding: the final bit, then the pending bits and one more as its complement. -/
def finalBits (low p : Nat) : List Bool :=
  (!decide (low < Config.QUARTER)) :: List.replicate (p + 1) (decide (low < Config.QUARTER))

@[simp] theorem finalBits_length (low p : Nat) : (finalBits low p).length = p + 2 := by simp [finalBits]

/-- The zero bits from the end of a sequence to the byte boundary (R141). -/
def padding (n : Nat) : List Bool := List.replicate ((8 - n % 8) % 8) false

theorem sentBits_length (s : State) : s.sentBits.length = 8 * s.out.length + s.txFill.toNat := by
  have hfill := s.txFill.isLt
  rw [State.sentBits, List.length_append, streamBits_length, List.length_take, byteBits_length]
  omega

/-- `CloseTx` pads the bits sent to the byte boundary (R141). -/
theorem closeTx_padding (hclean : s.TxClean) :
    streamBits s.closeTx.out = s.sentBits ++ padding s.sentBits.length := by
  have hfill := s.txFill.isLt
  have hn : (8 - s.sentBits.length % 8) % 8 = (8 - s.txFill.toNat) % 8 := by rw [sentBits_length]; omega
  rw [closeTx_spec hclean, padding, hn]

theorem closeEnc_frame (s : State) :
    s.closeEnc = { s with encPend := 0#32, encActive := false, txBuf := 0#8, txFill := 0#3, out := s.closeEnc.out } := by
  rw [State.closeEnc, closeTx_frame, emitWithFollow_frame]

/-- The bits `ENC_FIN` sends, with the padding. -/
theorem closeEnc_bits (hclean : s.TxClean) (hp : s.encPend.toNat ≠ Config.PEND_MAX) :
    streamBits s.closeEnc.out = s.sentBits ++ finalBits s.encLow.toNat s.encPend.toNat ++
      padding (s.sentBits ++ finalBits s.encLow.toNat s.encPend.toNat).length := by
  have hlt : s.encPend.toNat < Config.PEND_MAX := Nat.lt_of_le_of_ne (Nat.le_of_lt_succ s.encPend.isLt) hp
  obtain ⟨hsent, hclean', -⟩ :=
    emitWithFollow_spec (s := { s with encPend := s.encPend + 1#32 }) hclean s.finalBit
  have hbits : (State.emitWithFollow { s with encPend := s.encPend + 1#32 } s.finalBit).sentBits =
      s.sentBits ++ finalBits s.encLow.toNat s.encPend.toNat := by
    rw [hsent, pend_succ hlt, finalBits, State.finalBit, Bool.not_not, setPend_sentBits]
  rw [← hbits]
  exact closeTx_padding hclean'

theorem exec_encFin (hf : s.faulted = false) (ha : s.encActive = true) (hp : s.encPend.toNat ≠ Config.PEND_MAX) :
    exec .encFin s = .next (s.closeEnc.answered 0 0) := by
  rw [exec, execEncFin, issue_ok (i := .encFin) hf ha, if_neg hp]
  rfl

theorem exec_encFin_full (hf : s.faulted = false) (ha : s.encActive = true) (hp : s.encPend.toNat = Config.PEND_MAX) :
    exec .encFin s = .next (s.latched 4 (encode .encFin)) := by
  rw [exec, execEncFin, issue_ok (i := .encFin) hf ha, if_pos hp, raise_eq]
  rfl

/-- Settles O34: the counter is checked first, and the writes are those of `closeEnc`. -/
theorem encFinClosesTheSession : Obligations.EncFinClosesTheSession := by
  intro s hf
  refine ⟨fun ha hp hclean => ?_, fun ha hp => exec_encFin_full hf ha (congrArg BitVec.toNat hp),
    fun ha => exec_badState hf ha⟩
  intro b bits
  have hb : bits = s.sentBits ++ finalBits s.encLow.toNat s.encPend.toNat := by
    by_cases hlow : s.encLow.toNat < 0x4000 <;> simp [bits, b, finalBits, hlow]
  have hp' : s.encPend.toNat ≠ Config.PEND_MAX := fun hfull => hp (BitVec.eq_of_toNat_eq hfull)
  have hout := closeEnc_bits hclean hp'
  rw [← hb] at hout
  refine ⟨_, exec_encFin hf ha hp', congrArg (·.answered 0 0) (closeEnc_frame s), hout,
    (closeEnc_side s).extends_out, ?_⟩
  have hlen := congrArg List.length hout
  rw [streamBits_length, hb, List.length_append, List.length_append, finalBits_length, sentBits_length] at hlen
  show s.out.length < s.closeEnc.out.length
  omega

end Sys2Proof.Machine
end

section
/-! RUNS WITHOUT A FAULT (60_exceptions.md R229, R234): the latch stays, so every command of such a run had its effect. -/

namespace Sys2Proof.Machine

variable {s t u : State} {i : Instr} {is : List Instr}

/-- What every command of a session is: its word decodes to it, and it is refused while a fault is recorded. -/
structure SessionCommand (i : Instr) : Prop where
  decodes : decode (encode i) = .ok i
  refusable : ¬ alwaysExecutes i

theorem sessionCommand_encInit : SessionCommand .encInit := ⟨by decide, by simp [alwaysExecutes]⟩

theorem sessionCommand_encFin : SessionCommand .encFin := ⟨by decide, by simp [alwaysExecutes]⟩

theorem sessionCommand_encSym {sym : Nat} (hs : sym ≤ s.eosSym) : SessionCommand (.encSym sym) := by
  have hn : s.eosSym < 2 ^ 14 := s.params.n.isLt
  have hw : (Instr.encSym sym).wellFormed = true := decide_eq_true (Nat.lt_of_le_of_lt hs hn)
  exact ⟨decodeInvertsEncode _ hw, by simp [alwaysExecutes]⟩

theorem sessionCommands_encSyms {syms : List Nat} {rest : List Instr} (hs : ∀ sym ∈ syms, sym ≤ s.eosSym)
    (hrest : ∀ i ∈ rest, SessionCommand i) : ∀ i ∈ syms.map .encSym ++ rest, SessionCommand i := by
  intro i hi
  rcases List.mem_append.1 hi with hi | hi
  · obtain ⟨sym, hsym, rfl⟩ := List.mem_map.1 hi
    exact sessionCommand_encSym (hs sym hsym)
  · exact hrest i hi

/-- A command that ends with no fault recorded found none and had its effect. -/
theorem Ended.done_of_unfaulted (h : Ended i s t) (hi : ¬ alwaysExecutes i) (hf : t.faulted = false) :
    s.faulted = false ∧ ∃ u d, Done i s u ∧ t = u.answered 0 d := by
  cases h with
  | refused hs _ ht => rw [ht] at hf; exact absurd (hs.symm.trans hf) Bool.noConfusion
  | raised c _ _ ht => rw [ht] at hf; exact absurd ((latched_faulted s c _).symm.trans hf) Bool.noConfusion
  | overflowed _ u _ _ _ _ _ _ _ ht =>
    rw [ht] at hf
    exact absurd ((latched_faulted u .pendingOverflow _).symm.trans hf) Bool.noConfusion
  | done u d hs hu ht => exact ⟨hs.resolve_left hi, u, d, hu, ht⟩

/-- A run that ends with no fault recorded began with none. -/
theorem runCommands_unfaulted (his : ∀ i ∈ is, SessionCommand i) (hq : s.inProgress = none)
    (hr : runCommands is s = .next t) (hf : t.faulted = false) : s.faulted = false := by
  induction is generalizing s with
  | nil =>
    rw [← next_inj (hr.symm.trans (runCommands_nil s)).symm] at hf
    exact hf
  | cons i is ih =>
    obtain ⟨hi, his⟩ := List.forall_mem_cons.1 his
    obtain ⟨u, hu, hq', hr'⟩ := runCommands_cons_next hi.decodes hq hr
    exact ((exec_ended hu).done_of_unfaulted hi.refusable (ih his hq' hr')).1

/-- The first command of a fault-free run had its effect, and the rest is a fault-free run. -/
theorem runCommands_cons_done (hi : SessionCommand i) (his : ∀ i ∈ is, SessionCommand i) (hq : s.inProgress = none)
    (hr : runCommands (i :: is) s = .next t) (hf : t.faulted = false) :
    ∃ u d, Done i (s.issueAll is) u ∧ s.faulted = false ∧ runCommands is (u.answered 0 d) = .next t := by
  obtain ⟨v, hv, hq', hr'⟩ := runCommands_cons_next hi.decodes hq hr
  have hf' := runCommands_unfaulted his hq' hr' hf
  obtain ⟨hf0, u, d, hu, rfl⟩ := (exec_ended hv).done_of_unfaulted hi.refusable hf'
  exact ⟨u, d, hu, hf0, hr'⟩

end Sys2Proof.Machine
end

section
/-! AN ENCODING SESSION (42_encoder.md R163 to R171): the bits it sends are a function of the table and the symbols. -/

namespace Sys2Proof.Machine

variable {s t u v : State} {iv : Interval} {p sym : Nat} {syms : List Nat} {bits : List Bool}

/-! ## The bits of a session -/

/-- The bits an encoder at the interval `iv` with `p` bits pending has still to send for these symbols and for the end of
the session (R163, R168). -/
def State.codeBits (s : State) (iv : Interval) (p : Nat) (syms : List Nat) : List Bool :=
  (emission (s.codingTrace iv syms).1 p).1 ++
    finalBits (s.codingTrace iv syms).2.low (emission (s.codingTrace iv syms).1 p).2

theorem State.codeBits_cons (s : State) (iv : Interval) (p sym : Nat) (syms : List Nat) :
    s.codeBits iv p (sym :: syms) =
      (emission ((s.narrowFor iv sym).settle Config.P).1 p).1 ++
        s.codeBits ((s.narrowFor iv sym).settle Config.P).2
          (emission ((s.narrowFor iv sym).settle Config.P).1 p).2 syms := by
  simp only [State.codeBits, State.codingTrace, emission_append, List.append_assoc]

/-- One bit for each rescaling and each pending bit, and two to end (R171). -/
theorem State.codeBits_length (s : State) (iv : Interval) (p : Nat) (syms : List Nat) :
    (s.codeBits iv p syms).length = (s.codingTrace iv syms).1.length + p + 2 := by
  have hcount := emission_count (s.codingTrace iv syms).1 p
  rw [State.codeBits, List.length_append, finalBits_length]
  omega

/-- Whole bytes before a sequence do not change its padding. -/
theorem padding_of_bytes (n k : Nat) : padding (8 * n + k) = padding k := by
  rw [padding, padding, Nat.mul_add_mod]

/-! ## States with one table -/

/-- The two states have the same `N` and the same table. -/
structure SameTable (s u : State) : Prop where
  freq : u.freq = s.freq
  params : u.params = s.params

theorem SameTable.eosSym (h : SameTable s u) : u.eosSym = s.eosSym := by rw [State.eosSym, h.params, State.eosSym]

theorem SameTable.weight (h : SameTable s u) (sym : Nat) : u.weight sym = s.weight sym := by
  rw [State.weight, h.freq, State.weight]

theorem SameTable.cum (h : SameTable s u) (i : Nat) : u.cum i = s.cum i := by rw [State.cum, h.freq, State.cum]

theorem SameTable.total (h : SameTable s u) : u.total = s.total := by rw [State.total, h.eosSym, h.cum, State.total]

theorem SameTable.narrowFor (h : SameTable s u) (iv : Interval) (sym : Nat) :
    u.narrowFor iv sym = s.narrowFor iv sym := by
  rw [State.narrowFor, h.cum, h.cum, h.total, State.narrowFor]

/-! ## Where an encoder is in its session -/

/-- `u` is an idle block in an open, fault-free encoding session with the table of `s` and an output that extends that
of `s`: its interval, how many bits are pending, and all the bits sent so far. -/
structure EncoderAt (s : State) (iv : Interval) (p : Nat) (bits : List Bool) (u : State) : Prop where
  inv : Inv u
  idle : u.inProgress = none
  unfaulted : u.faulted = false
  active : u.encActive = true
  table : SameTable s u
  out : s.out <+: u.out
  interval : u.encInterval = iv
  pend : u.encPend.toNat = p
  sent : u.sentBits = bits

/-- Neither the events to come nor the responses matter. -/
theorem EncoderAt.environment (h : EncoderAt s iv p bits u) (r : List Response) (q : List HostEvent) :
    EncoderAt s iv p bits { u with rsps := r, host := q } :=
  { h with inv := h.inv.environment u.out h.inv.inputInRange r u.inProgress q, table := ⟨h.table.freq, h.table.params⟩ }

/-- A loop that settled went through all the cases of the bare interval (R164). -/
theorem Inv.narrowed_of_settled (h : Inv s) (hs : sym ≤ s.eosSym) (hw : s.weight sym ≠ 0#14)
    (hd : s.narrowDefined s.encInterval = true)
    (hu : encRenorm Config.P (s.setEncInterval (s.narrowFor s.encInterval sym)) = .settled u) :
    EncoderWrote s u ∧ u.encInterval = ((s.narrowFor s.encInterval sym).settle Config.P).2 ∧
      u.sentBits =
        s.sentBits ++ (emission ((s.narrowFor s.encInterval sym).settle Config.P).1 s.encPend.toNat).1 ∧
      u.encPend.toNat = (emission ((s.narrowFor s.encInterval sym).settle Config.P).1 s.encPend.toNat).2 := by
  have hpend : s.encPend.toNat ≤ Config.PEND_MAX := Nat.le_of_lt_succ s.encPend.isLt
  rcases pendFits_or_full _ hpend with hfit | ⟨before, after, hks, hfit, hfull⟩
  · obtain ⟨v, hv, hspec⟩ := h.encRenorm_narrowed_settled hs hw hd hfit
    obtain rfl : u = v := Renormed.settled.inj (hu.symm.trans hv)
    exact hspec
  · obtain ⟨v, hv, -⟩ := h.encRenorm_narrowed_overflowed hs hw hd hks hfit hfull
    exact absurd (hu.symm.trans hv) nofun

/-- ENC_INIT takes an encoder to the full interval, with nothing pending and the bits of the bytes sent before. -/
theorem Done.encoderAt_of_encInit {q : List HostEvent} (hu : Done .encInit { s with host := q } u) (h : Inv s)
    (hq : s.inProgress = none) (hf : s.faulted = false) : EncoderAt s Interval.full 0 (streamBits s.out) u := by
  have hinv := hu.inv (h.environment s.out h.inputInRange s.rsps s.inProgress q)
  obtain ⟨-, -, -, rfl⟩ := hu
  exact ⟨hinv, hq, hf, rfl, ⟨rfl, rfl⟩, List.prefix_refl _, openEnc_encInterval s, rfl, List.append_nil _⟩

/-- ENC_SYM takes an encoder through the cases of the narrowed interval (R167). -/
theorem EncoderAt.encSym (h : EncoderAt s iv p bits u) (hv : Done (.encSym sym) u v) :
    s.weight sym ≠ 0#14 ∧
      EncoderAt s ((s.narrowFor iv sym).settle Config.P).2
        (emission ((s.narrowFor iv sym).settle Config.P).1 p).2
        (bits ++ (emission ((s.narrowFor iv sym).settle Config.P).1 p).1) v := by
  have hinv := hv.inv h.inv
  obtain ⟨-, hs, hw, hd, hsettled⟩ := hv
  obtain ⟨hwrote, hend, hsent, hpend⟩ := h.inv.narrowed_of_settled hs hw hd hsettled
  rw [h.interval, h.pend, h.table.narrowFor] at hsent hpend
  rw [h.interval, h.table.narrowFor] at hend
  rw [h.sent] at hsent
  have hkept := hwrote.side.kept
  have hfreq : v.freq = u.freq := by rw [hwrote.frame]
  refine ⟨h.table.weight sym ▸ hw, hinv, hkept.inProgress.trans h.idle, ?_, hwrote.encActive.trans h.active,
    ⟨hfreq.trans h.table.freq, hkept.params.trans h.table.params⟩, h.out.trans hkept.out, hend, hpend, hsent⟩
  rw [hwrote.frame]
  exact h.unfaulted

/-- An encoder in session can code the empty list: its table is in order and its total legal. -/
theorem EncoderAt.codes_nil (h : EncoderAt s iv p bits u) : s.Codes [] := by
  obtain ⟨hpos, hlt⟩ := h.inv.totalLegal (Or.inl h.active)
  rw [h.table.total] at hpos hlt
  exact ⟨h.table.freq ▸ h.inv.tableCanonical, hpos, hlt, nofun, nofun⟩

theorem State.Codes.cons (h : s.Codes syms) (hs : sym ≤ s.eosSym) (hw : s.weight sym ≠ 0#14) : s.Codes (sym :: syms) :=
  { h with
    inRange := List.forall_mem_cons.2 ⟨hs, h.inRange⟩
    weighted := List.forall_mem_cons.2 ⟨hw, h.weighted⟩ }

/-- ENC_FIN sends the final bits and the padding (R168). -/
theorem EncoderAt.encFin (h : EncoderAt s iv p bits u) (hv : Done .encFin u v) :
    s.out <+: v.out ∧
      streamBits v.out = bits ++ finalBits iv.low p ++ padding (bits ++ finalBits iv.low p).length := by
  obtain ⟨-, hp, rfl⟩ := hv
  have hlow : u.encLow.toNat = iv.low := congrArg Interval.low h.interval
  refine ⟨h.out.trans (closeEnc_side u).extends_out, ?_⟩
  rw [closeEnc_bits h.inv.txClean hp, h.sent, h.pend, hlow]

/-- A fault-free run that codes these symbols first comes to the interval, the pending bits and the bits sent that the
bare cases give; so every symbol had a positive weight. -/
theorem EncoderAt.run {rest : List Instr} (h : EncoderAt s iv p bits u) (hs : ∀ sym ∈ syms, sym ≤ s.eosSym)
    (hrest : ∀ i ∈ rest, SessionCommand i) (hr : runCommands (syms.map .encSym ++ rest) u = .next t)
    (hf : t.faulted = false) :
    s.Codes syms ∧ ∃ v, runCommands rest v = .next t ∧
      EncoderAt s (s.codingTrace iv syms).2 (emission (s.codingTrace iv syms).1 p).2
        (bits ++ (emission (s.codingTrace iv syms).1 p).1) v := by
  induction syms generalizing iv p bits u with
  | nil => exact ⟨h.codes_nil, u, hr, by simpa [State.codingTrace, emission] using h⟩
  | cons sym syms ih =>
    obtain ⟨hsym, hsyms⟩ := List.forall_mem_cons.1 hs
    obtain ⟨v, d, hv, -, hr'⟩ :=
      runCommands_cons_done (sessionCommand_encSym hsym) (sessionCommands_encSyms hsyms hrest) h.idle hr hf
    obtain ⟨hw, hat⟩ := (h.environment u.rsps _).encSym hv
    obtain ⟨hcodes, w, hrun, hend⟩ := ih (hat.environment _ v.host) hsyms hr'
    refine ⟨hcodes.cons hsym hw, w, hrun, ?_⟩
    simp only [State.codingTrace, emission_append]
    rwa [← List.append_assoc]

/-- A session that ends without a fault could code its symbols, and it sends the bits of the session, padded to the byte
boundary, after what was sent before (R171). -/
theorem encodeSession_sends (h : Inv s) (hq : s.inProgress = none) (hs : ∀ sym ∈ syms, sym ≤ s.eosSym)
    (hr : runCommands (encodeSession syms) s = .next t) (hf : t.faulted = false) :
    s.Codes syms ∧ s.out <+: t.out ∧
      streamBits t.out = streamBits s.out ++ s.codeBits Interval.full 0 syms ++
        padding (s.codeBits Interval.full 0 syms).length := by
  have hfin : ∀ i ∈ [Instr.encFin], SessionCommand i := by simpa using sessionCommand_encFin
  obtain ⟨u, d, hu, hf0, hr⟩ := runCommands_cons_done sessionCommand_encInit (sessionCommands_encSyms hs hfin) hq hr hf
  have hat := (hu.encoderAt_of_encInit h hq hf0).environment (u.answered 0 d).rsps u.host
  obtain ⟨hcodes, v, hr, hv⟩ := hat.run hs hfin hr hf
  obtain ⟨w, d', hw, -, hr⟩ := runCommands_cons_done sessionCommand_encFin (List.forall_mem_nil _) hv.idle hr hf
  obtain ⟨hout, hbits⟩ := (hv.environment v.rsps []).encFin hw
  have ht : t.out = w.out := by rw [← next_inj (hr.symm.trans (runCommands_nil _)).symm]; rfl
  rw [List.append_assoc (streamBits s.out), ← State.codeBits, List.length_append, streamBits_length,
    padding_of_bytes] at hbits
  exact ⟨hcodes, ht ▸ hout, ht ▸ hbits⟩

/-- Settles O49: the bits of a session are one for each rescaling and two more. -/
theorem sessionBitAccounting : Obligations.SessionBitAccounting := by
  intro s t syms h hq _ _ hs hr hf k
  obtain ⟨-, -, hbits⟩ := encodeSession_sends h hq hs hr hf
  have hlen : (s.codeBits Interval.full 0 syms).length = k + 2 := s.codeBits_length Interval.full 0 syms
  rw [hlen] at hbits
  refine ⟨?_, s.codeBits Interval.full 0 syms, hlen, hbits⟩
  have hbytes := congrArg List.length hbits
  rw [streamBits_length, List.length_append, List.length_append, streamBits_length, hlen, padding,
    List.length_replicate] at hbytes
  omega

end Sys2Proof.Machine
end

section
/-! DECODING AN ENCODED STREAM (42_encoder.md R170, R172; 43_decoder.md R191 to R197): the value register stays where the
encoder's bits put it, so every symbol is found again. -/

namespace Sys2Proof.Machine

variable {s t u v : State} {iv : Interval} {p sym : Nat} {syms more : List Nat} {l : List Bool}

/-! ## The decoder's commands complete (R192 to R194) -/

theorem sessionOk_decInit_iff : sessionOk .decInit s = true ↔ s.decActive = false := by simp [sessionOk]

theorem exec_decInit (hf : s.faulted = false) (hd : s.decActive = false) (hpos : 1 ≤ s.total)
    (hlt : s.total < Config.QUARTER) : exec .decInit s = .next (s.openDec.answered 0 0) :=
  issue_modelCheck_legal hf (sessionOk_decInit_iff.2 hd) hpos hlt

/-- The value register is filled with the next sixteen bits of the input, which are taken (R192). -/
theorem openDec_fills (s : State) :
    s.openDec.decValue.toNat = bitsNat (window Config.P (streamBits (s.inp.drop s.inPos))) ∧
      s.openDec.waitingBits = (streamBits (s.inp.drop s.inPos)).drop Config.P := by
  obtain ⟨hval, hrest, -, -⟩ := fillValue_spec Config.P 0 (s := s.clearDec) ⟨Nat.zero_le _, rfl⟩
  have hw : s.clearDec.waitingBits = streamBits (s.inp.drop s.inPos) := rfl
  have hlt := bitsNat_lt (window Config.P (streamBits (s.inp.drop s.inPos)))
  rw [window_length] at hlt
  rw [hw] at hval hrest
  rw [Nat.zero_mul, Nat.zero_add] at hval
  unfold State.openDec
  generalize State.fillValue Config.P 0 s.clearDec = r at hval hrest ⊢
  rw [← hval] at hlt ⊢
  exact ⟨(BitVec.toNat_ofNat _ _).trans (Nat.mod_eq_of_lt hlt), hrest⟩

theorem exec_decEnd (hf : s.faulted = false) (ha : s.decActive = true) :
    exec .decEnd s = .next (State.answered { s with decActive := false } 0 0) := by
  rw [exec, execDecEnd, issue_ok (i := .decEnd) hf ha]
  rfl

section
variable (h : Inv s) (hf : s.faulted = false) (ha : s.decActive = true) (hsym : s.decodedSymbol = some sym)
include h hf ha hsym

theorem exec_decSym : exec .decSym s = (s.setDecInterval (s.narrowFor s.decInterval sym)).deliver sym := by
  rw [exec, execDecSym, issue_ok (i := .decSym) hf ha, h.scaledDefined hf ha, hsym]
  rfl

theorem exec_decSym_ordinary (hne : sym ≠ s.eosSym) :
    exec .decSym s =
      .next ((decRenorm Config.P (s.setDecInterval (s.narrowFor s.decInterval sym))).answered 0 sym) := by
  rw [exec_decSym h hf ha hsym, State.deliver,
    if_neg (show sym ≠ (s.setDecInterval (s.narrowFor s.decInterval sym)).eosSym from hne), answer_eq]

theorem exec_decSym_eos (he : sym = s.eosSym) :
    exec .decSym s =
      .next (State.answered { s.setDecInterval (s.narrowFor s.decInterval sym) with decEos := true, decActive := false }
        0 (sym + 2 ^ 16)) := by
  rw [exec_decSym h hf ha hsym, State.deliver,
    if_pos (show sym = (s.setDecInterval (s.narrowFor s.decInterval sym)).eosSym from he), answer_eq]

end

/-! ## Where a decoder is in its session -/

/-- `u` is an idle block in an open, fault-free decoding session with the table of `s`: its interval, and the bits `l` the
encoder sends from the same interval with `p` bits pending; sixteen and `p` of them have gone into the value register
(R191). -/
structure DecoderAt (s : State) (iv : Interval) (p : Nat) (l : List Bool) (u : State) : Prop where
  inv : Inv u
  idle : u.inProgress = none
  unfaulted : u.faulted = false
  active : u.decActive = true
  table : SameTable s u
  interval : u.decInterval = iv
  value : (u.decValue.toNat : Int) = bitsValue p l
  waiting : u.waitingBits = l.drop (16 + p)

theorem DecoderAt.proper (h : DecoderAt s iv p l u) : iv.Proper := h.interval ▸ State.decInterval_proper h.inv.decOrdered

theorem DecoderAt.settled (h : DecoderAt s iv p l u) : iv.scaling = none :=
  h.interval ▸ h.inv.decSettled h.active h.unfaulted

/-- Neither the events to come nor the responses matter. -/
theorem DecoderAt.environment (h : DecoderAt s iv p l u) (r : List Response) (q : List HostEvent) :
    DecoderAt s iv p l { u with rsps := r, host := q } :=
  { h with inv := h.inv.environment u.out h.inv.inputInRange r u.inProgress q, table := ⟨h.table.freq, h.table.params⟩ }

/-- DEC_INIT takes a decoder to the full interval and the first bit of the unread input (R192). -/
theorem decInit_decoderAt (h : Inv u) (hq : u.inProgress = none) (hf : u.faulted = false) (hd : u.decActive = false)
    (ht : SameTable s u) (hc : s.Codes syms) :
    exec .decInit u = .next (u.openDec.answered 0 0) ∧ u.openDec.rsps = u.rsps ∧
      DecoderAt s Interval.full 0 (streamBits (u.inp.drop u.inPos)) (u.openDec.answered 0 0) := by
  have hx := exec_decInit hf hd (ht.total ▸ hc.positive) (ht.total ▸ hc.small)
  obtain ⟨hval, hrest⟩ := openDec_fills u
  have hend := openDec_decInterval u
  have hact : u.openDec.decActive = true := rfl
  have hframe := (openDec_side u).frame
  have hkept := (openDec_side u).kept
  generalize u.openDec = w at hx hval hrest hend hact hframe hkept ⊢
  have hfreq : w.freq = u.freq := by rw [hframe]
  have hfault : w.faulted = false := by rw [hframe]; exact hf
  refine ⟨hx, hkept.rsps, (exec_ended hx).inv h, (exec_ended hx).idle.trans hq, hfault, hact,
    ⟨hfreq.trans ht.freq, hkept.params.trans ht.params⟩, hend, ?_, hrest⟩
  rw [bitsValue_zero]
  exact congrArg Nat.cast hval

/-! ## The encoder's bits lead into every interval it narrows to (R195, R196) -/

/-- Whatever follows the session, the value of its bits lies in the interval of the first symbol. -/
theorem State.Codes.narrowFor_holds (hc : s.Codes (sym :: syms)) (hp : iv.Proper) (hn : iv.scaling = none) (p : Nat)
    (l : List Bool) : (s.narrowFor iv sym).Holds (bitsValue p (s.codeBits iv p (sym :: syms) ++ l)) := by
  have hnar := (hc.head hp hn).1
  have hp' := Interval.settle_proper Config.P hnar
  have hn' := Interval.settle_P_none hnar
  have hfin := holds_of_final (State.codingTrace_proper hc.tail hp' hn').2
    (emission (s.codingTrace ((s.narrowFor iv sym).settle Config.P).2 syms).1
      (emission ((s.narrowFor iv sym).settle Config.P).1 p).2).2 l rfl
  rw [Bool.not_not] at hfin
  have hrest := State.holds_of_coding hc.tail hp' hn' _ _ hfin
  have hall := Interval.holds_of_settle Config.P hnar p _ hrest
  rw [State.codeBits_cons, State.codeBits, finalBits]
  simpa only [List.append_assoc] using hall

/-- The value register lies where the value of the bits to come lies. -/
theorem DecoderAt.within (h : DecoderAt s iv p l u) {jv : Interval} (hv : jv.Holds (bitsValue p l)) :
    jv.low ≤ u.decValue.toNat ∧ u.decValue.toNat ≤ jv.high := by
  obtain ⟨hlow, hhigh⟩ := hv
  rw [← h.value] at hlow hhigh
  exact ⟨Int.ofNat_le.1 hlow, Int.ofNat_le.1 hhigh⟩

/-- The decoder finds the symbol whose narrowed interval holds the value (R195). -/
theorem DecoderAt.decodes (h : DecoderAt s iv p l u) (hs : sym ≤ s.eosSym) (hw : s.weight sym ≠ 0#14)
    (hv : (s.narrowFor iv sym).Holds (bitsValue p l)) : u.decodedSymbol = some sym := by
  obtain ⟨hpos, hlt⟩ := h.inv.totalLegal (Or.inr h.active)
  have hrange := Interval.range_of_settled h.settled
  have hoff := State.narrow_offset_lt h.inv.tableCanonical hpos (r := iv.range) (by omega) (h.table.weight sym ▸ hw)
  have hne : 0 < iv.range * u.cum (sym + 1) / u.total := Nat.lt_of_lt_of_le (Nat.succ_pos _) hoff
  obtain ⟨hlow, hhigh⟩ := h.within hv
  rw [← h.table.narrowFor] at hlow hhigh
  have hlt : u.decValue.toNat + 1 ≤ iv.low + iv.range * u.cum (sym + 1) / u.total :=
    Nat.add_le_of_le_sub (by omega) hhigh
  rw [State.decodedSymbol, h.interval]
  refine decodes_of_holds h.inv.tableCanonical hpos (h.table.eosSym ▸ hs) ?_ hlow hlt
  exact h.interval ▸ (h.inv.decWithin (Or.inl h.active)).1

/-- Renormalizing an interval that holds the value takes the encoder's bits for its cases out of those to come (R191). -/
theorem DecoderAt.decRenorm {jv : Interval} (h : DecoderAt s iv p ((emission (jv.settle Config.P).1 p).1 ++ l) u)
    (hp : jv.Proper) (hv : jv.Holds (bitsValue p ((emission (jv.settle Config.P).1 p).1 ++ l))) :
    let v := Machine.decRenorm Config.P (u.setDecInterval jv)
    v.decInterval = (jv.settle Config.P).2 ∧
      (v.decValue.toNat : Int) = bitsValue (emission (jv.settle Config.P).1 p).2 l ∧
      v.waitingBits = l.drop (16 + (emission (jv.settle Config.P).1 p).2) ∧ DecoderWrote u v := by
  have hiv := setDecInterval_decInterval u hp
  have hin := h.within hv
  obtain ⟨hend, hval, -, -, hrest, -, hwrote⟩ := decRenorm_spec Config.P (s := u.setDecInterval jv)
    ⟨h.inv.rxCount, h.inv.rxClean⟩ (hiv.symm ▸ hp) (hiv.symm ▸ hin)
  rw [hiv] at hend hval hrest
  rw [setDecInterval_waitingBits, h.waiting] at hval hrest
  rw [setDecInterval_decValue] at hval
  refine ⟨hend, ?_, ?_, (setDecInterval_wrote u jv).trans hwrote⟩
  · rw [hval]
    exact shiftValue_settle Config.P hp p l _ hin h.value rfl
  · have hcount := emission_count (jv.settle Config.P).1 p
    have htaken : 16 + p + (jv.settle Config.P).1.length =
        (emission (jv.settle Config.P).1 p).1.length + (16 + (emission (jv.settle Config.P).1 p).2) := by omega
    rw [hrest, List.drop_drop, htaken, List.drop_length_add_append]

/-- DEC_SYM answers the symbol and takes the decoder through the cases the encoder went through (R193, R197). -/
theorem DecoderAt.decSym (h : DecoderAt s iv p (s.codeBits iv p (sym :: syms) ++ l) u) (hc : s.Codes (sym :: syms))
    (hne : sym ≠ s.eosSym) :
    ∃ v : State, exec .decSym u = .next (v.answered 0 sym) ∧ v.rsps = u.rsps ∧
      DecoderAt s ((s.narrowFor iv sym).settle Config.P).2 (emission ((s.narrowFor iv sym).settle Config.P).1 p).2
        (s.codeBits ((s.narrowFor iv sym).settle Config.P).2
          (emission ((s.narrowFor iv sym).settle Config.P).1 p).2 syms ++ l) (v.answered 0 sym) := by
  have hhold := hc.narrowFor_holds h.proper h.settled p l
  have hsym := h.decodes (hc.inRange sym (by simp)) (hc.weighted sym (by simp)) hhold
  have hx := exec_decSym_ordinary h.inv h.unfaulted h.active hsym (h.table.eosSym ▸ hne)
  rw [h.interval, h.table.narrowFor] at hx
  rw [State.codeBits_cons, List.append_assoc] at h hhold
  obtain ⟨hend, hvalue, hwaiting, hwrote⟩ := h.decRenorm (hc.head h.proper h.settled).1 hhold
  generalize Machine.decRenorm Config.P (u.setDecInterval (s.narrowFor iv sym)) = v at hx hend hvalue hwaiting hwrote
  have hfreq : v.freq = u.freq := by rw [hwrote.frame]
  have hparams : v.params = u.params := hwrote.side.kept.params
  have hfault : v.faulted = false := by rw [hwrote.frame]; exact h.unfaulted
  have hact : v.decActive = true := by rw [hwrote.frame]; exact h.active
  exact ⟨v, hx, hwrote.side.kept.rsps, (exec_ended hx).inv h.inv, (exec_ended hx).idle.trans h.idle, hfault, hact,
    ⟨hfreq.trans h.table.freq, hparams.trans h.table.params⟩, hend, hvalue, hwaiting⟩

/-- DEC_SYM of the end-of-stream symbol answers it with bit 16 set and closes the session (R170, R193). -/
theorem DecoderAt.decSym_eos (h : DecoderAt s iv p (s.codeBits iv p [s.eosSym] ++ l) u) (hc : s.Codes [s.eosSym]) :
    ∃ v : State, exec .decSym u = .next (v.answered 0 (s.eosSym + 2 ^ 16)) ∧ v.rsps = u.rsps ∧ v.faulted = false ∧
      v.decActive = false ∧ v.decEos = true := by
  have hhold := hc.narrowFor_holds h.proper h.settled p l
  have hsym := h.decodes (Nat.le_refl _) (hc.weighted _ (by simp)) hhold
  exact ⟨_, exec_decSym_eos h.inv h.unfaulted h.active hsym h.table.eosSym.symm, rfl, h.unfaulted, rfl, rfl⟩

/-! ## Whole sessions (R172, R253) -/

theorem decode_encode_decSym : decode (encode .decSym) = .ok .decSym := by decide

/-- One DEC_SYM for each ordinary symbol answers the symbols and takes the decoder through the cases of all of them. -/
theorem DecoderAt.run (h : DecoderAt s iv p (s.codeBits iv p (syms ++ more) ++ l) u) (hc : s.Codes (syms ++ more))
    (hne : ∀ sym ∈ syms, sym ≠ s.eosSym) (rest : List Instr) :
    ∃ v, runCommands (List.replicate syms.length .decSym ++ rest) u = runCommands rest v ∧
      v.rsps = u.rsps ++ okResponses syms ∧
      DecoderAt s (s.codingTrace iv syms).2 (emission (s.codingTrace iv syms).1 p).2
        (s.codeBits (s.codingTrace iv syms).2 (emission (s.codingTrace iv syms).1 p).2 more ++ l) v := by
  induction syms generalizing iv p u with
  | nil => exact ⟨u, rfl, (List.append_nil _).symm, h⟩
  | cons sym syms ih =>
    obtain ⟨hsym, hsyms⟩ := List.forall_mem_cons.1 hne
    obtain ⟨w, hx, hrsps, hw⟩ := (h.environment u.rsps _).decSym hc hsym
    obtain ⟨v, hrun, hrsps', hv⟩ := ih hw hc.tail hsyms
    refine ⟨v, (runCommands_cons decode_encode_decSym _ h.idle hx).trans hrun, ?_, ?_⟩
    · rw [hrsps']
      show w.rsps ++ [_] ++ okResponses syms = u.rsps ++ okResponses (sym :: syms)
      rw [hrsps, List.append_assoc]
      rfl
    · simpa only [State.codingTrace, emission_append] using hv

/-- The bytes of a session, and whatever follows them, are the bits of the session and more. -/
theorem encodeSession_stream (h : Inv s) (hq : s.inProgress = none) (hs : ∀ sym ∈ syms, sym ≤ s.eosSym)
    (hr : runCommands (encodeSession syms) s = .next t) (hf : t.faulted = false) (after : List Byte) :
    s.Codes syms ∧ ∃ l, streamBits (t.out.drop s.out.length ++ after) = s.codeBits Interval.full 0 syms ++ l := by
  obtain ⟨hcodes, ⟨sent, hsent⟩, hbits⟩ := encodeSession_sends h hq hs hr hf
  rw [← hsent, streamBits_append, List.append_assoc] at hbits
  rw [← hsent, List.drop_left, streamBits_append, List.append_cancel_left hbits, List.append_assoc]
  exact ⟨hcodes, _, rfl⟩

theorem Inv.issueAll (h : Inv s) (is : List Instr) : Inv (s.issueAll is) :=
  h.environment s.out h.inputInRange s.rsps s.inProgress _

/-- A decoder that reads the bytes of a session answers the ordinary symbols it begins with, and is then where the
encoder was (R172, R197). -/
theorem decoder_follows_session (h : Inv s) (hq : s.inProgress = none) (hs : ∀ sym ∈ syms ++ more, sym ≤ s.eosSym)
    (hne : ∀ sym ∈ syms, sym ≠ s.eosSym) (hr : runCommands (encodeSession (syms ++ more)) s = .next t)
    (hf : t.faulted = false) (hu : Inv u) (huq : u.inProgress = none) (huf : u.faulted = false)
    (hud : u.decActive = false) (ht : SameTable s u) {after : List Byte}
    (hin : u.inp.drop u.inPos = t.out.drop s.out.length ++ after) (rest : List Instr) :
    s.Codes (syms ++ more) ∧ ∃ v l,
      runCommands (.decInit :: List.replicate syms.length .decSym ++ rest) u = runCommands rest v ∧
      v.rsps = u.rsps ++ okResponses (0 :: syms) ∧
      DecoderAt s (s.codingTrace Interval.full syms).2 (emission (s.codingTrace Interval.full syms).1 0).2
        (s.codeBits (s.codingTrace Interval.full syms).2 (emission (s.codingTrace Interval.full syms).1 0).2 more ++ l)
        v := by
  obtain ⟨hcodes, l, hl⟩ := encodeSession_stream h hq hs hr hf after
  obtain ⟨hx, hrsps, hat⟩ := decInit_decoderAt (hu.issueAll (List.replicate syms.length .decSym ++ rest)) huq huf hud
    ⟨ht.freq, ht.params⟩ hcodes
  have hbits : streamBits (u.inp.drop u.inPos) = s.codeBits Interval.full 0 (syms ++ more) ++ l := by rw [hin, hl]
  obtain ⟨v, hrun, hrsps', hv⟩ := DecoderAt.run (hbits ▸ hat) hcodes hne rest
  refine ⟨hcodes, v, l, (runCommands_cons (i := .decInit) (by decide) _ huq hx).trans hrun, ?_, hv⟩
  rw [hrsps']
  show (u.issueAll _).openDec.rsps ++ [_] ++ okResponses syms = u.rsps ++ okResponses (0 :: syms)
  rw [hrsps, List.append_assoc]
  rfl

/-- Settles O50: after the last symbol the session is still open, and DEC_END closes it. -/
theorem decodingByCountGivesBackTheSymbols : Obligations.DecodingByCountGivesBackTheSymbols := by
  intro s t u syms after h hq _ _ hr hf hs hu huq huf hud hparams hfreq hin
  obtain ⟨-, v, l, hrun, hrsps, hv⟩ := decoder_follows_session (syms := syms) (more := []) h hq
    (fun sym hsym => Nat.le_of_lt (hs sym (by simpa using hsym))) (fun sym hsym => Nat.ne_of_lt (hs sym hsym))
    (by rwa [List.append_nil]) hf hu huq huf hud ⟨hfreq, hparams⟩ hin [.decEnd]
  have hx := exec_decEnd (s := v.issueAll []) hv.unfaulted hv.active
  have hend := runCommands_cons (i := .decEnd) (by decide) [] hv.idle hx
  have heos : v.decEos = false := by
    cases he : v.decEos with
    | false => rfl
    | true => exact absurd (hv.active.symm.trans (hv.inv.eosClosed he)) Bool.noConfusion
  refine ⟨_, hrun.trans (hend.trans (runCommands_nil _)), ?_, hv.unfaulted, rfl, heos⟩
  show v.rsps ++ okResponses [0] = u.rsps ++ okResponses (0 :: syms ++ [0])
  rw [hrsps, List.append_assoc]
  simp [okResponses]

theorem State.Codes.of_append (h : s.Codes (syms ++ more)) : s.Codes more :=
  { h with
    inRange := fun sym hsym => h.inRange sym (List.mem_append_right _ hsym)
    weighted := fun sym hsym => h.weighted sym (List.mem_append_right _ hsym) }

/-- Settles O51: the symbol after the ordinary ones is the end-of-stream symbol, which closes the session. -/
theorem decodingToTheEndMarkerGivesBackTheSymbols : Obligations.DecodingToTheEndMarkerGivesBackTheSymbols := by
  intro s t u syms after h hq _ _ hr hf hs hu huq huf hud hparams hfreq hin
  have hle : ∀ sym ∈ syms ++ [s.eosSym], sym ≤ s.eosSym := by
    simpa [or_imp, forall_and] using fun sym hsym => Nat.le_of_lt (hs sym hsym)
  obtain ⟨hc, v, l, hrun, hrsps, hv⟩ := decoder_follows_session h hq hle (fun sym hsym => Nat.ne_of_lt (hs sym hsym))
    hr hf hu huq huf hud ⟨hfreq, hparams⟩ hin [.decSym]
  obtain ⟨w, hx, hrsps', hwf, hwa, hwe⟩ := (hv.environment v.rsps []).decSym_eos hc.of_append
  have hend := runCommands_cons decode_encode_decSym [] hv.idle hx
  rw [List.replicate_succ']
  refine ⟨_, hrun.trans (hend.trans (runCommands_nil _)), ?_, hwf, hwa, hwe⟩
  show w.rsps ++ okResponses [s.eosSym + 2 ^ 16] = u.rsps ++ okResponses (0 :: syms ++ [s.eosSym + 2 ^ 16])
  rw [hrsps']
  show v.rsps ++ _ = _
  rw [hrsps, List.append_assoc]
  simp [okResponses]

end Sys2Proof.Machine
end

section
/-! THE DECODER COMMANDS (43_decoder.md R190 to R197): what `DEC_INIT`, `DEC_SYM` and `DEC_END` answer and change, and that
the decoder's interval is the encoder's. -/

namespace Sys2Proof.Machine

variable {s t : State} {syms : List Nat}

/-! ## The interval of the encoder is the interval of the decoder (R197) -/

/-- A fault-free encoder that has coded these symbols is at the interval the bare cases end with (R167). -/
theorem encodeRun_encInterval (h : Inv s) (hq : s.inProgress = none) (hs : ∀ sym ∈ syms, sym ≤ s.eosSym)
    (hr : runCommands (.encInit :: syms.map .encSym) s = .next t) (hf : t.faulted = false) :
    t.encInterval = (s.codingTrace Interval.full syms).2 := by
  rw [← List.append_nil (syms.map Instr.encSym)] at hr
  obtain ⟨u, d, hu, hf0, hr⟩ :=
    runCommands_cons_done sessionCommand_encInit (sessionCommands_encSyms hs (List.forall_mem_nil _)) hq hr hf
  have hat := (hu.encoderAt_of_encInit h hq hf0).environment (u.answered 0 d).rsps u.host
  obtain ⟨-, v, hr, hv⟩ := hat.run hs (List.forall_mem_nil _) hr hf
  rw [← next_inj (hr.symm.trans (runCommands_nil v)).symm]
  exact hv.interval

/-- Settles O52: both coders end at the interval of the bare coding trace. -/
theorem decoderIntervalFollowsTheEncoder : Obligations.DecoderIntervalFollowsTheEncoder := by
  intro s t p u syms rest after h hq _ _ hr hf hrp hfp hs hrest hu huq huf hud hparams hfreq hin
  have hle : ∀ sym ∈ syms, sym ≤ s.eosSym := fun sym hsym => Nat.le_of_lt (hs sym hsym)
  have hall : ∀ sym ∈ syms ++ rest, sym ≤ s.eosSym := List.forall_mem_append.2 ⟨hle, hrest⟩
  have henc := encodeRun_encInterval h hq hle hrp hfp
  obtain ⟨-, v, l, hrun, -, hv⟩ := decoder_follows_session h hq hall (fun sym hsym => Nat.ne_of_lt (hs sym hsym)) hr hf
    hu huq huf hud ⟨hfreq, hparams⟩ hin []
  rw [List.append_nil] at hrun
  have hdec : v.decInterval = p.encInterval := hv.interval.trans henc.symm
  exact ⟨_, hrun.trans (runCommands_nil v), BitVec.eq_of_toNat_eq (congrArg Interval.low hdec),
    BitVec.eq_of_toNat_eq (congrArg Interval.high hdec)⟩

/-! ## DEC_INIT (R192) -/

/-- The writes of DEC_INIT take sixteen bits from an empty buffer. -/
theorem openDec_took (s : State) : Took Config.P s.clearDec s.openDec := by
  have h := fillValue_took Config.P 0 (s := s.clearDec) ⟨Nat.zero_le _, rfl⟩
  unfold State.openDec
  generalize State.fillValue Config.P 0 s.clearDec = r at h ⊢
  exact ⟨h.pos, h.atEnd⟩

theorem openDec_inPos (s : State) : s.openDec.inPos = s.inPos + min 2 (s.inp.length - s.inPos) := by
  have he : s.clearDec.rxEnd = false := rfl
  have hcnt : s.clearDec.rxCnt.toNat = 0 := rfl
  have hpos := (openDec_took s).pos
  rw [he, hcnt, Config.P_eq, if_neg Bool.false_ne_true] at hpos
  exact hpos

theorem openDec_rxEnd_iff (s : State) : s.openDec.rxEnd = true ↔ s.inp.length - s.inPos < 2 := by
  have hw : s.clearDec.waitingBits = streamBits (s.inp.drop s.inPos) := rfl
  have he : s.clearDec.rxEnd = false := rfl
  rw [(openDec_took s).atEnd, hw, he, streamBits_length, List.length_drop, Config.P_eq]
  simp only [Bool.false_eq_true, false_or]
  omega

/-- Sixteen bits are whole bytes, so none of a byte is left. -/
theorem openDec_rxCnt (s : State) : s.openDec.rxCnt = 0#4 := by
  have hinp : s.openDec.inp = s.inp := (openDec_side s).kept.inp
  have hlen := waitingBits_length (openDec_clean s).1
  rw [(openDec_fills s).2, List.length_drop, streamBits_length, List.length_drop, hinp, openDec_inPos, Config.P_eq]
    at hlen
  have hend := openDec_rxEnd_iff s
  refine rxCnt_eq_zero_iff.2 ?_
  by_cases he : s.openDec.rxEnd = true
  · have hfew := hend.1 he
    rw [if_pos he] at hlen
    omega
  · have hmany := mt hend.2 he
    rw [if_neg he] at hlen
    omega

/-- A clean receive buffer with no bit left is all 0 (10_state.md R57 f). -/
theorem State.RxClean.rxBuf_of_empty (h : s.RxClean) (h0 : s.rxCnt = 0#4) : s.rxBuf = 0#8 := by
  have hbuf := h.2
  rw [h0] at hbuf
  exact BitVec.eq_of_toNat_eq ((Nat.mod_eq_of_lt s.rxBuf.isLt).symm.trans hbuf)

theorem openDec_frame (s : State) :
    s.openDec = { s with decLow := 0#16, decHigh := 0xFFFF#16, decValue := s.openDec.decValue, decActive := true,
                         decEos := false, rxBuf := 0#8, rxCnt := 0#4, rxEnd := s.openDec.rxEnd,
                         inPos := s.openDec.inPos } := by
  have hframe := (openDec_side s).frame
  have hlow := openDec_decLow s
  have hhigh := openDec_decHigh s
  have heos := openDec_decEos s
  have hact : s.openDec.decActive = true := rfl
  have hcnt := openDec_rxCnt s
  have hbuf := (openDec_clean s).rxBuf_of_empty hcnt
  generalize s.openDec = t at *
  rwa [hlow, hhigh, heos, hact, hcnt, hbuf] at hframe

/-- Settles O35: the session is checked first, then the total, and the writes are those of `openDec`. -/
theorem decInitFillsTheValueRegister : Obligations.DecInitFillsTheValueRegister := by
  intro s hf
  refine ⟨fun hd hpos hlt => ?_, fun hd => exec_badState hf ?_, fun hd h0 => ?_, fun hd hge => ?_⟩
  · have hx := exec_decInit hf hd hpos hlt
    have hframe := openDec_frame s
    obtain ⟨hval, hrest⟩ := openDec_fills s
    have hinPos := openDec_inPos s
    have hend := openDec_rxEnd_iff s
    generalize s.openDec = t at *
    exact ⟨t.answered 0 0, hx, congrArg (·.answered 0 0) hframe, hval, hrest, hinPos, hend⟩
  · simp [sessionOk, hd]
  · exact issue_modelCheck_empty hf (sessionOk_decInit_iff.2 hd) h0
  · exact issue_modelCheck_tooLarge hf (sessionOk_decInit_iff.2 hd) hge

/-! ## DEC_SYM (R190, R193, R196) -/

/-- Settles O29: the quotient is `Scaled` as defined, and the value is one of the `range` values of the interval. -/
theorem scaledValueIsBelowTheTotal : Obligations.ScaledValueIsBelowTheTotal := fun _ _ _ hlow hhigh ht =>
  ⟨rfl, Interval.scaled_lt ht hlow hhigh⟩

/-- Renormalizing an interval that holds the value goes through the cases of the bare interval and takes one bit for
each (R191). -/
theorem Inv.decRenorm_spec (h : Inv s) {iv : Interval} (hp : iv.Proper)
    (hv : iv.low ≤ s.decValue.toNat ∧ s.decValue.toNat ≤ iv.high) :
    let trace := iv.settle Config.P
    let t := decRenorm Config.P (s.setDecInterval iv)
    t.decInterval = trace.2 ∧
      t.decValue.toNat = shiftValue trace.1 (window trace.1.length s.waitingBits) s.decValue.toNat ∧
      t.waitingBits = s.waitingBits.drop trace.1.length ∧ t.RxClean ∧ DecoderWrote s t ∧ Took trace.1.length s t := by
  have hiv := setDecInterval_decInterval s hp
  have hclean : (s.setDecInterval iv).RxClean := ⟨h.rxCount, h.rxClean⟩
  obtain ⟨hend, hval, -, -, hrest, hclean', hwrote⟩ :=
    Machine.decRenorm_spec Config.P hclean (hiv.symm ▸ hp) (hiv.symm ▸ hv)
  have htook := decRenorm_took Config.P hclean (hiv.symm ▸ hp)
  rw [hiv] at hend hval hrest htook
  exact ⟨hend, hval, hrest, hclean', (setDecInterval_wrote s iv).trans hwrote, htook.pos, htook.atEnd⟩

/-- Settles O36: `Find` has a symbol for the scaled value, and the narrowed interval holds the value register. -/
theorem decSymDecodesTheSymbol : Obligations.DecSymDecodesTheSymbol := by
  intro s h hf ha
  obtain ⟨sym, hsym⟩ := h.decodedSymbol_defined ha
  obtain ⟨hle, hlo, hhi, hw, -⟩ := State.findSymbol_spec h.tableCanonical h.tableInRange hsym
  obtain ⟨hp, hv⟩ := h.narrowed_dec (h.scaledDefined hf ha) hsym
  by_cases he : sym = s.eosSym
  · refine ⟨sym, _, exec_decSym_eos h hf ha hsym he, hle, hw, hlo, hhi, fun _ => ⟨?_, ?_⟩, fun hne => absurd he hne⟩
    · rw [he]
      rfl
    · exact setDecInterval_decInterval s hp
  · obtain ⟨hend, hval, hrest, ⟨hcnt, hbuf⟩, hwrote, htook⟩ := h.decRenorm_spec hp hv
    exact ⟨sym, _, exec_decSym_ordinary h hf ha hsym he, hle, hw, hlo, hhi, fun heq => absurd heq he, fun _ =>
      ⟨congrArg (·.answered 0 sym) hwrote.frame, hend, Interval.settle_P_none hp, hval, hrest, hcnt, hbuf, htook.pos,
        htook.atEnd⟩⟩

/-! ## DEC_END (R194) -/

/-- Settles O37: the only effect is on `dec_active`, and both commands check the session first. -/
theorem decEndClosesTheSession : Obligations.DecEndClosesTheSession := fun _ hf =>
  ⟨exec_decEnd hf, fun ha => ⟨exec_badState hf ha, exec_badState hf ha⟩⟩

end Sys2Proof.Machine
end

section
/-! THE SYSTEM COMMANDS (44_system_ops.md R210): what `NOP` answers. -/

namespace Sys2Proof.Machine

variable {s : State}

/-- `NOP` needs no session (R103), so its answer is all it does (R210). -/
theorem exec_nop (hf : s.faulted = false) : exec .nop s = .next (s.answered 0 0) := by
  rw [exec, execNop, issue_ok (i := .nop) hf rfl, answer_eq]

/-- Settles O12: unfaulted it is issued and only answers; otherwise it is one of the commands a recorded fault refuses. -/
theorem nopChangesNothing : Obligations.NopChangesNothing := fun _ =>
  ⟨exec_nop, fun hf => exec_faulted hf (by simp [alwaysExecutes])⟩

end Sys2Proof.Machine
end

section
/-! FAULTS (60_exceptions.md R224 to R235): how one is raised, what it writes, what a recorded one refuses, and the one
command that clears it. -/

namespace Sys2Proof.Machine

variable {s t u : State} {w : Word} {i : Instr}

/-- Settles O7: with an empty queue there is no event to handle. -/
theorem idleBlockWaits : Obligations.IdleBlockWaits := fun _ => step_idle

/-! ## Raising a fault (R224, R227) -/

/-- `ENC_SYM` of a symbol it cannot code (R224). -/
theorem exec_encSym_unknown {sym : Nat} (hf : s.faulted = false) (ha : s.encActive = true)
    (hsym : s.symbolCodable sym = false) : exec (.encSym sym) s = .next (s.latched 3 (encode (.encSym sym))) := by
  rw [exec, execEncSym, issue_ok (i := .encSym sym) hf ha, hsym, Bool.not_false, if_pos rfl, raise_eq]
  rfl

/-- Settles O32: with a session open the symbol check fails, with none open the session check. -/
theorem encSymRefusesUnknownSymbols : Obligations.EncSymRefusesUnknownSymbols := by
  intro s sym hf
  refine ⟨fun ha hbad => exec_encSym_unknown hf ha ?_, exec_badState (i := .encSym sym) hf⟩
  rw [Bool.eq_false_iff, ne_eq, symbolCodable_iff]
  rintro ⟨hle, hw⟩
  exact hbad.elim (Nat.not_lt.2 hle) hw

/-- Settles O38: in each of the ten cases the session condition of R103 is false. -/
theorem wrongSessionStateRaisesBadState : Obligations.WrongSessionStateRaisesBadState := by
  intro s i hf h
  refine exec_badState hf ?_
  rcases h with ⟨ha, rfl | ⟨sym, rfl⟩⟩ | ⟨ha, rfl | rfl | ⟨b, rfl⟩ | ⟨idx, w, rfl⟩⟩ | ⟨ha, rfl | rfl⟩ |
    ⟨ha, rfl | rfl | ⟨idx, w, rfl⟩⟩ <;> simp [sessionOk, ha]

/-! ## What taking a fault writes (R231, R232) -/

/-- From `s` to `t` the word `w` raised a fault: the latch and the response are all it wrote, or it is the `ENC_SYM`
whose renormalization had written the encoder's side before the counter overflowed. -/
inductive FaultTaken (w : Word) (s t : State) : Prop where
  | precise (c : Cause) (ht : t = s.latched c.code.toNat w)
  | overflow (sym : Nat) (u : State) (hd : decode w = .ok (.encSym sym)) (hu : EncoderWrote s u)
      (ht : t = u.latched 4 w)

/-- A decoded command that ends with a fault not recorded before has raised it. -/
theorem Ended.faultTaken (h : Ended i s t) (hd : decode w = .ok i) (hf : s.faulted = false) (ht : t.faulted = true) :
    FaultTaken w s t := by
  obtain ⟨-, rfl⟩ := decodedWordIsItsEncoding w i hd
  cases h with
  | refused hf' => exact absurd (hf.symm.trans hf') Bool.noConfusion
  | raised c _ _ ht => exact .precise c ht
  | overflowed sym u hi _ _ _ _ _ hu ht =>
    exact .overflow sym u (hi ▸ hd) ((setEncInterval_wrote s _).trans (encRenorm_wrote _ (Or.inr hu))) ht
  | done u d _ hu hdone =>
    rw [hdone] at ht
    exact absurd ((hu.faulted hf).symm.trans ht) Bool.noConfusion

theorem executeWord_faultTaken (h : executeWord w s = .next t) (hf : s.faulted = false) (ht : t.faulted = true) :
    FaultTaken w s t := by
  rcases executeWord_ended h with ⟨i, hd, hi⟩ | ⟨e, -, ⟨hf', -⟩ | ⟨-, ht'⟩⟩
  · exact hi.faultTaken hd hf ht
  · exact absurd (hf.symm.trans hf') Bool.noConfusion
  · exact .precise .illegalCmd ht'

/-- A step that finds a word and records a fault has executed the word: a busy block only drops it (R272). -/
theorem step_cmd_faultTaken {rest : List HostEvent} (hh : s.host = .cmd w :: rest) (h : step s = .next t)
    (hf : s.faulted = false) (ht : t.faulted = true) : FaultTaken w { s with host := rest } t := by
  by_cases hq : s.inProgress = none
  · exact executeWord_faultTaken ((step_cmd hq hh).symm.trans h) hf ht
  · obtain rfl : { s with host := rest } = t := next_inj ((step_busy_word hq hh (Or.inl ⟨w, rfl⟩)).symm.trans h)
    exact absurd (hf.symm.trans ht) Bool.noConfusion

/-- Settles O39: a fault taken precisely is the latch alone, and the overflow of `ENC_SYM` has written what
renormalization writes. -/
theorem faultEntryWritesOnlyTheLatch : Obligations.FaultEntryWritesOnlyTheLatch := by
  intro s t w rest hh hf h hft
  cases step_cmd_faultTaken hh h hf hft with
  | precise c ht =>
    have hc : t.faultCause = c.code := (congrArg State.faultCause ht).trans c.ofNat_code
    rw [hc]
    exact ⟨c.code_range.1, c.code_range.2, hft, Or.inl ht⟩
  | overflow sym u hd hu ht =>
    subst ht
    obtain ⟨hpos, hle⟩ := Cause.pendingOverflow.code_range
    exact ⟨hpos, hle, hft, Or.inr ⟨rfl, ⟨sym, hd⟩, congrArg (·.latched 4 w) hu.frame⟩⟩

/-! ## While a fault is recorded (R229, R234) -/

/-- `SRST` is the only word that decodes to it (R91). -/
theorem ne_srst_of_decode (hd : decode w = .ok i) (hw : w ≠ 0x01000000#32) : i ≠ .srst := by
  rintro rfl
  exact hw (decodedWordIsItsEncoding w .srst hd).2.symm

/-- The addresses of the register map (10_state.md R36). -/
theorem Csr.addr_mem (c : Csr) : c.addr ∈ [0, 1, 2, 3, 4, 8, 9, 0xA, 0xB, 0x10, 0x11, 0x12, 0x13] := by
  cases c <;> decide

/-- The word of a register read is its opcode and the address (R92). -/
theorem toNat_of_decode_csrRd {a : Nat} (hd : decode w = .ok (.csrRd a)) : w.toNat = 0x02000000 + a := by
  obtain ⟨hfit, rfl⟩ := decodedWordIsItsEncoding w _ hd
  rw [Instr.wellFormed, fitsOperand, decide_eq_true_eq] at hfit
  rw [encode, encodeS_toNat, Nat.mod_eq_of_lt hfit]
  rfl

/-- An idle block with a fault recorded refuses every word that is not one of a command that always executes. -/
theorem executeWord_faulted (hf : s.faulted = true) (hw : ∀ i, decode w = .ok i → ¬ alwaysExecutes i) :
    executeWord w s = .next (s.answered 0xF 0) := by
  cases hd : decode w with
  | ok i => rw [executeWord_ok hd, exec_faulted hf (hw i hd)]
  | error e => rw [executeWord_error hd, if_pos hf]

/-- Settles O8: the words left out are those of the commands that always execute. -/
theorem faultedBlockRefuses : Obligations.FaultedBlockRefuses := by
  intro s w rest hq hf hh hsrst hcsr
  rw [step_cmd hq hh]
  refine executeWord_faulted hf fun i hd => ?_
  rintro (hi | ⟨a, c, rfl, hc⟩)
  · exact ne_srst_of_decode hd hsrst hi
  · have hmem := c.addr_mem
    rw [addr_of_csrAt hc] at hmem
    exact hcsr a hmem (toNat_of_decode_csrRd hd)

/-- A recorded fault survives every command but `SRST` (R234). -/
theorem Ended.latch_of_faulted (h : Ended i s t) (hi : i ≠ .srst) (hf : s.faulted = true) :
    t.faultCause = s.faultCause ∧ t.faultCmd = s.faultCmd := by
  cases h with
  | refused _ _ ht => rw [ht]; exact ⟨rfl, rfl⟩
  | raised _ hf' | overflowed _ _ _ hf' => exact absurd (hf.symm.trans hf') Bool.noConfusion
  | done u d _ hu ht => rw [ht]; exact hu.latch hi

theorem executeWord_latch_of_faulted (h : executeWord w s = .next t) (hw : w ≠ 0x01000000#32)
    (hf : s.faulted = true) : t.faultCause = s.faultCause ∧ t.faultCmd = s.faultCmd := by
  rcases executeWord_ended h with ⟨i, hd, hi⟩ | ⟨e, -, ⟨-, rfl⟩ | ⟨hf', -⟩⟩
  · exact hi.latch_of_faulted (ne_srst_of_decode hd hw) hf
  · exact ⟨rfl, rfl⟩
  · exact absurd (hf.symm.trans hf') Bool.noConfusion

/-- The word of `SRST` executes whatever the latch holds (R211). -/
theorem executeWord_srst (s : State) : executeWord 0x01000000#32 s = .next ((softReset s).answered 0 0) :=
  executeWord_ok (decodeInvertsEncode .srst rfl) s

/-- Settles O40: `SRST` clears the latch, and every other word ends in one of the ways that leave it. -/
theorem onlySrstClearsTheLatch : Obligations.OnlySrstClearsTheLatch := by
  intro s t w rest hq hh hf h
  rw [step_cmd hq hh] at h
  refine ⟨fun hw => ?_, fun hw => ?_⟩
  · rw [hw, executeWord_srst] at h
    rw [← next_inj h]
    exact ⟨rfl, rfl, rfl⟩
  · obtain ⟨hcause, hcmd⟩ := executeWord_latch_of_faulted h hw hf
    refine ⟨hcause, hcmd, ?_⟩
    rw [State.faultLine, State.faulted, hcause]
    exact hf

end Sys2Proof.Machine
end

section
/-! `rst` INSIDE A COMMAND, AND THE COMMANDS THAT COMPLETE (70_reset_and_hazards.md R250, R270, R273). -/

namespace Sys2Proof.Machine

variable {s t v : State} {w : Word} {k : Nat}

/-! ## `rst` inside a command -/

/-- Hardware reset is the reset state, with `N` and the environment as they were (R55). -/
theorem hardReset_eq (s : State) :
    hardReset s = { State.reset with
      params := s.params, out := s.out, inp := s.inp, inPos := s.inPos, rsps := s.rsps, host := s.host } := rfl

theorem abandonWord_of_stallWord (h : stallWord w k s = .next v) : abandonWord w k s = .next (hardReset v) := by
  rw [abandonWord, h]

theorem stallWord_of_executeWord (h : executeWord w s = .next t) : stallWord w k s = .next (waiting w k s t) := by
  rw [stallWord, h]

/-- Settles O11: in an idle block the command is left waiting after `k` transfers and then reset, and the wait already
holds the streams; in a block that waits the word changes nothing, and neither stream moves. -/
theorem resetInsideACommandKeepsTransferredBytes : Obligations.ResetInsideACommandKeepsTransferredBytes := by
  intro s t w k rest hh ht
  by_cases hq : s.inProgress = none
  · have ht' : executeWord w { s with host := rest } = .next t :=
      (step_cmd (s := { s with host := .cmd w :: rest }) hq rfl).symm.trans ht
    have hv := stallWord_of_executeWord (k := k) ht'
    obtain ⟨hparams, hinp, hhost, hrsps, -, hout, hout', hlen, hpos⟩ := stallWord_streams ht' hv
    refine ⟨_, (step_whenIdle hq hh).trans (abandonWord_of_stallWord hv), ?_, hout, hout', hlen, hpos⟩
    rw [hardReset_eq, hparams, hinp, hhost, hrsps]
  · obtain rfl : { s with host := rest } = t :=
      next_inj ((step_busy_word (s := { s with host := .cmd w :: rest }) hq rfl (.inl ⟨w, rfl⟩)).symm.trans ht)
    exact ⟨_, step_busy_rst hq hh (.inr ⟨w, k, rfl⟩), hardReset_eq _, List.prefix_refl _, List.prefix_refl _,
      (Nat.min_eq_right (Nat.le_add_right _ _)).symm, (Nat.min_eq_left (Nat.le_add_right _ _)).symm⟩

/-! ## Every command completes -/

/-- Settles O55: the invariant gives the step a next state, and every word an idle block executes is answered once and
leaves no command in progress. -/
theorem answeredCommandsComplete : Obligations.AnsweredCommandsComplete := by
  intro s w rest hinv hq hh
  obtain ⟨t, ht⟩ := stepNeverStops s hinv
  have hw : executeWord w { s with host := rest } = .next t := (step_cmd hq hh).symm.trans ht
  obtain ⟨r, hr⟩ := executeWord_answered hw
  obtain ⟨-, -, hhost, -, -, -, hidle⟩ := executeWord_kept hw
  exact ⟨t, r, ht, hr.appended, hidle.trans hq, hhost⟩

end Sys2Proof.Machine
end

section
/-! THE WORDS OF THE TEST VECTORS (95_test_vectors.md V-N1 to V-N3): the legal ones are encodings of well-formed
commands, the illegal ones are of the list of R99. -/

namespace Sys2Proof

theorem decode_of_encode_eq {i : Instr} {w : Word} (hw : i.wellFormed = true) (he : encode i = w) : decode w = .ok i :=
  he ▸ decodeInvertsEncode i hw

/-- A word of the list of R99 is no command, and the reason is told from its opcode byte. -/
theorem IllegalWord.decode_eq {w : Word} (h : IllegalWord w) :
    decode w = .error (if opcodeListed w then .nonzeroReservedBits else .reservedOpcode) := by
  have hf : (rows.find? fun r => r.hits w) = none :=
    List.find?_eq_none.2 fun _ hm hr => h.not_legal ((decodes_iff_legalWord w).1 ⟨_, decode_of_hits hm hr⟩)
  rw [decode, hf]
  exact (apply_ite Except.error _ _ _).symm

/-- Settles O1: the seven commands by the round trip from their encodings, the two other words by the list of R99. -/
theorem specWordsDecodeAsListed : Obligations.SpecWordsDecodeAsListed := by
  have hreserved : IllegalWord 0x03000000#32 := .inl (.inl (by decide))
  have hbit14 : IllegalWord 0x41004000#32 := .inr (.inr (.inl (by decide)))
  exact ⟨decode_of_encode_eq rfl rfl, decode_of_encode_eq rfl rfl, decode_of_encode_eq rfl rfl,
    decode_of_encode_eq rfl rfl, decode_of_encode_eq rfl rfl, decode_of_encode_eq rfl rfl, decode_of_encode_eq rfl rfl,
    hreserved.decode_eq, hbit14.decode_eq⟩

end Sys2Proof
end
